-- ==== Sys2Proof/Word.lean ====
section
/-! DEFINITION. The word types of the hardware (00_scope.md R5, R7): every value is unsigned and bit 0 is the least
significant bit. -/

namespace Sys2Proof

/-- A field element or a table entry: `W` = 8 bits, bit k the coefficient of x^k (00_scope.md R5, R8). -/
abbrev Byte := BitVec 8

/-- A command word: `CMD_W` = 16 bits (00_scope.md R5, 30_encoding.md R62). -/
abbrev CmdWord := BitVec 16

/-- The sequencer's index: `IDX_W` = 9 bits (00_scope.md R5, 10_state.md R21). -/
abbrev Idx := BitVec 9

/-- A reduction polynomial: 9 bits, bit 8 the coefficient of x^8 (00_scope.md R5, R8). -/
abbrev Modulus := BitVec 9

end Sys2Proof
end

