-- ==== Sys2Proof/Config.lean ====
section
/-! DEFINITION. The parameters of the hardware (00_scope.md R5), its two address spaces (20_memory.md R40 to R42) and
the one free value: what a table entry holds that nothing has written (10_state.md R35). -/

namespace Sys2Proof

/-- The two address spaces; the hardware has no other (20_memory.md R40, R41, R42). -/
inductive Space where
  /-- EXP: 255 entries, indices 0..254 (R40). -/
  | exp
  /-- LOG: 256 entries, indices 0..255 (R41). -/
  | log
deriving DecidableEq, Repr

namespace Config

/-- `MODULUS` = 0x11D, x^8+x^4+x^3+x^2+1 (00_scope.md R5; 90_conflicts.md C1; 92_eei_decisions.md D1). Every operation
that uses it also exists for any other modulus (names ending in `At`). -/
def modulus : Modulus := 0x11D

/-- The other modulus the source names, rejected by 90_conflicts.md C1 and studied in 42_log_table_inverter.md R131. -/
def rejectedModulus : Modulus := 0x11B

/-- `GEN` = 2, the polynomial x (00_scope.md R5). The reducer's one-bit shift is the multiplication by it. -/
def gen : Byte := 2

/-- `SENTINEL` = 255 (00_scope.md R5). -/
def sentinel : Byte := 0xFF

/-- `EXP_LEN` = 255 entries (00_scope.md R5). -/
def expLen : Nat := 255

/-- `LOG_LEN` = 256 entries (00_scope.md R5). -/
def logLen : Nat := 256

/-- `T_GEN` = 766 edges from the acceptance of START to `valid` = 1 (00_scope.md R5). -/
def tGen : Nat := 766

/-- What an entry holds that nothing has written: unspecified, "a free draw" (10_state.md R35; log 4). It has no body, so
nothing can be proved of its value. -/
opaque powerUpByte : Space → Nat → Byte

end Config

/-- How many entries a space has (20_memory.md R40, R41). -/
def Space.size : Space → Nat
  | .exp => Config.expLen
  | .log => Config.logLen

end Sys2Proof
end

