-- ==== Sys2Proof/Machine/State.lean ====
section
/-! DEFINITION. The state of the core (10_state.md), what the host drives on the input ports (30_encoding.md R60), the
state after reset (10_state.md R34), and the reasons a step can stop. -/

namespace Sys2Proof.Machine

/-- `phase`: the sequencer's state (10_state.md R20). All four encodings are legal, so the register is an enumeration;
`Phase.code` gives its two bits. -/
inductive Phase where
  /-- 2'b00: no generation in progress. -/
  | idle
  /-- 2'b01: filling `exp_mem`. -/
  | expGen
  /-- 2'b10: writing the sentinel into every `log_mem` entry. -/
  | logInit
  /-- 2'b11: writing LOG[EXP[i]] = i. -/
  | logInv
deriving DecidableEq, Repr

/-- `rsp_status`: the four status codes (60_exceptions.md R160). All four are defined, so the register is an
enumeration; `Status.code` gives its two bits. -/
inductive Status where
  /-- 2'b00: command performed. -/
  | ok
  /-- 2'b01: a table read while `valid` = 0, or START while a generation is in progress. -/
  | notReady
  /-- 2'b10: RDEXP with index 255. -/
  | badIndex
  /-- 2'b11: the command word decodes to no command. -/
  | illegal
deriving DecidableEq, Repr

/-- What the host drives on the input ports at one edge (30_encoding.md R60). -/
structure PortIn where
  rst : Bool
  cmdValid : Bool
  cmd : Sys2Proof.CmdWord
deriving DecidableEq, Repr

/-- The storage of one address space: (index, byte) pairs, indices strictly rising. An entry that is not listed is one
nothing has written (20_memory.md R40, R41; 10_state.md R35; log 4). -/
abbrev Memory := List Host.Cell

/-- The state of the core: every register of 10_state.md R20 to R26, the two tables, and `inputs`, which is the model's
own: what the host drives at the coming edges, nearest first (log 1). -/
structure State where
  /-- `phase` (R20). -/
  phase : Phase
  /-- `idx` (R21). -/
  idx : Sys2Proof.Idx
  /-- `cur` (R22). -/
  cur : Sys2Proof.Byte
  /-- `valid` (R23). -/
  valid : Bool
  /-- `exp_mem` (R24). -/
  expMem : Memory
  /-- `log_mem` (R25). -/
  logMem : Memory
  /-- `rsp_valid` (R26). -/
  rspValid : Bool
  /-- `rsp_status` (R26). -/
  rspStatus : Status
  /-- `rsp_data` (R26). -/
  rspData : Sys2Proof.Byte
  /-- What the host drives at the coming edges (log 1, log 2). -/
  inputs : List PortIn
deriving DecidableEq, Repr

/-- The state after a reset edge that follows power-up (10_state.md R34): every register at the value the spec gives, no
table entry written yet (R35), and no input of the host's placed (log 11). -/
def State.reset : State where
  phase := .idle
  idx := 0
  cur := 0x01
  valid := false
  expMem := []
  logMem := []
  rspValid := false
  rspStatus := .ok
  rspData := 0x00
  inputs := []

/-- The faults. The hardware has none at run time (60_exceptions.md R165); an error is a response. -/
inductive Fault where
  /-- An access to an index that has no storage (20_memory.md R47). Raised by the sequencer's accesses and by RDEXP's
  where the checks before them would let such an index through; they never do (log 9). Safe: the machine stops. -/
  | noStorage (space : Sys2Proof.Space) (index : Nat)
deriving DecidableEq, Repr

/-- The refusals. -/
inductive Refusal where
  /-- An instruction that has no meaning yet; no arm of `exec` raises it. Safe: the machine stops. -/
  | notModelled (mnemonic : String)
  /-- An edge without reset from a state outside the invariant of 10_state.md R33, which no state reachable from a reset
  edge is in. Raised by `clockEdge`: "States outside it are unreachable, and a model refuses them" (R33,
  93_implementation_defined.md row 5; log 5). Safe: the machine stops. -/
  | outsideInvariant
deriving DecidableEq, Repr

end Sys2Proof.Machine
end

