-- ==== Sys2Proof/Machine/Ops.lean ====
section
/-! DEFINITION. The shared operations: table storage (00_scope.md R9, 20_memory.md), the response and the error response
(30_encoding.md R66, R67; 00_scope.md R9), the reset edge (70_reset_and_hazards.md R180), and the input ports. -/

namespace Sys2Proof.Machine

/-- A step's outcome, over this machine's state. -/
abbrev Result := Host.Outcome State Fault Refusal

/-- Go on with `f` where the first part of a step answers a state; a stop stays. -/
def andThen (r : Result) (f : State → Result) : Result :=
  match r with
  | .next s => f s
  | .fault e => .fault e
  | .refused e => .refused e

/-! ## Storage -/

/-- The byte listed for an index, if one is. -/
def Memory.read : Memory → Nat → Option Byte
  | [], _ => none
  | c :: rest, a => if a = c.1 then some c.2 else Memory.read rest a

/-- List `v` for the index `a`, keeping the indices strictly rising. -/
def Memory.write : Memory → Nat → Byte → Memory
  | [], a, v => [(a, v)]
  | c :: rest, a, v =>
    if a < c.1 then (a, v) :: c :: rest
    else if a = c.1 then (a, v) :: rest
    else c :: Memory.write rest a v

/-- The canonical form of the storage of a space of `size` entries: indices strictly rising, each one inside the space.
(An unlisted entry has no value of its own, so no listed entry can equal it; log 9.) -/
abbrev Memory.wf (size : Nat) (m : Memory) : Prop :=
  m.Pairwise (fun c d => c.1 < d.1) ∧ ∀ c ∈ m, c.1 < size

/-- The storage of a space. -/
def State.table (s : State) : Space → Memory
  | .exp => s.expMem
  | .log => s.logMem

/-- The state with other storage for a space. -/
def State.setTable (s : State) (sp : Space) (m : Memory) : State :=
  match sp with
  | .exp => { s with expMem := m }
  | .log => { s with logMem := m }

/-- What an entry holds: the byte last written to it or, where nothing has been, the free value of 10_state.md R35. -/
def entry (sp : Space) (k : Nat) (s : State) : Byte :=
  ((s.table sp).read k).getD (Config.powerUpByte sp k)

/-- `MemRead(space, k, 1)` (00_scope.md R9, 20_memory.md R45): one whole entry; an index outside the space has none. -/
def memRead (sp : Space) (k : Nat) (s : State) : Option Byte :=
  if k < sp.size then some (entry sp k s) else none

/-- `MemWrite(space, k, 1, v)` (00_scope.md R9, 20_memory.md R45). -/
def memWrite (sp : Space) (k : Nat) (v : Byte) (s : State) : Option State :=
  if k < sp.size then some (s.setTable sp ((s.table sp).write k v)) else none

/-! ## Responses -/

/-- `respond(status, data)` (30_encoding.md R66). -/
def respond (status : Status) (data : Byte) (s : State) : State :=
  { s with
    rspValid := true
    rspStatus := status
    rspData := if status = .ok then data else 0x00 }

/-- `raise <Status>(info)` "means `respond(<Status>, 8'h00)` and no further effect of the command" (00_scope.md R9). This
is the hardware's only error entry: it saves no state, changes no mode and redirects nothing, and nothing returns from it
(60_exceptions.md R165, R166). -/
def raise (status : Status) (s : State) : State :=
  respond status 0x00 s

/-- The response registers at an edge without a command (30_encoding.md R67). -/
def noResponse (s : State) : State :=
  { s with
    rspValid := false
    rspStatus := .ok
    rspData := 0x00 }

/-- `respond(OK, MemRead(space, k, 1))` (43_table_access.md R141, R142). -/
def respondEntry (sp : Space) (k : Nat) (s : State) : Result :=
  match memRead sp k s with
  | some b => .next (respond .ok b s)
  | none => .fault (.noStorage sp k)

/-! ## Reset -/

/-- `reset(s)`: the registers take the values of 10_state.md R34, the tables are unchanged (70_reset_and_hazards.md
R180). It is defined on every state, those of power-up among them (R182). -/
def resetEdge (s : State) : State :=
  { s with
    phase := .idle
    idx := 0
    cur := 0x01
    valid := false
    rspValid := false
    rspStatus := .ok
    rspData := 0x00 }

/-! ## Input ports -/

/-- An edge at which the host drives neither `rst` nor a command. -/
def PortIn.quiet : PortIn := ⟨false, false, 0⟩

/-- A reset edge. -/
def PortIn.reset : PortIn := ⟨true, false, 0⟩

/-- The host presents a command word. -/
def PortIn.present (w : CmdWord) : PortIn := ⟨false, true, w⟩

/-- What the host drives at the next edge: the head of the list, and nothing past its end (log 2). -/
def State.portIn (s : State) : PortIn :=
  s.inputs.headD PortIn.quiet

/-- The inputs of an edge are gone after it. -/
def State.shiftInputs (s : State) : State :=
  { s with inputs := s.inputs.tail }

/-- The host drives `d` at the next edge, before everything already listed. -/
def State.drive (d : PortIn) (s : State) : State :=
  { s with inputs := d :: s.inputs }

end Sys2Proof.Machine
end

