-- ==== Sys2Proof/Machine/Flags.lean ====
section
/-! DEFINITION. The two flags, the combinational outputs (10_state.md R27, R30), the STATUS byte (R31) and the output
ports (30_encoding.md R60). -/

namespace Sys2Proof.Machine

/-- The two bits of `phase` (10_state.md R20). -/
def Phase.code : Phase → BitVec 2
  | .idle => 0b00
  | .expGen => 0b01
  | .logInit => 0b10
  | .logInv => 0b11

/-- The two bits of `rsp_status` (60_exceptions.md R160). -/
def Status.code : Status → BitVec 2
  | .ok => 0b00
  | .notReady => 0b01
  | .badIndex => 0b10
  | .illegal => 0b11

/-- `done = valid` (10_state.md R27). -/
def State.done (s : State) : Bool := s.valid

/-- `busy = (phase != IDLE)` (10_state.md R27). -/
def State.busy (s : State) : Bool := decide (s.phase ≠ .idle)

/-- `cmd_ready = 1`, a constant (10_state.md R27, 30_encoding.md R61). -/
def State.cmdReady (_ : State) : Bool := true

/-- The STATUS byte: `(4'b0000, phase[1:0], BUSY, VALID)` from the upper bits down (10_state.md R31). -/
def statusByte (s : State) : Byte :=
  (0#4 ++ s.phase.code) ++ (BitVec.ofBool s.busy ++ BitVec.ofBool s.valid)

/-- The output ports (30_encoding.md R60). -/
structure PortOut where
  cmdReady : Bool
  rspValid : Bool
  rspStatus : BitVec 2
  rspData : Byte
  done : Bool
  busy : Bool
deriving DecidableEq, Repr

/-- What the host samples: the response registers drive the ports of their names directly (10_state.md R26), the rest is
combinational (R27). -/
def State.outputs (s : State) : PortOut where
  cmdReady := s.cmdReady
  rspValid := s.rspValid
  rspStatus := s.rspStatus.code
  rspData := s.rspData
  done := s.done
  busy := s.busy

end Sys2Proof.Machine
end

