-- ==== Sys2Proof/Machine/Operands.lean ====
section
/-! DEFINITION. The operand forms (30_encoding.md R64): the operand byte as an EXP index and as a field element, unsigned,
with no sign extension, scaling or shift. -/

namespace Sys2Proof.Machine

/-- The operand of RDEXP as an EXP index. 255 is encodable and out of range (30_encoding.md R64, 60_exceptions.md
R163). -/
def expIndex (o : Byte) : Option Nat :=
  if o = 0xFF then none else some o.toNat

/-- The operand of RDLOG as the index of its LOG entry: every value is in range (30_encoding.md R64). -/
def logIndex (o : Byte) : Nat := o.toNat

end Sys2Proof.Machine
end

