-- ==== Sys2Proof/Machine/Access.lean ====
section
/-! DEFINITION. The commands of 43_table_access.md: NOP, RDEXP, RDLOG and STATUS. Each is computed from the pre-edge state
and writes the response registers only. -/

namespace Sys2Proof.Machine

/-- NOP: `respond(OK, 8'h00)` (43_table_access.md R140). -/
def execNop (s : State) : Result :=
  .next (respond .ok 0x00 s)

/-- RDEXP: NOTREADY while `valid` = 0, then BAD_INDEX for 255, then the entry (43_table_access.md R141; the priority is
60_exceptions.md R164's). -/
def execRdexp (i : Byte) (s : State) : Result :=
  if s.valid = false then .next (raise .notReady s)
  else
    match expIndex i with
    | none => .next (raise .badIndex s)
    | some k => respondEntry .exp k s

/-- RDLOG: NOTREADY while `valid` = 0, then the entry; no index is out of range (43_table_access.md R142). -/
def execRdlog (b : Byte) (s : State) : Result :=
  if s.valid = false then .next (raise .notReady s)
  else respondEntry .log (logIndex b) s

/-- STATUS: the status byte of the pre-edge state (43_table_access.md R143). -/
def execStatus (s : State) : Result :=
  .next (respond .ok (statusByte s) s)

end Sys2Proof.Machine
end

