-- ==== Sys2Proof/Machine/Reducer.lean ====
section
/-! DEFINITION. The unit `gf2_8_poly_mult_reducer` (40_poly_mult_reducer.md): `mul_gen`, the powers of the generator, and
the command MULG. -/

namespace Sys2Proof.Machine

/-- `mul_gen` under the modulus `m`, as 40_poly_mult_reducer.md R80 writes it: `t` is `a` shifted left in nine bits, and
where its bit 8 is set the modulus is XORed into it. -/
def mulGenAt (m : Modulus) (a : Byte) : Byte :=
  let t : BitVec 9 := a.setWidth 9 <<< 1
  (if t.getLsbD 8 then t ^^^ m else t).setWidth 8

/-- `mul_gen(a)` (40_poly_mult_reducer.md R80). -/
def mulGen (a : Byte) : Byte := mulGenAt Config.modulus a

/-- `gen_pow` under the modulus `m` (41_exp_table_generator.md R103). -/
def genPowAt (m : Modulus) : Nat → Byte
  | 0 => 0x01
  | n + 1 => mulGenAt m (genPowAt m n)

/-- `gen_pow(n)`, the n-th power of the generator (41_exp_table_generator.md R103). -/
def genPow (n : Nat) : Byte := genPowAt Config.modulus n

/-- MULG under the modulus `m`. -/
def execMulgAt (m : Modulus) (a : Byte) (s : State) : Result :=
  .next (respond .ok (mulGenAt m a) s)

/-- MULG: `respond(OK, mul_gen(a))`, in every phase and whatever `valid` is (40_poly_mult_reducer.md R82). -/
def execMulg (a : Byte) (s : State) : Result :=
  execMulgAt Config.modulus a s

end Sys2Proof.Machine
end

