-- ==== Sys2Proof/Machine/ExpGenerator.lean ====
section
/-! DEFINITION. The unit `exp_table_generator` (41_exp_table_generator.md): the command START and the EXP_GEN step. -/

namespace Sys2Proof.Machine

/-- What an accepted START writes beside the response (41_exp_table_generator.md R101): the entry state of EXP_GEN
(R102). -/
def beginGeneration (s : State) : State :=
  { s with
    phase := .expGen
    idx := 0
    cur := 0x01
    valid := false }

/-- START (41_exp_table_generator.md R101): NOTREADY with no other effect while a generation is in progress. -/
def execStart (s : State) : Result :=
  if s.phase = .idle then .next (respond .ok 0x00 (beginGeneration s))
  else .next (raise .notReady s)

/-- The EXP_GEN step (41_exp_table_generator.md R104): it reads the pre-edge state `pre` and writes into `post`. -/
def expGenStep (m : Modulus) (pre post : State) : Result :=
  match memWrite .exp pre.idx.toNat pre.cur post with
  | none => .fault (.noStorage .exp pre.idx.toNat)
  | some t =>
    if pre.idx = 254 then
      .next { t with cur := mulGenAt m pre.cur, phase := .logInit, idx := 0 }
    else
      .next { t with cur := mulGenAt m pre.cur, idx := pre.idx + 1 }

end Sys2Proof.Machine
end

