-- ==== Sys2Proof/Syntax.lean ====
section
/-! DEFINITION. The commands: one constructor of `Instr` for each row of the opcode table (30_encoding.md R63), and a
line of the assembler as it is written (R70). -/

namespace Sys2Proof

/-- The six commands (30_encoding.md R63). An operand is the whole field `cmd[7:0]`, an unsigned byte (R64). -/
inductive Instr where
  /-- No operation (43_table_access.md R140). -/
  | nop
  /-- Begin generating both tables (41_exp_table_generator.md R101). -/
  | start
  /-- Read the EXP entry of index `i` (43_table_access.md R141). -/
  | rdexp (i : Byte)
  /-- Read the LOG entry of the field element `b` (43_table_access.md R142). -/
  | rdlog (b : Byte)
  /-- Apply the reducer to the field element `a` (40_poly_mult_reducer.md R82). -/
  | mulg (a : Byte)
  /-- Read the status byte (43_table_access.md R143). -/
  | status
deriving DecidableEq, Repr

/-- The names of the commands (30_encoding.md R63). -/
inductive Mnemonic where
  | nop | start | rdexp | rdlog | mulg | status
deriving DecidableEq, Repr

/-- The name of a command. -/
def Instr.mnemonic : Instr → Mnemonic
  | .nop => .nop
  | .start => .start
  | .rdexp _ => .rdexp
  | .rdlog _ => .rdlog
  | .mulg _ => .mulg
  | .status => .status

/-- One command as a line of the assembler gives it: a mnemonic and, where the line has one, a number, which the
assembler has yet to check (30_encoding.md R70). -/
structure SourceLine where
  mnemonic : Mnemonic
  operand : Option Nat
deriving DecidableEq, Repr

end Sys2Proof
end

