-- ==== Sys2Proof/Machine/Dispatch.lean ====
section
/-! DEFINITION. One arm for each command: its effect on the pre-edge state, part (1) of the edge of 43_table_access.md
R150. -/

namespace Sys2Proof.Machine

/-- `exec(s, decode(cmd))` of 43_table_access.md R150, with the writes of an accepted START. -/
def exec (i : Instr) (s : State) : Host.Outcome State Fault Refusal :=
  match i with
  | .nop => Sys2Proof.Machine.execNop s
  | .start => Sys2Proof.Machine.execStart s
  | .rdexp i' => Sys2Proof.Machine.execRdexp i' s
  | .rdlog b => Sys2Proof.Machine.execRdlog b s
  | .mulg a => Sys2Proof.Machine.execMulg a s
  | .status => Sys2Proof.Machine.execStatus s

end Sys2Proof.Machine
end

