-- ==== Sys2Proof/WellFormed.lean ====
section
/-! DEFINITION. What is well formed. A value of `Instr` always is: its operand is exactly the eight bits of the field, and
every value of the field is an operand (30_encoding.md R64; RDEXP 255 is encodable and answers BAD_INDEX). What can be ill
formed is a line of the assembler (R70) and a command word (R63, R68); the decoder refuses the latter by name. -/

namespace Sys2Proof

/-- Does this command take an operand (30_encoding.md R63, R70)? -/
def Mnemonic.takesOperand : Mnemonic → Bool
  | .nop => false
  | .start => false
  | .rdexp => true
  | .rdlog => true
  | .mulg => true
  | .status => false

/-- "The assembler refuses an operand outside 0..255, and refuses an operand on NOP, START or STATUS" (30_encoding.md
R70). A command that takes an operand has one in every form R70 gives it. -/
def SourceLine.wellFormed (l : SourceLine) : Bool :=
  match l.mnemonic.takesOperand, l.operand with
  | true, some n => decide (n ≤ 255)
  | true, none => false
  | false, some _ => false
  | false, none => true

/-- A row of the opcode map: a word selects it when `(cmd & mask) == match` (30_encoding.md R63). -/
structure OpcodeRow where
  mnemonic : Mnemonic
  matchBits : CmdWord
  mask : CmdWord
deriving DecidableEq, Repr

/-- Does a word select this row (30_encoding.md R63)? -/
def OpcodeRow.selects (r : OpcodeRow) (w : CmdWord) : Bool :=
  w &&& r.mask == r.matchBits

/-- The opcode map (30_encoding.md R63, opcode_table.json). -/
def opcodeTable : List OpcodeRow :=
  [ ⟨.nop, 0x0000, 0xFFFF⟩,
    ⟨.start, 0x1000, 0xFFFF⟩,
    ⟨.rdexp, 0x2000, 0xFF00⟩,
    ⟨.rdlog, 0x3000, 0xFF00⟩,
    ⟨.mulg, 0x4000, 0xFF00⟩,
    ⟨.status, 0x5000, 0xFFFF⟩ ]

/-- A word is legal when it selects a row of the opcode map (30_encoding.md R63, R68). -/
def legalWord (w : CmdWord) : Bool :=
  opcodeTable.any fun r => r.selects w

end Sys2Proof
end

