-- ==== Sys2Proof/Decode.lean ====
section
/-! DEFINITION. Format C: its fields, the decoder (30_encoding.md R65), total on every 16-bit word, and the encoder
(R70). -/

namespace Sys2Proof

/-- `op = cmd[15:12]` (30_encoding.md R62). -/
def opField (w : CmdWord) : BitVec 4 := w.extractLsb' 12 4

/-- `rsv = cmd[11:8]` (30_encoding.md R62). -/
def rsvField (w : CmdWord) : BitVec 4 := w.extractLsb' 8 4

/-- `opnd = cmd[7:0]` (30_encoding.md R62). -/
def opndField (w : CmdWord) : Byte := w.extractLsb' 0 8

/-- A word of format C from its three fields (30_encoding.md R62). -/
def formatC (op rsv : BitVec 4) (opnd : Byte) : CmdWord := (op ++ rsv) ++ opnd

/-- Why a word is no command (30_encoding.md R68, 60_exceptions.md R161). The hardware answers the same for each. -/
inductive IllegalReason where
  /-- `cmd[11:8] != 0`. -/
  | reservedField
  /-- `cmd[15:12]` in 4'h6..4'hF. -/
  | reservedOpcode
  /-- NOP, START or STATUS with `cmd[7:0] != 0`. -/
  | strayOperand
deriving DecidableEq, Repr

/-- What the decoder answers: a command, or ILLEGAL_WORD with its reason (30_encoding.md R65). -/
inductive Decoded where
  | command (i : Instr)
  | illegalWord (why : IllegalReason)
deriving DecidableEq, Repr

/-- A command without an operand: `opnd` must be 8'h00 (30_encoding.md R63, R65). -/
def decodeBare (i : Instr) (opnd : Byte) : Decoded :=
  if opnd = 0 then .command i else .illegalWord .strayOperand

/-- The decode function of 30_encoding.md R65. It reads no state. -/
def decode (w : CmdWord) : Decoded :=
  if rsvField w = 0 then
    match (opField w).toNat with
    | 0 => decodeBare .nop (opndField w)
    | 1 => decodeBare .start (opndField w)
    | 2 => .command (.rdexp (opndField w))
    | 3 => .command (.rdlog (opndField w))
    | 4 => .command (.mulg (opndField w))
    | 5 => decodeBare .status (opndField w)
    | _ => .illegalWord .reservedOpcode
  else .illegalWord .reservedField

/-- The command a word decodes to, where it decodes to one. -/
def Decoded.instr? : Decoded → Option Instr
  | .command i => some i
  | .illegalWord _ => none

/-- `w` as a 16-bit command word, where a word of `nbits` bits can be one: every command is one 16-bit word
(30_encoding.md R69), and bits above `nbits` are 0. -/
def tableWord (nbits w : Nat) : Option CmdWord :=
  if nbits ≤ 16 then some (BitVec.ofNat 16 (w % 2 ^ nbits)) else none

/-- The command the decoder reads from a word numbered as opcode_table.json numbers it. -/
def decodeTableWord (nbits w : Nat) : Option Instr :=
  (tableWord nbits w).bind fun c => (decode c).instr?

/-- The opcode of a command (30_encoding.md R63). -/
def Instr.opcode : Instr → BitVec 4
  | .nop => 0x0
  | .start => 0x1
  | .rdexp _ => 0x2
  | .rdlog _ => 0x3
  | .mulg _ => 0x4
  | .status => 0x5

/-- The operand byte of a command, where it has one (30_encoding.md R62, R64). -/
def Instr.operand : Instr → Option Byte
  | .nop => none
  | .start => none
  | .rdexp i => some i
  | .rdlog b => some b
  | .mulg a => some a
  | .status => none

/-- The encoder: `(op, 4'b0000, n[7:0])` from the upper bits down (30_encoding.md R70). -/
def encode (i : Instr) : CmdWord :=
  formatC i.opcode 0 (i.operand.getD 0)

end Sys2Proof
end

