-- ==== Sys2Proof/Machine/LogInverter.lean ====
section
/-! DEFINITION. The unit `log_table_inverter` (42_log_table_inverter.md): the LOG_INIT step and the LOG_INV step. Each
reads the pre-edge state `pre` and writes into `post`. -/

namespace Sys2Proof.Machine

/-- `idx[7:0]` (42_log_table_inverter.md R123, R127). -/
def idxByte (i : Idx) : Byte := i.setWidth 8

/-- The LOG_INIT step (42_log_table_inverter.md R123). -/
def logInitStep (pre post : State) : Result :=
  match memWrite .log (idxByte pre.idx).toNat Config.sentinel post with
  | none => .fault (.noStorage .log (idxByte pre.idx).toNat)
  | some t =>
    if pre.idx = 255 then .next { t with phase := .logInv, idx := 0 }
    else .next { t with idx := pre.idx + 1 }

/-- The LOG_INV step (42_log_table_inverter.md R127); its last edge completes the generation (R128). -/
def logInvStep (pre post : State) : Result :=
  match memRead .exp pre.idx.toNat pre with
  | none => .fault (.noStorage .exp pre.idx.toNat)
  | some e =>
    match memWrite .log e.toNat (idxByte pre.idx) post with
    | none => .fault (.noStorage .log e.toNat)
    | some t =>
      if pre.idx = 254 then .next { t with phase := .idle, idx := 0, valid := true }
      else .next { t with idx := pre.idx + 1 }

end Sys2Proof.Machine
end

