-- ==== Sys2Proof/Machine/Edge.lean ====
section
/-! DEFINITION. One rising edge of the clock (43_table_access.md R150): the reset edge, the command against the pre-edge
state, the sequencer against the pre-edge state; and several edges in a row. `run` is the meaning of a command and `m` the
modulus, so that the same edge serves the other reading of 90_conflicts.md C1. -/

namespace Sys2Proof.Machine

/-- The reachable-state invariant of 10_state.md R33, under the modulus `m`. -/
def reachableAt (m : Modulus) (s : State) : Bool :=
  (match s.phase with
    | .idle => decide (s.idx = 0)
    | .expGen => decide (s.idx.toNat ≤ 254) && decide (s.cur = genPowAt m s.idx.toNat)
    | .logInit => decide (s.idx.toNat ≤ 255)
    | .logInv => decide (s.idx.toNat ≤ 254))
  && (!s.valid || decide (s.phase = .idle))

/-- The reachable-state invariant of 10_state.md R33. -/
def reachable (s : State) : Bool := reachableAt Config.modulus s

/-- Part (1) of an edge without reset: the command presented, if one is (43_table_access.md R150; 30_encoding.md R61,
R67). A word that is no command raises ILLEGAL (60_exceptions.md R161). -/
def commandPart (run : Instr → State → Result) (s : State) : Result :=
  if s.portIn.cmdValid then
    match decode s.portIn.cmd with
    | .command i => run i s
    | .illegalWord _ => .next (raise .illegal s)
  else .next (noResponse s)

/-- Part (2) of an edge without reset: the sequencer, which reads the pre-edge state `pre` and writes into `post`
(43_table_access.md R150, R151). -/
def sequencerPart (m : Modulus) (pre post : State) : Result :=
  match pre.phase with
  | .idle => .next post
  | .expGen => expGenStep m pre post
  | .logInit => logInitStep pre post
  | .logInv => logInvStep pre post

/-- One clock edge (43_table_access.md R150). A reset edge is taken from every state (70_reset_and_hazards.md R180,
R182); any other edge from a state outside R33 is refused (log 5). -/
def clockEdge (run : Instr → State → Result) (m : Modulus) (s : State) : Result :=
  if s.portIn.rst then .next (resetEdge s).shiftInputs
  else if reachableAt m s then
    andThen (commandPart run s) fun s1 =>
      andThen (sequencerPart m s s1) fun s2 =>
        .next s2.shiftInputs
  else .refused .outsideInvariant

/-- `n` edges in a row, each one `edge`; a stop ends them. -/
def edges (edge : State → Result) : Nat → State → Result
  | 0, s => .next s
  | n + 1, s => andThen (edge s) (edges edge n)

/-- Store the word `w` where the next edge samples its command: on `cmd`, with `cmd_valid` = 1 and `rst` = 0. -/
def presentNext (w : CmdWord) (s : State) : State :=
  { s with inputs := PortIn.present w :: s.inputs.tail }

end Sys2Proof.Machine
end

