-- ==== Sys2Proof/Machine/Step.lean ====
section
/-! DEFINITION. The step: one rising edge of the clock (43_table_access.md R150, 00_scope.md R10). -/

namespace Sys2Proof.Machine

/-- One clock edge of the hardware, under its own modulus. -/
def step (s : State) : Host.Outcome State Fault Refusal :=
  clockEdge exec Config.modulus s

/-- The state with the command word of an opcode-table row on the command port at the next edge (log 3). A word of more
than 16 bits is no command (30_encoding.md R69): its low 16 bits are presented. -/
def State.withFetchWord (s : State) (nbits w : Nat) : State :=
  presentNext (BitVec.ofNat 16 (w % 2 ^ nbits)) s

end Sys2Proof.Machine
end

