-- ==== Sys2Proof/Machine/Assembler.lean ====
section
/-! DEFINITION. The assembler's textual syntax (30_encoding.md R70), on lists of characters: one command a line,
mnemonics in any case, a number in decimal or with the prefix `0x` in hexadecimal, `;` before a comment, and `-` for an
edge without a command. What R70 does not say (which characters are blank, the case of hexadecimal digits, a line without a
command) is log 12's. -/

namespace Sys2Proof.Machine

/-- Why the assembler refuses a line. -/
inductive AsmError where
  /-- The first word is no mnemonic. -/
  | unknownMnemonic
  /-- The operand is no number. -/
  | badNumber
  /-- More than one word stands after the mnemonic. -/
  | extraText
  /-- An operand is missing, stands on NOP, START or STATUS, or lies outside 0..255 (R70). -/
  | illFormed
deriving DecidableEq, Repr

/-- What a line of a program stands for. -/
inductive AsmLine where
  /-- Nothing, blanks or a comment only. R70 does not say that such a line is allowed (DESIGN CHOICE, log 12). -/
  | blank
  /-- `-`: the host presents no command. -/
  | idleEdge
  /-- A command. -/
  | command (i : Instr)
  | refused (why : AsmError)
deriving DecidableEq, Repr

/-- A blank between words. -/
def isBlank (c : Char) : Bool := c = ' ' || c = '\t' || c = '\r'

/-- A letter as a capital; every other character as it is. -/
def toCapital (c : Char) : Char :=
  if 'a' ≤ c ∧ c ≤ 'z' then Char.ofNat (c.toNat - 32) else c

/-- The text before the comment. -/
def beforeComment (l : List Char) : List Char := l.takeWhile fun c => c ≠ ';'

/-- The words of a text, `w` being the one under way. -/
def wordsFrom : List Char → List Char → List (List Char)
  | w, [] => if w = [] then [] else [w]
  | w, c :: rest =>
    if isBlank c then (if w = [] then wordsFrom [] rest else w :: wordsFrom [] rest)
    else wordsFrom (w ++ [c]) rest

/-- The value of a digit in base 10 or 16. -/
def digitValue (base : Nat) (c : Char) : Option Nat :=
  let v : Option Nat :=
    if '0' ≤ c ∧ c ≤ '9' then some (c.toNat - 48)
    else if 'A' ≤ toCapital c ∧ toCapital c ≤ 'F' then some ((toCapital c).toNat - 55)
    else none
  match v with
  | some d => if d < base then some d else none
  | none => none

/-- The value of digits read from the left, `acc` being that of those before them. -/
def digitsValue (base : Nat) : Nat → List Char → Option Nat
  | acc, [] => some acc
  | acc, c :: rest =>
    match digitValue base c with
    | some d => digitsValue base (acc * base + d) rest
    | none => none

/-- A number: `0x` and hexadecimal digits, or decimal digits (R70). -/
def numberValue : List Char → Option Nat
  | [] => none
  | '0' :: 'x' :: c :: rest => digitsValue 16 0 (c :: rest)
  | c :: rest => digitsValue 10 0 (c :: rest)

/-- The mnemonic a word spells, in any case (R70). -/
def mnemonicOf (w : List Char) : Option Mnemonic :=
  let w := w.map toCapital
  if w = ['N', 'O', 'P'] then some .nop
  else if w = ['S', 'T', 'A', 'R', 'T'] then some .start
  else if w = ['R', 'D', 'E', 'X', 'P'] then some .rdexp
  else if w = ['R', 'D', 'L', 'O', 'G'] then some .rdlog
  else if w = ['M', 'U', 'L', 'G'] then some .mulg
  else if w = ['S', 'T', 'A', 'T', 'U', 'S'] then some .status
  else none

/-- The command of a mnemonic, with the operand byte `o` where it takes one. -/
def instrOf : Mnemonic → Byte → Instr
  | .nop, _ => .nop
  | .start, _ => .start
  | .rdexp, o => .rdexp o
  | .rdlog, o => .rdlog o
  | .mulg, o => .mulg o
  | .status, _ => .status

/-- The command of a well-formed source line; an ill-formed one is refused (R70). -/
def assembleSource (l : SourceLine) : AsmLine :=
  if l.wellFormed then .command (instrOf l.mnemonic (BitVec.ofNat 8 (l.operand.getD 0)))
  else .refused .illFormed

/-- The line whose mnemonic is `m` and whose operand, where it has one, is the word `n`. -/
def assembleWords (m : List Char) (n : Option (List Char)) : AsmLine :=
  match mnemonicOf m with
  | none => .refused .unknownMnemonic
  | some mn =>
    match n with
    | none => assembleSource ⟨mn, none⟩
    | some t =>
      match numberValue t with
      | some v => assembleSource ⟨mn, some v⟩
      | none => .refused .badNumber

/-- One line of a program (R70). DESIGN CHOICE: a line that is empty or holds blanks or a comment only is accepted as
`blank`; R70 does not say whether it is allowed (log 12). -/
def assembleLine (l : List Char) : AsmLine :=
  match wordsFrom [] (beforeComment l) with
  | [] => .blank
  | [['-']] => .idleEdge
  | [m] => assembleWords m none
  | [m, n] => assembleWords m (some n)
  | _ => .refused .extraText

/-- What the host drives for the lines of a program, one edge a command, or none where a line is refused. DESIGN CHOICE:
a blank line gives no edge, and one refused line refuses the program (log 12). -/
def assemble : List (List Char) → Option (List PortIn)
  | [] => some []
  | l :: rest =>
    match assembleLine l, assemble rest with
    | .blank, some t => some t
    | .idleEdge, some t => some (PortIn.quiet :: t)
    | .command i, some t => some (PortIn.present (encode i) :: t)
    | .refused _, _ => none
    | _, none => none

end Sys2Proof.Machine
end

