-- ==== Sys2Proof/Machine/RunEnd.lean ====
section
/-! DEFINITION. The end of a run and the end of a host program (70_reset_and_hazards.md R190), read off the edges that
happened. Edges are numbered from 1, as in 95_test_vectors.md; what R190's "last" ranges over is log 19, and what
these functions answer of edges R190 says nothing about is log 20. -/

namespace Sys2Proof.Machine

/-- One edge that happened: the state it was taken from, with what the host drove, and the state after it. -/
structure EdgeRecord where
  before : State
  after : State
deriving DecidableEq, Repr

/-- `n` edges in a row, each one `edge`, as records, edge 1 first; none where one of them stops. -/
def trace (edge : State → Result) : Nat → State → Option (List EdgeRecord)
  | 0, _ => some []
  | n + 1, s =>
    match edge s with
    | .next t => (trace edge n t).map (⟨s, t⟩ :: ·)
    | .fault _ => none
    | .refused _ => none

/-! ## What happened at an edge -/

/-- A command was accepted at the edge (30_encoding.md R61). -/
def EdgeRecord.acceptsCommand (r : EdgeRecord) : Bool :=
  !r.before.portIn.rst && r.before.portIn.cmdValid

/-- The edge is an "accepted START that returned OK" (R190): START was accepted (R61, R65) and its response is OK. -/
def EdgeRecord.startsRun (r : EdgeRecord) : Bool :=
  r.acceptsCommand && decide (decode r.before.portIn.cmd = .command .start) && decide (r.after.rspStatus = .ok)

/-- "`valid` = 1 and `phase` = IDLE" (R190), in one state. -/
def State.generationComplete (s : State) : Bool := s.valid && decide (s.phase = .idle)

/-- The edge is one "after which `valid` = 1 and `phase` = IDLE" (R190). -/
def EdgeRecord.completes (r : EdgeRecord) : Bool := r.after.generationComplete

/-! ## The first and the last edge of a kind -/

/-- The number of the first edge of which `p` holds. -/
def firstEdgeWith (p : EdgeRecord → Bool) : List EdgeRecord → Option Nat
  | [] => none
  | r :: rest => if p r then some 1 else (firstEdgeWith p rest).map (· + 1)

/-- The number of the last edge of which `p` holds. -/
def lastEdgeWith (p : EdgeRecord → Bool) : List EdgeRecord → Option Nat
  | [] => none
  | r :: rest =>
    match lastEdgeWith p rest with
    | some n => some (n + 1)
    | none => if p r then some 1 else none

/-- The record of edge `n`, where there is one. -/
def edgeAt (es : List EdgeRecord) (n : Nat) : Option EdgeRecord :=
  match n with
  | 0 => none
  | k + 1 => es[k]?

/-! ## The end of a run -/

/-- The edge at which the run ends: "the first edge after which `valid` = 1 and `phase` = IDLE, counting from the last
accepted START that returned OK" (R190). None where no such START or no such edge has come: a run that a reset aborts has
no end (R181; log 19). DESIGN CHOICE: R190 does "not say anything about runs that begin without a reset edge", and R182
makes no claim about them; the function asks for no reset edge, so such edges get an end all the same (unsafe, log 20). -/
def runEnd (es : List EdgeRecord) : Option Nat :=
  match lastEdgeWith EdgeRecord.startsRun es with
  | some t0 => (firstEdgeWith EdgeRecord.completes (es.drop t0)).map (t0 + ·)
  | none => none

/-- The EXP table a state holds, entry 0 first. -/
def State.expTable (s : State) : List Byte := (List.range Config.expLen).map fun k => entry .exp k s

/-- The LOG table a state holds, entry 0 first. -/
def State.logTable (s : State) : List Byte := (List.range Config.logLen).map fun k => entry .log k s

/-- The contents of both tables, the observation of a run (R190). -/
structure TableContents where
  exp : List Byte
  log : List Byte
deriving DecidableEq, Repr

/-- What a state's tables hold. -/
def State.tableContents (s : State) : TableContents := ⟨s.expTable, s.logTable⟩

/-- The observation of a run: "the contents of `exp_mem` and `log_mem`" after the edge at which it ends (R190). -/
def runObservation (es : List EdgeRecord) : Option TableContents :=
  match runEnd es with
  | some n => (edgeAt es n).map fun r => r.after.tableContents
  | none => none

/-! ## The end of a host program -/

/-- The edge at which the response of a host program's last command is sampled, after which the program has ended (R190):
the edge after the one that accepted it (70_reset_and_hazards.md R187). A command a reset drops has no response (R180).
None where no command was accepted. As with `runEnd`, no reset edge is asked for (DESIGN CHOICE, unsafe, log 20). -/
def programEnd (es : List EdgeRecord) : Option Nat :=
  (lastEdgeWith EdgeRecord.acceptsCommand es).map (· + 1)

/-- What the host samples at the edge `programEnd`: the outputs between the last accepting edge and the next (R187). -/
def lastSample (es : List EdgeRecord) : Option PortOut :=
  match lastEdgeWith EdgeRecord.acceptsCommand es with
  | some n => (edgeAt es n).map fun r => r.after.outputs
  | none => none

end Sys2Proof.Machine
end

