-- ==== Sys2Proof/Machine/HostProgram.lean ====
section
/-! DEFINITION. What a host program does with the ports: the macro WAITDONE (30_encoding.md R71), a program of edges and
WAITDONEs (95_test_vectors.md section 5), and the boot sequence (70_reset_and_hazards.md R183). -/

namespace Sys2Proof.Machine

/-- `WAITDONE := repeat (STATUS) until rsp_data[0] == 1` (30_encoding.md R71): one STATUS at an edge, at most `n` of them.
It answers the state after the edge whose response has bit 0 set, or none where no such response has come (or a step
stopped). Without a bound the macro may never end (R71; log 13). -/
def waitDone : Nat → State → Option State
  | 0, _ => none
  | n + 1, s =>
    match step (s.drive (PortIn.present (encode .status))) with
    | .next t => if t.rspData.getLsbD 0 then some t else waitDone n t
    | .fault _ => none
    | .refused _ => none

/-- The edges of a WAITDONE, as records (`waitDone` answers the state after the last of them). -/
def waitDoneTrace : Nat → State → Option (List EdgeRecord)
  | 0, _ => none
  | n + 1, s =>
    let pre := s.drive (PortIn.present (encode .status))
    match step pre with
    | .next t => if t.rspData.getLsbD 0 then some [⟨pre, t⟩] else (waitDoneTrace n t).map (⟨pre, t⟩ :: ·)
    | .fault _ => none
    | .refused _ => none

/-- One thing a host program does (95_test_vectors.md section 5; 30_encoding.md R71, R72). -/
inductive HostAction where
  /-- The host drives `d` at one edge. -/
  | drive (d : PortIn)
  /-- The macro WAITDONE. -/
  | waitDone
deriving DecidableEq, Repr

/-- The edges of one action from a state, at most `bound` of them for a WAITDONE (log 13). -/
def playAction (bound : Nat) (a : HostAction) (s : State) : Option (List EdgeRecord) :=
  match a with
  | .drive d => trace step 1 (s.drive d)
  | .waitDone => waitDoneTrace bound s

/-- The state after the last of some edges that began in `s`. -/
def stateAfter (s : State) (es : List EdgeRecord) : State :=
  match es.getLast? with
  | some r => r.after
  | none => s

/-- The edges of a host program from a state, each WAITDONE bounded by `bound`; none where a WAITDONE does not end within
its bound or a step stops. -/
def playProgram (bound : Nat) : List HostAction → State → Option (List EdgeRecord)
  | [], _ => some []
  | a :: rest, s =>
    match playAction bound a s with
    | some es => (playProgram bound rest (stateAfter s es)).map (es ++ ·)
    | none => none

/-- The host drives `ds` at the coming edges and nothing after them. -/
def State.withInputs (s : State) (ds : List PortIn) : State :=
  { s with inputs := ds }

/-- Steps 1 and 2 of the boot sequence (70_reset_and_hazards.md R183): a reset edge, then START. -/
def bootInputs : List PortIn := [PortIn.reset, PortIn.present (encode .start)]

/-- Steps 1 to 3 of the boot sequence (70_reset_and_hazards.md R183): a reset edge, START, and STATUS until bit 0 is set. -/
def bootProgram : List HostAction := [.drive PortIn.reset, .drive (PortIn.present (encode .start)), .waitDone]

end Sys2Proof.Machine
end

