-- ==== Sys2Proof/Machine/Oracle.lean ====
section
/-! DEFINITION. The test oracles of the spec, none of them an operation of the hardware (40_poly_mult_reducer.md R84, R85;
92_eei_decisions.md D21), and the source's own two loops (41_exp_table_generator.md R100, R107; 42_log_table_inverter.md
R120, R132). -/

namespace Sys2Proof.Machine

/-- The carry-less product in fifteen bits (40_poly_mult_reducer.md R84, first loop). -/
def carrylessProduct (a b : Byte) : BitVec 15 :=
  (List.range 8).foldl (fun p k => if b.getLsbD k then p ^^^ (a.setWidth 15 <<< k) else p) 0

/-- The reduction of a fifteen-bit product, from bit 14 down to bit 8 (40_poly_mult_reducer.md R84, second loop). -/
def reduceProduct (m : Modulus) (p : BitVec 15) : BitVec 15 :=
  [14, 13, 12, 11, 10, 9, 8].foldl
    (fun p k => if p.getLsbD k then p ^^^ (m.setWidth 15 <<< (k - 8)) else p) p

/-- `gf_mul_ref` under the modulus `m` (40_poly_mult_reducer.md R84). -/
def gfMulRefAt (m : Modulus) (a b : Byte) : Byte :=
  (reduceProduct m (carrylessProduct a b)).setWidth 8

/-- `gf_mul_ref(a, b)` (40_poly_mult_reducer.md R84). -/
def gfMulRef (a b : Byte) : Byte := gfMulRefAt Config.modulus a b

/-- The consumer's `multiply(a,b)` over the tables a state holds (40_poly_mult_reducer.md R85). -/
def tableMultiply (s : State) (a b : Byte) : Byte :=
  if a = 0 ∨ b = 0 then 0
  else entry .exp (((entry .log a.toNat s).toNat + (entry .log b.toNat s).toNat) % 255) s

/-- The consumer's `divide(a,b)` over the tables a state holds (40_poly_mult_reducer.md R85). `divide(a, 0)` is outside
the formula's domain and has no value (93_implementation_defined.md row 6; log 16). -/
def tableDivide (s : State) (a b : Byte) : Option Byte :=
  if b = 0 then none
  else if a = 0 then some 0
  else some (entry .exp (((entry .log a.toNat s).toNat + 255 - (entry .log b.toNat s).toNat) % 255) s)

/-- The source's loop for EXP: EXP[0] = 1, then 254 times the reducer step on the last element
(41_exp_table_generator.md R100, R107). -/
def sourceExp (m : Modulus) : List Byte :=
  (List.range 254).foldl (fun t _ => t ++ [mulGenAt m (t.getLastD 0x01)]) [0x01]

/-- The source's loop for LOG: 256 entries all 255, then LOG[EXP[i]] = i in ascending i (42_log_table_inverter.md R120,
R132). -/
def sourceLog (exp : List Byte) : List Byte :=
  exp.zipIdx.foldl (fun t p => t.set p.1.toNat (BitVec.ofNat 8 p.2)) (List.replicate 256 Config.sentinel)

/-- LOG entry `b` after the first `n` LOG_INV writes: the last `j < n` with `gen_pow(j) = b`, or the sentinel
(42_log_table_inverter.md R124, R126, R127). -/
def logAfterAt (m : Modulus) : Nat → Byte → Byte
  | 0, _ => Config.sentinel
  | n + 1, b => if genPowAt m n = b then BitVec.ofNat 8 n else logAfterAt m n b

end Sys2Proof.Machine
end

