-- ==== Sys2Proof/Machine/OtherModulus.lean ====
section
/-! DEFINITION. The same machine under any modulus, so that the other reading of 90_conflicts.md C1 can be instantiated
(92_eei_decisions.md, "Parameters left OPEN"; log 7). Only MULG and the EXP_GEN step use the modulus. -/

namespace Sys2Proof.Machine

/-- The commands under the modulus `m`. -/
def execAt (m : Modulus) (i : Instr) (s : State) : Result :=
  match i with
  | .nop => execNop s
  | .start => execStart s
  | .rdexp i' => execRdexp i' s
  | .rdlog b => execRdlog b s
  | .mulg a => execMulgAt m a s
  | .status => execStatus s

/-- One clock edge under the modulus `m`. -/
def stepAt (m : Modulus) (s : State) : Result :=
  clockEdge (execAt m) m s

end Sys2Proof.Machine
end

