-- ==== Sys2Proof/Safety.lean ====
section
/-! DEFINITION. The terms claims use: what the host gets back from an edge, the conditions on a schedule of inputs, and
the machine's invariant. -/

namespace Sys2Proof.Machine

/-- What the host gets back from an edge (60_exceptions.md R160): nothing, the result of a command, or an error. A
non-OK status is an error outcome and never data (70_reset_and_hazards.md R184; 92_eei_decisions.md D7; log 6). -/
inductive HostResult where
  | noResponse
  | data (b : Byte)
  | error (status : Status)
deriving DecidableEq, Repr

/-- The response registers as what the host gets back. -/
def State.hostResult (s : State) : HostResult :=
  if s.rspValid then
    if s.rspStatus = .ok then .data s.rspData else .error s.rspStatus
  else .noResponse

/-- The host may read the contents `o` of the tables at the next edge (70_reset_and_hazards.md R190): RDEXP of every index
that exists and RDLOG of every index answer `o`'s entry as data. -/
def State.delivers (o : TableContents) (s : State) : Prop :=
  (∀ i : Byte, i ≠ 255 → ∃ t v, step (s.drive (PortIn.present (encode (.rdexp i)))) = .next t ∧
    t.hostResult = .data v ∧ o.exp[i.toNat]? = some v) ∧
  (∀ b : Byte, ∃ t v, step (s.drive (PortIn.present (encode (.rdlog b)))) = .next t ∧
    t.hostResult = .data v ∧ o.log[b.toNat]? = some v)

/-- No reset at any of the next `n` edges. -/
def State.noResetFor (s : State) (n : Nat) : Prop :=
  ∀ d ∈ s.inputs.take n, d.rst = false

/-- No START word is accepted and no reset happens at any of the next `n` edges. -/
def State.undisturbedFor (s : State) (n : Nat) : Prop :=
  ∀ d ∈ s.inputs.take n, d.rst = false ∧ (d.cmdValid = true → d.cmd ≠ encode .start)

/-- The next edge is one without reset. -/
def State.noResetNext (s : State) : Prop := s.portIn.rst = false

/-- The next edge accepts the command word `w` (30_encoding.md R61). -/
def State.accepts (s : State) (w : CmdWord) : Prop :=
  s.portIn.rst = false ∧ s.portIn.cmdValid = true ∧ s.portIn.cmd = w

/-- The state with a response in its response registers and nothing else changed (10_state.md R26). -/
def State.responding (s : State) (status : Status) (data : Byte) : State :=
  { s with
    rspValid := true
    rspStatus := status
    rspData := data }

/-- Two states that differ in the response registers at most. -/
def State.agreeButResponse (s t : State) : Prop :=
  s.phase = t.phase ∧ s.idx = t.idx ∧ s.cur = t.cur ∧ s.valid = t.valid ∧
    s.expMem = t.expMem ∧ s.logMem = t.logMem ∧ s.inputs = t.inputs

/-- The same state with a host that drives nothing at the next edge. -/
def State.quietNext (s : State) : State :=
  { s with inputs := PortIn.quiet :: s.inputs.tail }

/-- The clauses of 10_state.md R33, one by one. -/
structure ReachableShape (s : State) : Prop where
  idle : s.phase = .idle → s.idx = 0
  expGen : s.phase = .expGen → s.idx.toNat ≤ 254 ∧ s.cur = genPow s.idx.toNat
  logInit : s.phase = .logInit → s.idx.toNat ≤ 255
  logInv : s.phase = .logInv → s.idx.toNat ≤ 254
  valid : s.valid = true → s.phase = .idle

/-- The sequencer's position (10_state.md R29): 0 in IDLE, then 1..255 in EXP_GEN, 256..511 in LOG_INIT, 512..766 in
LOG_INV. -/
def State.position (s : State) : Nat :=
  match s.phase with
  | .idle => 0
  | .expGen => 1 + s.idx.toNat
  | .logInit => 256 + s.idx.toNat
  | .logInv => 512 + s.idx.toNat

/-- The table entry an edge without reset writes, where it writes one: the entry the sequencer step of the pre-edge phase
stores to (41_exp_table_generator.md R104, 42_log_table_inverter.md R123, R127). -/
def State.writtenEntry (s : State) : Option (Space × Nat) :=
  match s.phase with
  | .idle => none
  | .expGen => some (.exp, s.idx.toNat)
  | .logInit => some (.log, (idxByte s.idx).toNat)
  | .logInv => some (.log, (entry .exp s.idx.toNat s).toNat)

/-- Both tables hold the complete contents generated under `m`: EXP the powers of the generator, LOG what the 255
inversion writes leave (10_state.md R23; 41_exp_table_generator.md R105; 42_log_table_inverter.md R126, R127). -/
def State.tablesComplete (m : Modulus) (s : State) : Prop :=
  (∀ k, k < 255 → entry .exp k s = genPowAt m k) ∧
    ∀ b : Byte, entry .log b.toNat s = logAfterAt m 255 b

/-- A state that is idle, inside R33, and about to accept START, with no reset at that edge nor at the `n` after it. -/
structure StartsGeneration (m : Modulus) (n : Nat) (s : State) : Prop where
  idle : s.phase = .idle
  reachable : reachableAt m s = true
  start : s.accepts (encode .start)
  noReset : s.noResetFor (n + 1)

/-- The first cause that applies to a decoded word in a state, in the order ILLEGAL, NOTREADY, BAD_INDEX
(60_exceptions.md R161 to R164), or OK. -/
def firstCause (s : State) : Decoded → Status
  | .illegalWord _ => .illegal
  | .command .start => if s.phase = .idle then .ok else .notReady
  | .command (.rdexp o) => if s.valid = false then .notReady else if o = 255 then .badIndex else .ok
  | .command (.rdlog _) => if s.valid = false then .notReady else .ok
  | .command .nop => .ok
  | .command (.mulg _) => .ok
  | .command .status => .ok

/-- How many EXP entries of the current generation are written. -/
def State.expDone (s : State) : Nat :=
  match s.phase with
  | .idle => if s.valid then Config.expLen else 0
  | .expGen => s.idx.toNat
  | .logInit => Config.expLen
  | .logInv => Config.expLen

/-- The value the current generation has given a LOG entry so far, where it has given one. -/
def State.logDone (m : Modulus) (s : State) (b : Byte) : Option Byte :=
  match s.phase with
  | .idle => if s.valid then some (logAfterAt m Config.expLen b) else none
  | .expGen => none
  | .logInit => if b.toNat < s.idx.toNat then some Config.sentinel else none
  | .logInv => some (logAfterAt m s.idx.toNat b)

/-- What `cur` holds (10_state.md R22, 93_implementation_defined.md row 12): its last value outside EXP_GEN, which is
8'h01 after reset and `gen_pow(255)` after EXP_GEN. -/
def State.curExpected (m : Modulus) (s : State) : Byte :=
  match s.phase with
  | .idle => if s.valid then genPowAt m Config.expLen else 0x01
  | .expGen => genPowAt m s.idx.toNat
  | .logInit => genPowAt m Config.expLen
  | .logInv => genPowAt m Config.expLen

/-- The invariant of every state after a reset edge: R33, what `cur` holds, what the generation under way has written to
the two tables, the shape of the response registers, and the canonical form of the storage. -/
structure MachineInvariant (m : Modulus) (s : State) : Prop where
  /-- 10_state.md R33. -/
  reachable : reachableAt m s = true
  /-- 10_state.md R22. -/
  curHeld : s.cur = s.curExpected m
  /-- 41_exp_table_generator.md R103, R105; 10_state.md R23. -/
  expWritten : ∀ k, k < s.expDone → s.expMem.read k = some (genPowAt m k)
  /-- 42_log_table_inverter.md R124, R126, R127; 10_state.md R23. -/
  logWritten : ∀ b v, s.logDone m b = some v → s.logMem.read b.toNat = some v
  /-- 10_state.md R26, 30_encoding.md R66. -/
  errorHasNoData : s.rspStatus ≠ .ok → s.rspData = 0x00
  /-- 30_encoding.md R67. -/
  silentIsZero : s.rspValid = false → s.rspStatus = .ok ∧ s.rspData = 0x00
  /-- The canonical form of `exp_mem` (20_memory.md R40; log 9). -/
  expCanonical : Memory.wf Config.expLen s.expMem
  /-- The canonical form of `log_mem` (20_memory.md R41; log 9). -/
  logCanonical : Memory.wf Config.logLen s.logMem

end Sys2Proof.Machine
end

