-- ==== Sys2Proof/Certificates/Slice0/Obligations.lean ====
section
/-! DEFINITION. The statements for the provers. Each docstring names the rules of spec/ it rests on. -/

open Sys2Proof Sys2Proof.Machine

/-! ## Commands and their words -/

/-- 30_encoding.md R65: the decode function case by case over the three fields, and how many words are legal. -/
def Obligations.DecodeFollowsTheRule : Prop :=
  (∀ (op rsv : BitVec 4) (opnd : Byte),
    (rsv ≠ 0 → ∃ why, decode (formatC op rsv opnd) = .illegalWord why) ∧
    (rsv = 0 →
      (op = 0x0 → (opnd = 0 → decode (formatC op rsv opnd) = .command .nop) ∧
        (opnd ≠ 0 → ∃ why, decode (formatC op rsv opnd) = .illegalWord why)) ∧
      (op = 0x1 → (opnd = 0 → decode (formatC op rsv opnd) = .command .start) ∧
        (opnd ≠ 0 → ∃ why, decode (formatC op rsv opnd) = .illegalWord why)) ∧
      (op = 0x2 → decode (formatC op rsv opnd) = .command (.rdexp opnd)) ∧
      (op = 0x3 → decode (formatC op rsv opnd) = .command (.rdlog opnd)) ∧
      (op = 0x4 → decode (formatC op rsv opnd) = .command (.mulg opnd)) ∧
      (op = 0x5 → (opnd = 0 → decode (formatC op rsv opnd) = .command .status) ∧
        (opnd ≠ 0 → ∃ why, decode (formatC op rsv opnd) = .illegalWord why)) ∧
      (6 ≤ op.toNat → ∃ why, decode (formatC op rsv opnd) = .illegalWord why))) ∧
  (∀ w : CmdWord, formatC (opField w) (rsvField w) (opndField w) = w) ∧
  (∃ legal : List CmdWord, legal.Nodup ∧ legal.length = 771 ∧
    ∀ w, w ∈ legal ↔ ∃ i, decode w = .command i) ∧
  (∃ illegal : List CmdWord, illegal.Nodup ∧ illegal.length = 64765 ∧
    ∀ w, w ∈ illegal ↔ ∃ why, decode w = .illegalWord why)

/-- 30_encoding.md R63: a word selects a mnemonic when `(cmd & mask) == match`; the decoder reads that mnemonic and
nothing else; at most one row matches any word. -/
def Obligations.DecodeSelectsTheOpcodeRow : Prop :=
  opcodeTable = [⟨.nop, 0x0000, 0xFFFF⟩, ⟨.start, 0x1000, 0xFFFF⟩, ⟨.rdexp, 0x2000, 0xFF00⟩,
    ⟨.rdlog, 0x3000, 0xFF00⟩, ⟨.mulg, 0x4000, 0xFF00⟩, ⟨.status, 0x5000, 0xFFFF⟩] ∧
  (∀ r ∈ opcodeTable, ∀ w, r.selects w = true ↔ w &&& r.mask = r.matchBits) ∧
  (∀ w, ∀ r ∈ opcodeTable, r.selects w = true ↔ ∃ i, decode w = .command i ∧ i.mnemonic = r.mnemonic) ∧
  (∀ w i o, decode w = .command i → i.operand = some o → o = opndField w) ∧
  (∀ w, ∀ r ∈ opcodeTable, ∀ r' ∈ opcodeTable, r.selects w = true → r'.selects w = true → r = r')

/-- Decode and encode agree, both ways (30_encoding.md sections 2 and 5): every command is decoded from the word the
encoder writes, and a word that decodes to a command is that command's only word. -/
def Obligations.DecodeAndEncodeAgree : Prop :=
  (∀ i : Instr, decode (encode i) = .command i) ∧
  (∀ (w : CmdWord) (i : Instr), decode w = .command i → encode i = w) ∧
  (∀ i : Instr, decodeTableWord 16 (encode i).toNat = some i)

/-- Words of 95_test_vectors.md section 2.2, as written there. -/
def Obligations.SpecWordsDecode : Prop :=
  decode 0x0000 = .command .nop ∧ decode 0x1000 = .command .start ∧
  decode 0x2008 = .command (.rdexp 8) ∧ decode 0x20FF = .command (.rdexp 255) ∧
  decode 0x301D = .command (.rdlog 29) ∧ decode 0x4080 = .command (.mulg 0x80) ∧
  decode 0x5000 = .command .status ∧
  decode 0x0001 = .illegalWord .strayOperand ∧ decode 0x1001 = .illegalWord .strayOperand ∧
  decode 0x5001 = .illegalWord .strayOperand ∧ decode 0x0100 = .illegalWord .reservedField ∧
  decode 0x21FF = .illegalWord .reservedField ∧ decode 0x6000 = .illegalWord .reservedOpcode ∧
  decode 0xF0FF = .illegalWord .reservedOpcode

/-- The assembler (30_encoding.md section 5): a well-formed line becomes the command of its mnemonic with its operand and
is encoded as `(op, 4'b0000, n[7:0])`; every other line is refused, an operand outside 0..255 and an operand on NOP, START
or STATUS among them. -/
def Obligations.AssemblerKeepsTheOperand : Prop :=
  (∀ l : SourceLine, l.wellFormed = true → ∃ i, assembleSource l = .command i ∧ i.mnemonic = l.mnemonic ∧
    l.operand = i.operand.map BitVec.toNat ∧
    encode i = formatC i.opcode 0 (BitVec.ofNat 8 (l.operand.getD 0))) ∧
  (∀ l : SourceLine, l.wellFormed = false → assembleSource l = .refused .illFormed) ∧
  (∀ mn n, 255 < n → (SourceLine.mk mn (some n)).wellFormed = false) ∧
  (∀ n, (SourceLine.mk .nop (some n)).wellFormed = false ∧ (SourceLine.mk .start (some n)).wellFormed = false ∧
    (SourceLine.mk .status (some n)).wellFormed = false) ∧
  (∀ i : Instr, assembleSource ⟨i.mnemonic, i.operand.map BitVec.toNat⟩ = .command i)

/-! ## The step -/

/-- The step runs the decoded command (43_table_access.md section 2): at an edge without reset, from a state inside R33,
it is `exec` of the command, then the sequencer against the pre-edge state, then the next inputs move up. The list of
inputs is the model's own (log 1). -/
def Obligations.StepRunsTheDecodedCommand : Prop :=
  ∀ (s : State) (i : Instr), s.noResetNext → reachable s = true → s.portIn.cmdValid = true →
    decode s.portIn.cmd = .command i →
    step s = andThen (exec i s) fun s1 =>
      andThen (sequencerPart Config.modulus s s1) fun s2 => .next s2.shiftInputs

/-- The command that `withFetchWord` presents is the one the next step runs (log 3), and the step leaves what the host
drives after it. -/
def Obligations.PresentedWordIsRunNext : Prop :=
  ∀ (s : State) (i : Instr), s.phase = .idle → reachable s = true →
    ∃ t, exec i (s.withFetchWord 16 (encode i).toNat) = .next t ∧
      step (s.withFetchWord 16 (encode i).toNat) = .next t.shiftInputs ∧
      t.shiftInputs.inputs = s.inputs.tail

/-- No step ends in a fault; it is refused exactly outside R33, at an edge without reset (93_implementation_defined.md
section 1 row 5; 20_memory.md section 3). -/
def Obligations.StepStopsOnlyOutsideTheInvariant : Prop :=
  (∀ s f, step s ≠ .fault f) ∧
  (∀ s r, step s = .refused r ↔
    (r = .outsideInvariant ∧ s.portIn.rst = false ∧ ¬ ReachableShape s))

/-- Every command answers a next state, in every state (60_exceptions.md section 3, R169: every command is available at
every time). -/
def Obligations.EveryCommandAnswers : Prop :=
  ∀ (i : Instr) (s : State), ∃ t, exec i s = .next t ∧ t.rspValid = true

/-- 10_state.md R33: the clauses hold after a reset edge from any state, an edge from a state inside them keeps them, and
a state outside them is refused. -/
def Obligations.ReachableStatesStayInTheInvariant : Prop :=
  (∀ s : State, s.portIn.rst = true → ∃ t, step s = .next t ∧ ReachableShape t) ∧
  (∀ s t : State, ReachableShape s → step s = .next t → ReachableShape t) ∧
  (∀ s : State, s.noResetNext → ¬ ReachableShape s → step s = .refused .outsideInvariant) ∧
  (∀ s : State, ReachableShape s → ∃ t, step s = .next t)

/-! ## The commands -/

/-- 43_table_access.md R140. -/
def Obligations.NopOnlyResponds : Prop :=
  (∀ s, exec .nop s = .next (s.responding .ok 0x00)) ∧
  (∀ w : CmdWord, decode w = .command .nop ↔ w = 0x0000) ∧
  (∀ w : CmdWord, opField w = 0x0 → w ≠ 0x0000 → ∃ why, decode w = .illegalWord why) ∧
  (∀ s : State, reachable s = true → s.accepts 0x0000 →
    ∃ t u, step s = .next t ∧ step s.quietNext = .next u ∧ t.agreeButResponse u ∧
      t.rspValid = true ∧ t.rspStatus = .ok ∧ t.rspData = 0x00)

/-- 41_exp_table_generator.md section 2 (START): from IDLE it begins a generation, whatever `valid` is; while one is in
progress it answers NOTREADY and has no other effect, at the edge at which LOG_INV finishes too. -/
def Obligations.StartBeginsGeneration : Prop :=
  (∀ s, s.phase = .idle → exec .start s = .next
    { s with phase := .expGen, idx := 0, cur := 0x01, valid := false,
             rspValid := true, rspStatus := .ok, rspData := 0x00 }) ∧
  (∀ s, s.phase ≠ .idle → exec .start s = .next (s.responding .notReady 0x00)) ∧
  (∀ w : CmdWord, decode w = .command .start ↔ w = 0x1000) ∧
  (∀ w : CmdWord, opField w = 0x1 → w ≠ 0x1000 → ∃ why, decode w = .illegalWord why) ∧
  (∀ s, s.phase = .idle → reachable s = true → s.accepts 0x1000 →
    ∃ t, step s = .next t ∧ t.phase = .expGen ∧ t.idx = 0 ∧ t.cur = 0x01 ∧ t.valid = false ∧ t.busy = true ∧
      t.rspValid = true ∧ t.rspStatus = .ok ∧ t.rspData = 0x00 ∧ ∀ sp k, entry sp k t = entry sp k s) ∧
  (∀ s, s.phase = .logInv → s.idx = 254 → reachable s = true → s.accepts 0x1000 →
    ∃ t, step s = .next t ∧ t.phase = .idle ∧ t.valid = true ∧ t.rspStatus = .notReady ∧ t.rspData = 0x00)

/-- 43_table_access.md R141. The corner cases are those of a state whose tables are complete. -/
def Obligations.RdexpReadsTheEntry : Prop :=
  (∀ w : CmdWord, (∃ i, decode w = .command (.rdexp i)) ↔ w &&& 0xFF00 = 0x2000) ∧
  (∀ w i, decode w = .command (.rdexp i) → i = opndField w) ∧
  (∀ s i, s.valid = false → exec (.rdexp i) s = .next (s.responding .notReady 0x00)) ∧
  (∀ s, s.valid = true → exec (.rdexp 255) s = .next (s.responding .badIndex 0x00)) ∧
  (∀ s i, s.valid = true → i ≠ 255 → ∃ b, memRead .exp i.toNat s = some b ∧
    exec (.rdexp i) s = .next (s.responding .ok b)) ∧
  (∀ s, MachineInvariant Config.modulus s → s.valid = true →
    exec (.rdexp 0) s = .next (s.responding .ok 0x01) ∧
    exec (.rdexp 8) s = .next (s.responding .ok 0x1D) ∧
    exec (.rdexp 254) s = .next (s.responding .ok 0x8E))

/-- 43_table_access.md R142. The corner cases are those of a state whose tables are complete. -/
def Obligations.RdlogReadsTheEntry : Prop :=
  (∀ w : CmdWord, (∃ b, decode w = .command (.rdlog b)) ↔ w &&& 0xFF00 = 0x3000) ∧
  (∀ w b, decode w = .command (.rdlog b) → b = opndField w) ∧
  (∀ s b, s.valid = false → exec (.rdlog b) s = .next (s.responding .notReady 0x00)) ∧
  (∀ s b, s.valid = true → ∃ e, memRead .log b.toNat s = some e ∧
    exec (.rdlog b) s = .next (s.responding .ok e)) ∧
  (∀ s, MachineInvariant Config.modulus s → s.valid = true →
    exec (.rdlog 0) s = .next (s.responding .ok 0xFF) ∧
    exec (.rdlog 1) s = .next (s.responding .ok 0x00) ∧
    exec (.rdlog 0x8E) s = .next (s.responding .ok 0xFE) ∧
    exec (.rdlog 29) s = .next (s.responding .ok 0x08))

/-- 40_poly_mult_reducer.md R82. -/
def Obligations.MulgAppliesTheReducer : Prop :=
  (∀ w : CmdWord, (∃ a, decode w = .command (.mulg a)) ↔ w &&& 0xFF00 = 0x4000) ∧
  (∀ w a, decode w = .command (.mulg a) → a = opndField w) ∧
  (∀ w : CmdWord, opField w = 0x4 → rsvField w ≠ 0 → ∃ why, decode w = .illegalWord why) ∧
  (∀ s a, exec (.mulg a) s = .next (s.responding .ok (mulGen a))) ∧
  mulGen 0x00 = 0x00 ∧ mulGen 0x80 = 0x1D ∧ mulGen 0xFF = 0xE3 ∧ mulGen 0x8E = 0x01 ∧
  (∀ s : State, reachable s = true → s.accepts 0x4080 →
    ∃ t u, step s = .next t ∧ step s.quietNext = .next u ∧ t.agreeButResponse u ∧
      t.rspValid = true ∧ t.rspStatus = .ok ∧ t.rspData = 0x1D)

/-- 43_table_access.md R143 with the field layout of 10_state.md R31. -/
def Obligations.StatusReportsTheByte : Prop :=
  (∀ s, ∃ b : Byte, exec .status s = .next (s.responding .ok b) ∧
    b.extractLsb' 4 4 = 0 ∧ b.extractLsb' 2 2 = s.phase.code ∧
    (b.getLsbD 1 = true ↔ s.phase ≠ .idle) ∧ (b.getLsbD 0 = true ↔ s.valid = true)) ∧
  (∀ w : CmdWord, decode w = .command .status ↔ w = 0x5000) ∧
  (∀ w : CmdWord, opField w = 0x5 → w ≠ 0x5000 → ∃ why, decode w = .illegalWord why) ∧
  statusByte State.reset = 0x00 ∧
  (∀ s, ReachableShape s →
    (s.phase = .idle → s.valid = false → statusByte s = 0x00) ∧
    (s.phase = .expGen → statusByte s = 0x06) ∧
    (s.phase = .logInit → statusByte s = 0x0A) ∧
    (s.phase = .logInv → statusByte s = 0x0E) ∧
    (s.valid = true → statusByte s = 0x01)) ∧
  (∀ s, s.phase = .logInv → s.idx = 254 → reachable s = true → s.accepts 0x5000 →
    ∃ t, step s = .next t ∧ t.valid = true ∧ t.rspStatus = .ok ∧ t.rspData = 0x0E)

/-- The frame of every command (rules R82, R101, R140 to R143, "Flags written"): no table entry and no input changes; no
sequencer register changes but by a START from IDLE, which writes exactly `phase`, `idx`, `cur` and `valid`; the response
registers are the rest. -/
def Obligations.CommandsChangeOnlyWhatTheirRuleNames : Prop :=
  ∀ (i : Instr) (s t : State), exec i s = .next t →
    (∀ sp k, entry sp k t = entry sp k s) ∧ t.expMem = s.expMem ∧ t.logMem = s.logMem ∧ t.inputs = s.inputs ∧
    (¬ (i = .start ∧ s.phase = .idle) → t.phase = s.phase ∧ t.idx = s.idx ∧ t.cur = s.cur ∧ t.valid = s.valid) ∧
    (i = .start → s.phase = .idle → t.phase = .expGen ∧ t.idx = 0 ∧ t.cur = 0x01 ∧ t.valid = false)

/-- `cur` and `idx` are never readable by a command (10_state.md section 6): no response depends on them. -/
def Obligations.HiddenRegistersReachNoResponse : Prop :=
  ∀ (i : Instr) (s t t' : State) (c : Byte) (x : Idx), exec i s = .next t →
    exec i { s with cur := c, idx := x } = .next t' →
    t'.rspValid = t.rspValid ∧ t'.rspStatus = t.rspStatus ∧ t'.rspData = t.rspData

/-! ## Responses and errors -/

/-- 60_exceptions.md R160: the codes, which commands raise which status, and no data with an error. -/
def Obligations.StatusCodesAndTheirCauses : Prop :=
  Status.code .ok = 0b00 ∧ Status.code .notReady = 0b01 ∧ Status.code .badIndex = 0b10 ∧ Status.code .illegal = 0b11 ∧
  (∀ i s t, exec i s = .next t →
    (t.rspStatus = .notReady ↔
      ((∃ o, i = .rdexp o ∨ i = .rdlog o) ∧ s.valid = false) ∨ (i = .start ∧ s.phase ≠ .idle)) ∧
    (t.rspStatus = .badIndex ↔ i = .rdexp 255 ∧ s.valid = true) ∧
    t.rspStatus ≠ .illegal) ∧
  (∀ s t, step s = .next t → (t.rspStatus = .illegal ↔
    s.portIn.rst = false ∧ s.portIn.cmdValid = true ∧ ∃ why, decode s.portIn.cmd = .illegalWord why)) ∧
  (∀ s t, step s = .next t → t.rspStatus ≠ .ok → t.rspData = 0x00)

/-- 30_encoding.md R61 and R67: a command is accepted exactly at an edge with `rst` = 0 and `cmd_valid` = 1; every state
inside R33 can take one; an edge without one clears the response registers. -/
def Obligations.EveryEdgeReplacesTheResponse : Prop :=
  (∀ s t, step s = .next t → (t.rspValid = true ↔ s.portIn.rst = false ∧ s.portIn.cmdValid = true)) ∧
  (∀ s t, step s = .next t → t.rspValid = false → t.rspStatus = .ok ∧ t.rspData = 0x00) ∧
  (∀ s : State, s.cmdReady = true) ∧
  (∀ (s : State) (w : CmdWord), ReachableShape s → ∃ t, step (s.drive (PortIn.present w)) = .next t ∧ t.rspValid = true)

/-- 60_exceptions.md R161: ILLEGAL is raised for exactly these words, and nothing else happens for them. -/
def Obligations.IllegalWordsRaiseIllegal : Prop :=
  ∀ (s : State) (w : CmdWord), reachable s = true → s.accepts w →
    ∃ t u, step s = .next t ∧ step s.quietNext = .next u ∧
      (t.rspStatus = .illegal ↔
        rsvField w ≠ 0 ∨ 6 ≤ (opField w).toNat ∨
          ((opField w = 0x0 ∨ opField w = 0x1 ∨ opField w = 0x5) ∧ opndField w ≠ 0)) ∧
      (t.rspStatus = .illegal ↔ ∃ why, decode w = .illegalWord why) ∧
      (t.rspStatus = .illegal → t.agreeButResponse u ∧ t.rspValid = true ∧ t.rspData = 0x00)

/-- 60_exceptions.md R162: NOTREADY for a table read while `valid` = 0 and for START while a generation is in progress;
nothing else happens, and the generation goes on as if no command had come. -/
def Obligations.NotReadyHasNoOtherEffect : Prop :=
  (∀ s w, reachable s = true → s.accepts w →
    ((∃ o, decode w = .command (.rdexp o) ∨ decode w = .command (.rdlog o)) ∧ s.valid = false) ∨
      (decode w = .command .start ∧ s.phase ≠ .idle) →
    ∃ t u, step s = .next t ∧ step s.quietNext = .next u ∧ t.agreeButResponse u ∧
      t.rspValid = true ∧ t.rspStatus = .notReady ∧ t.rspData = 0x00) ∧
  (∀ i s t, exec i s = .next t → t.rspStatus = .notReady →
    ((∃ o, i = .rdexp o ∨ i = .rdlog o) ∧ s.valid = false) ∨ (i = .start ∧ s.phase ≠ .idle))

/-- 60_exceptions.md R163. -/
def Obligations.SentinelIndexIsBadIndex : Prop :=
  (∀ s, reachable s = true → s.valid = true → s.accepts 0x20FF →
    ∃ t u, step s = .next t ∧ step s.quietNext = .next u ∧ t.agreeButResponse u ∧
      t.rspValid = true ∧ t.rspStatus = .badIndex ∧ t.rspData = 0x00) ∧
  (∀ s i t, s.valid = true → exec (.rdexp i) s = .next t → (t.rspStatus = .badIndex ↔ i = 255))

/-- 60_exceptions.md R164: the first cause that applies is reported, and a reset at the same edge wins. -/
def Obligations.FirstCauseIsReported : Prop :=
  (∀ s w, reachable s = true → s.accepts w → ∃ t, step s = .next t ∧ t.rspStatus = firstCause s (decode w)) ∧
  (∀ s, reachable s = true → s.valid = false → s.accepts 0x20FF → ∃ t, step s = .next t ∧ t.rspStatus = .notReady) ∧
  (∀ s, reachable s = true → s.accepts 0x21FF → ∃ t, step s = .next t ∧ t.rspStatus = .illegal) ∧
  (∀ s, s.portIn.rst = true → ∃ t, step s = .next t ∧ t.rspValid = false)

/-! ## The reducer and the oracles -/

/-- 40_poly_mult_reducer.md R80: the reducer's value, and that the XOR always clears bit 8. -/
def Obligations.ReducerShiftsAndReduces : Prop :=
  (∀ a : Byte, mulGen a = (a.extractLsb' 0 7 ++ 0#1) ^^^ (if a.getLsbD 7 = true then 0x1D else 0x00)) ∧
  (∀ (m : Modulus) (a : Byte), mulGenAt m a =
    (a.extractLsb' 0 7 ++ 0#1) ^^^ (if a.getLsbD 7 = true then m.setWidth 8 else 0x00)) ∧
  (∀ (m : Modulus) (t : BitVec 9), m.getLsbD 8 = true → t.getLsbD 8 = true → (t ^^^ m).getLsbD 8 = false)

/-- 40_poly_mult_reducer.md R81, its six properties. -/
def Obligations.ReducerIsALinearBijection : Prop :=
  mulGen 0 = 0 ∧
  (∀ a, a ≠ 0 → mulGen a ≠ 0) ∧
  Function.Bijective mulGen ∧
  (∀ a b : Byte, mulGen (a ^^^ b) = mulGen a ^^^ mulGen b) ∧
  (∀ a, mulGen a = 1 ↔ a = 0x8E) ∧
  (∀ a : Byte, a.getLsbD 7 = false → (mulGen a).toNat = 2 * a.toNat)

/-- The laws of `gf_mul_ref` (40_poly_mult_reducer.md section 3), and that the reducer passes through a product. -/
def Obligations.ReferenceProductLaws : Prop :=
  (∀ a, gfMulRef a 2 = mulGen a) ∧ (∀ a, gfMulRef a 0 = 0) ∧ (∀ a, gfMulRef a 1 = a) ∧
  (∀ a b, gfMulRef a b = gfMulRef b a) ∧
  (∀ a b, gfMulRef (mulGen a) b = mulGen (gfMulRef a b)) ∧
  (∀ a b c : Byte, gfMulRef (a ^^^ b) c = gfMulRef a c ^^^ gfMulRef b c)

/-- The consumer formulas over complete tables (40_poly_mult_reducer.md section 3): the table product is the direct
product, for all pairs, and division undoes it; division by zero has no value. -/
def Obligations.TableProductIsTheReferenceProduct : Prop :=
  ∀ s : State, s.tablesComplete Config.modulus →
    (∀ a b, tableMultiply s a b = gfMulRef a b) ∧
    (∀ a b, b ≠ 0 → ∃ q, tableDivide s a b = some q ∧ gfMulRef q b = a) ∧
    (∀ a, tableDivide s a 0 = none)

/-! ## The sequencer, edge by edge -/

/-- 41_exp_table_generator.md R104: one edge of EXP_GEN, with or without a command, and the length of the phase. -/
def Obligations.ExpGenEdgeWritesOnePower : Prop :=
  (∀ s, s.noResetNext → reachable s = true → s.phase = .expGen →
    ∃ t, step s = .next t ∧
      memRead .exp s.idx.toNat t = some s.cur ∧
      (∀ k, k ≠ s.idx.toNat → entry .exp k t = entry .exp k s) ∧ (∀ k, entry .log k t = entry .log k s) ∧
      t.cur = mulGen s.cur ∧ t.valid = s.valid ∧ t.inputs = s.inputs.tail ∧
      (s.idx = 254 → t.phase = .logInit ∧ t.idx = 0) ∧
      (s.idx ≠ 254 → t.phase = .expGen ∧ t.idx = s.idx + 1) ∧
      (s.accepts (encode .start) → t.rspStatus = .notReady)) ∧
  (∀ s, s.phase = .expGen → s.idx = 0 → reachable s = true → s.noResetFor 255 →
    (∀ n, n < 255 → ∃ t, edges step n s = .next t ∧ t.phase = .expGen ∧ t.idx.toNat = n) ∧
    ∃ t, edges step 255 s = .next t ∧ t.phase = .logInit)

/-- 42_log_table_inverter.md R123: one edge of LOG_INIT, with or without a command, and the length of the phase. -/
def Obligations.LogInitEdgeWritesTheSentinel : Prop :=
  (∀ s, s.noResetNext → reachable s = true → s.phase = .logInit →
    ∃ t, step s = .next t ∧
      memRead .log s.idx.toNat t = some 0xFF ∧
      (∀ k, k ≠ s.idx.toNat → entry .log k t = entry .log k s) ∧ (∀ k, entry .exp k t = entry .exp k s) ∧
      t.cur = s.cur ∧ t.valid = s.valid ∧ t.inputs = s.inputs.tail ∧
      (s.idx = 255 → t.phase = .logInv ∧ t.idx = 0) ∧
      (s.idx ≠ 255 → t.phase = .logInit ∧ t.idx = s.idx + 1)) ∧
  (∀ s, s.phase = .logInit → s.idx = 0 → reachable s = true → s.noResetFor 256 →
    (∀ n, n < 256 → ∃ t, edges step n s = .next t ∧ t.phase = .logInit ∧ t.idx.toNat = n) ∧
    ∃ t, edges step 256 s = .next t ∧ t.phase = .logInv)

/-- 42_log_table_inverter.md R127: one edge of LOG_INV, with or without a command, and the length of the phase. The entry
stored to is the one the pre-edge `exp_mem[idx]` names. -/
def Obligations.LogInvEdgeInvertsOneEntry : Prop :=
  (∀ s, s.noResetNext → reachable s = true → s.phase = .logInv →
    ∃ t e, step s = .next t ∧ memRead .exp s.idx.toNat s = some e ∧
      memRead .log e.toNat t = some (s.idx.setWidth 8) ∧
      (∀ k, k ≠ e.toNat → entry .log k t = entry .log k s) ∧ (∀ k, entry .exp k t = entry .exp k s) ∧
      t.cur = s.cur ∧ t.inputs = s.inputs.tail ∧
      (s.idx = 254 → t.phase = .idle ∧ t.idx = 0 ∧ t.valid = true) ∧
      (s.idx ≠ 254 → t.phase = .logInv ∧ t.idx = s.idx + 1 ∧ t.valid = s.valid)) ∧
  (∀ s, s.phase = .logInv → s.idx = 0 → reachable s = true → s.noResetFor 255 →
    (∀ n, n < 255 → ∃ t, edges step n s = .next t ∧ t.phase = .logInv ∧ t.idx.toNat = n) ∧
    ∃ t, edges step 255 s = .next t ∧ t.phase = .idle ∧ t.valid = true)

/-- The sequencer advances by exactly one position at every edge (10_state.md section 4, R29): no command delays it, no
position is skipped, and it stands still only in IDLE. -/
def Obligations.SequencerAdvancesOnePosition : Prop :=
  (∀ s t, s.noResetNext → step s = .next t → s.phase ≠ .idle → t.position = (s.position + 1) % 767) ∧
  (∀ s t, s.noResetNext → step s = .next t → s.phase = .idle →
    t.position = if s.portIn.cmdValid = true ∧ s.portIn.cmd = encode .start then 1 else 0) ∧
  (∀ s t, step s = .next t → t.idx = 0 ∨ t.idx.toNat = s.idx.toNat + 1)

/-- Commands never delay or speed up the sequencer (43_table_access.md section 2, R151): two edges that differ in the
command only differ in the response only, a START accepted from IDLE apart. -/
def Obligations.CommandsNeverDelayTheSequencer : Prop :=
  ∀ (s : State) (d d' : PortIn), reachable s = true → d.rst = false → d'.rst = false →
    (s.phase = .idle → ¬ (d.cmdValid = true ∧ d.cmd = encode .start) ∧
      ¬ (d'.cmdValid = true ∧ d'.cmd = encode .start)) →
    ∃ t t', step (s.drive d) = .next t ∧ step (s.drive d') = .next t' ∧ t.agreeButResponse t'

/-- 20_memory.md R48 with R45: the only table entry an edge changes is the one the sequencer step stores to, a reset edge
changes none, and an idle machine that is sent no START keeps both tables for ever. -/
def Obligations.OnlyTheSequencerWritesTables : Prop :=
  (∀ s t, s.noResetNext → step s = .next t →
    ∀ sp k, s.writtenEntry ≠ some (sp, k) → entry sp k t = entry sp k s) ∧
  (∀ s t, s.portIn.rst = true → step s = .next t → ∀ sp k, entry sp k t = entry sp k s) ∧
  (∀ i s t, exec i s = .next t → ∀ sp k, entry sp k t = entry sp k s) ∧
  (∀ n s, s.phase = .idle → reachable s = true → s.undisturbedFor n →
    ∃ t, edges step n s = .next t ∧ t.phase = .idle ∧ t.valid = s.valid ∧
      t.expMem = s.expMem ∧ t.logMem = s.logMem ∧ ∀ sp k, entry sp k t = entry sp k s)

/-- `cur` (10_state.md section 1, R22): START sets it to 1, an EXP_GEN edge multiplies it, every other edge without reset
keeps it. -/
def Obligations.CurHoldsOutsideExpGen : Prop :=
  (∀ s t, s.noResetNext → step s = .next t → s.phase ≠ .expGen →
    ¬ (s.phase = .idle ∧ s.portIn.cmdValid = true ∧ s.portIn.cmd = encode .start) → t.cur = s.cur) ∧
  (∀ s t, s.noResetNext → step s = .next t → s.phase = .expGen → t.cur = mulGen s.cur) ∧
  (∀ s t, s.noResetNext → step s = .next t →
    s.phase = .idle ∧ s.portIn.cmdValid = true ∧ s.portIn.cmd = encode .start → t.cur = 0x01)

/-! ## Generations -/

/-- 41_exp_table_generator.md R105: the state after the last EXP_GEN edge, from the entry state of the phase. -/
def Obligations.ExpTableAfterExpGen : Prop :=
  ∀ s, s.phase = .expGen → s.idx = 0 → reachable s = true → s.noResetFor 255 →
    ∃ t, edges step 255 s = .next t ∧
      (∀ i, i < 255 → memRead .exp i t = some (genPow i)) ∧
      t.cur = genPow 255 ∧ t.phase = .logInit ∧ t.idx = 0

/-- 41_exp_table_generator.md R106, under `MODULUS` = 0x11D, of the table after the last EXP_GEN edge; and where it fails
under 0x11B. -/
def Obligations.ExpTableIsOneFullCycle : Prop :=
  (∀ s, s.phase = .expGen → s.idx = 0 → reachable s = true → s.noResetFor 255 →
    ∃ t, edges step 255 s = .next t ∧
      entry .exp 0 t = 0x01 ∧
      (∀ i j, i < 255 → j < 255 → entry .exp i t = entry .exp j t → i = j) ∧
      (∀ b : Byte, b ≠ 0 ↔ ∃ i, i < 255 ∧ entry .exp i t = b) ∧
      mulGen (entry .exp 254 t) = 0x01 ∧ entry .exp 254 t = 0x8E ∧ t.cur = 0x01) ∧
  (∀ n, 0 < n → n < 255 → genPow n ≠ 0x01) ∧ genPow 255 = 0x01 ∧
  genPowAt Config.rejectedModulus 51 = 0x01 ∧
  genPowAt Config.rejectedModulus 51 = genPowAt Config.rejectedModulus 0

/-- 42_log_table_inverter.md R124, from any LOG contents. -/
def Obligations.LogTableAfterLogInit : Prop :=
  ∀ s, s.phase = .logInit → s.idx = 0 → reachable s = true → s.noResetFor 256 →
    ∃ t, edges step 256 s = .next t ∧ ∀ b, b ≤ 255 → memRead .log b t = some 0xFF

/-- 42_log_table_inverter.md R126, whatever `exp_mem` holds: the last index that holds a value wins, and an entry no index
names is left alone. -/
def Obligations.LaterInversionWins : Prop :=
  ∀ s, s.phase = .logInv → s.idx = 0 → reachable s = true → s.noResetFor 255 →
    ∃ t, edges step 255 s = .next t ∧
      (∀ j, j < 255 → (∀ k, j < k → k < 255 → entry .exp k s ≠ entry .exp j s) →
        entry .log (entry .exp j s).toNat t = BitVec.ofNat 8 j) ∧
      (∀ b, (∀ k, k < 255 → (entry .exp k s).toNat ≠ b) → entry .log b t = entry .log b s) ∧
      (∀ k, entry .exp k t = entry .exp k s)

/-- 43_table_access.md R152: the timeline of one generation, whatever else the host sends. -/
def Obligations.GenerationFollowsTheTimeline : Prop :=
  (∀ s, StartsGeneration Config.modulus 766 s →
    (∃ t, edges step 1 s = .next t ∧ t.phase = .expGen ∧ t.idx = 0 ∧ t.cur = 0x01 ∧ t.valid = false) ∧
    (∀ i, i ≤ 253 → ∃ t, edges step (1 + 1 + i) s = .next t ∧ t.phase = .expGen ∧ t.idx.toNat = i + 1 ∧
      memRead .exp i t = some (genPow i)) ∧
    (∃ t, edges step (1 + 255) s = .next t ∧ t.phase = .logInit ∧ t.idx = 0 ∧ memRead .exp 254 t = some 0x8E) ∧
    (∀ k, k ≤ 254 → ∃ t, edges step (1 + 256 + k) s = .next t ∧ t.phase = .logInit ∧ t.idx.toNat = k + 1 ∧
      memRead .log k t = some 0xFF) ∧
    (∃ t, edges step (1 + 511) s = .next t ∧ t.phase = .logInv ∧ t.idx = 0 ∧ memRead .log 255 t = some 0xFF) ∧
    (∀ i, i ≤ 253 → ∃ t, edges step (1 + 512 + i) s = .next t ∧ t.phase = .logInv ∧ t.idx.toNat = i + 1 ∧
      memRead .log (entry .exp i t).toNat t = some (BitVec.ofNat 8 i)) ∧
    (∃ t, edges step (1 + 766) s = .next t ∧ t.phase = .idle ∧ t.idx = 0 ∧ t.valid = true ∧
      memRead .log 0x8E t = some 254) ∧
    (∀ n, n < 766 → ∃ t, edges step (1 + n) s = .next t ∧
      ∀ o, exec (.rdexp o) t = .next (t.responding .notReady 0x00) ∧
        exec (.rdlog o) t = .next (t.responding .notReady 0x00))) ∧
  (∀ s n, StartsGeneration Config.modulus (766 + n) s →
    (∀ d ∈ (s.inputs.take (767 + n)).drop 767, d.cmdValid = true → d.cmd ≠ encode .start) →
    ∃ t, edges step (767 + n) s = .next t ∧ t.valid = true ∧
      (∀ i : Byte, i ≠ 255 → exec (.rdexp i) t = .next (t.responding .ok (genPow i.toNat))) ∧
      (∀ b : Byte, exec (.rdlog b) t = .next (t.responding .ok (logAfterAt Config.modulus 255 b))))

/-- 41_exp_table_generator.md R107 and 42_log_table_inverter.md R132: under every modulus the hardware's tables are those
of the source's two loops, and the extra advance leaves `gen_pow(255)` in `cur`. -/
def Obligations.GenerationRefinesTheSourceLoops : Prop :=
  ∀ (m : Modulus) (s : State), StartsGeneration m 766 s →
    ∃ t, edges (stepAt m) 767 s = .next t ∧ t.generationComplete = true ∧
      t.expTable = sourceExp m ∧ t.logTable = sourceLog (sourceExp m) ∧ t.cur = genPowAt m 255

/-- 42_log_table_inverter.md R129: LOG is the exact two-sided inverse of EXP on the nonzero domain. -/
def Obligations.LogInvertsExp : Prop :=
  ∀ s, StartsGeneration Config.modulus 766 s →
    ∃ t, edges step 767 s = .next t ∧
      (∀ i, i ≤ 254 → entry .log (entry .exp i t).toNat t = BitVec.ofNat 8 i) ∧
      (∀ b : Byte, b ≠ 0 → entry .exp (entry .log b.toNat t).toNat t = b ∧ (entry .log b.toNat t).toNat ≤ 254)

/-- LOG[0] after a completed generation (42_log_table_inverter.md section 4): the sentinel under every modulus whose bit 0
is set, read by RDLOG 0 with status OK. The spec's words say "under every MODULUS"; with bit 0 clear its own rules can
write entry 0, as they do under 0x100 (log 8). -/
def Obligations.LogOfZeroIsTheSentinel : Prop :=
  (∀ (m : Modulus) (s : State), m.getLsbD 0 = true → StartsGeneration m 766 s →
    ∃ t, edges (stepAt m) 767 s = .next t ∧ memRead .log 0 t = some 0xFF ∧
      exec (.rdlog 0) t = .next (t.responding .ok 0xFF)) ∧
  (∀ s : State, StartsGeneration 0x100 766 s →
    ∃ t, edges (stepAt 0x100) 767 s = .next t ∧ memRead .log 0 t = some 254)

/-- The tables under the rejected modulus 0x11B (42_log_table_inverter.md section 4): period 51, each of the 51 values
five times, LOG the largest index of a value, everything else the sentinel, and no error of any kind. -/
def Obligations.RejectedModulusHasPeriodFiftyOne : Prop :=
  (∀ n, genPowAt Config.rejectedModulus (n + 51) = genPowAt Config.rejectedModulus n) ∧
  (∀ i j, i < 51 → j < 51 → genPowAt Config.rejectedModulus i = genPowAt Config.rejectedModulus j → i = j) ∧
  (∀ s : State, StartsGeneration Config.rejectedModulus 766 s →
    ∃ t, edges (stepAt Config.rejectedModulus) 767 s = .next t ∧ t.valid = true ∧
      (∀ i, i < 255 → entry .exp i t = genPowAt Config.rejectedModulus (i % 51)) ∧
      (∀ j, 204 ≤ j → j ≤ 254 →
        entry .log (genPowAt Config.rejectedModulus j).toNat t = BitVec.ofNat 8 j) ∧
      entry .log 1 t = 204 ∧
      (∀ b : Byte, (∀ j, j < 51 → genPowAt Config.rejectedModulus j ≠ b) → entry .log b.toNat t = 0xFF))

/-- 42_log_table_inverter.md section 4: two generations from any two states, with any other commands in between, end with
the same entries (R133) and, where the storage was in canonical form, as equal lists. That the tables are lists in a
canonical form is the model's choice (log 9), so the last two clauses are no rule of the spec. -/
def Obligations.GenerationIsDeterministic : Prop :=
  ∀ s s' : State, StartsGeneration Config.modulus 766 s → StartsGeneration Config.modulus 766 s' →
    ∃ t t', edges step 767 s = .next t ∧ edges step 767 s' = .next t' ∧
      (∀ k, k < 255 → entry .exp k t = entry .exp k t') ∧ (∀ k, k < 256 → entry .log k t = entry .log k t') ∧
      (Memory.wf 255 s.expMem → Memory.wf 255 s'.expMem → t.expMem = t'.expMem) ∧
      (Memory.wf 256 s.logMem → Memory.wf 256 s'.logMem → t.logMem = t'.logMem)

/-- A START after a completed generation (70_reset_and_hazards.md section 2, R186): RDLOG before its edge reads the old
table, RDEXP and RDLOG answer NOTREADY for the 766 edges after it, and the new tables are the old ones bit for bit. The last
clause says so as equality of lists: that the tables are lists in a canonical form, which the invariant holds them to, is
the model's choice (log 9) and no rule of the spec. -/
def Obligations.RegenerationIsBitIdentical : Prop :=
  ∀ s : State, MachineInvariant Config.modulus s → s.valid = true → StartsGeneration Config.modulus 766 s →
    (∀ o, exec (.rdlog o) s = .next (s.responding .ok (entry .log o.toNat s))) ∧
    (∀ n, n < 766 → ∃ t, edges step (1 + n) s = .next t ∧ t.valid = false ∧
      ∀ o, exec (.rdexp o) t = .next (t.responding .notReady 0x00) ∧
        exec (.rdlog o) t = .next (t.responding .notReady 0x00)) ∧
    ∃ t, edges step 767 s = .next t ∧ t.valid = true ∧ t.expMem = s.expMem ∧ t.logMem = s.logMem

/-! ## Reset and power-up -/

/-- 70_reset_and_hazards.md section 1 (R180) and 10_state.md section 7 (R34): a reset edge from any state, whatever else the
host drives, and every further one. The third clause is about `State.reset`, which lists no table entry and no input; that
is the model's choice (log 11) and no rule of the spec. -/
def Obligations.ResetEdgeSetsTheResetState : Prop :=
  (∀ s n, 0 < n → n ≤ s.inputs.length → (∀ d ∈ s.inputs.take n, d.rst = true) →
    ∃ t, edges step n s = .next t ∧ t.phase = .idle ∧ t.idx = 0 ∧ t.cur = 0x01 ∧ t.valid = false ∧
      t.rspValid = false ∧ t.rspStatus.code = 0b00 ∧ t.rspData = 0x00 ∧
      t.expMem = s.expMem ∧ t.logMem = s.logMem ∧ (∀ sp k, entry sp k t = entry sp k s) ∧
      t.done = false ∧ t.busy = false ∧ t.cmdReady = true) ∧
  (∀ (s : State) (v v' : Bool) (w w' : CmdWord),
    step (s.drive ⟨true, v, w⟩) = step (s.drive ⟨true, v', w'⟩)) ∧
  (∀ s d, s.expMem = [] → s.logMem = [] → s.inputs = [d] → d.rst = true → step s = .next State.reset)

/-- 70_reset_and_hazards.md R181: a reset during a generation keeps the entries written, hides them, and a following START
regenerates every entry. -/
def Obligations.ResetAbortsAGeneration : Prop :=
  ∀ s, s.phase ≠ .idle → s.portIn.rst = true →
    ∃ t, step s = .next t ∧ (∀ sp k, entry sp k t = entry sp k s) ∧ t.valid = false ∧ t.phase = .idle ∧
      (∀ o, exec (.rdexp o) t = .next (t.responding .notReady 0x00) ∧
        exec (.rdlog o) t = .next (t.responding .notReady 0x00)) ∧
      (t.accepts (encode .start) → t.noResetFor 767 →
        ∃ u, edges step 767 t = .next u ∧ u.valid = true ∧ u.tablesComplete Config.modulus)

/-- 10_state.md R35: two machines that powered up with any contents and see the same inputs, a reset edge first, give the
same outputs after every edge, and both hold the complete tables whenever a host may read them: no unspecified storage
value reaches `rsp_data`. -/
def Obligations.PowerUpContentsStayHidden : Prop :=
  ∀ (p q : State), p.inputs = q.inputs → p.portIn.rst = true →
    ∀ n, 0 < n → ∃ t u, edges step n p = .next t ∧ edges step n q = .next u ∧ t.outputs = u.outputs ∧
      (t.valid = true → t.tablesComplete Config.modulus ∧ u.tablesComplete Config.modulus ∧
        (∀ k, k < 255 → entry .exp k t = entry .exp k u) ∧ ∀ k, k < 256 → entry .log k t = entry .log k u)

/-- The boot sequence (70_reset_and_hazards.md section 1, R183), from any power-up state: reset, START, 766 edges, and
every read answers OK with the table's value. -/
def Obligations.BootSequenceDeliversTheTables : Prop :=
  ∀ p : State, ∃ t, edges step 768 (p.withInputs bootInputs) = .next t ∧ t.done = true ∧ t.generationComplete = true ∧
    (∀ i : Byte, i ≠ 255 → ∃ u, step (t.drive (PortIn.present (encode (.rdexp i)))) = .next u ∧
      u.hostResult = .data (genPow i.toNat)) ∧
    (∀ b : Byte, b ≠ 0 → ∃ u e, step (t.drive (PortIn.present (encode (.rdlog b)))) = .next u ∧
      u.hostResult = .data e ∧ e ≠ 255 ∧ genPow e.toNat = b) ∧
    (∃ u, step (t.drive (PortIn.present (encode (.rdexp 255)))) = .next u ∧ u.hostResult = .error .badIndex)

/-- The macro WAITDONE (30_encoding.md section 5, R71; one STATUS an edge, log 13): after an accepted START it ends at the
767th STATUS and no earlier; on a machine that is idle without tables it never ends. -/
def Obligations.WaitDoneEndsWithTheGeneration : Prop :=
  (∀ s, s.phase = .expGen → s.idx = 0 → reachable s = true →
    waitDone 766 s = none ∧
    ∃ t, waitDone 767 s = some t ∧ t.valid = true ∧ t.rspStatus = .ok ∧ t.rspData = 0x01 ∧ t.inputs = s.inputs) ∧
  (∀ n s, s.phase = .idle → s.valid = false → reachable s = true → waitDone n s = none)

/-! ## The machine's invariant -/

/-- The invariant of `MachineInvariant` (R33; 10_state.md section 1; 41_exp_table_generator.md section 3;
42_log_table_inverter.md sections 2 and 3) is kept by every step, under the hardware's modulus and under any other. -/
def Obligations.EveryStepKeepsTheMachineInvariant : Prop :=
  (∀ s t, MachineInvariant Config.modulus s → step s = .next t → MachineInvariant Config.modulus t) ∧
  (∀ m s t, MachineInvariant m s → stepAt m s = .next t → MachineInvariant m t)

/-- The invariant holds at `State.reset` (10_state.md section 7; log 11 for the fields that are the model's). -/
def Obligations.ResetStateHasTheMachineInvariant : Prop :=
  MachineInvariant Config.modulus State.reset

/-- A reset edge establishes the invariant from every power-up state whose storage is in the model's canonical form (log 9;
70_reset_and_hazards.md section 1). -/
def Obligations.ResetEdgeEstablishesTheMachineInvariant : Prop :=
  ∀ m s, Memory.wf 255 s.expMem → Memory.wf 256 s.logMem → s.portIn.rst = true →
    ∃ t, stepAt m s = .next t ∧ MachineInvariant m t

/-- `valid` is 1 exactly when both tables are complete and may be read (10_state.md section 1, R23): the last LOG_INV edge
sets it, START and reset clear it, nothing else writes it, and while it is 1 the tables are complete. -/
def Obligations.ValidMeansTablesComplete : Prop :=
  (∀ m s, MachineInvariant m s → s.valid = true → s.tablesComplete m) ∧
  (∀ s t, step s = .next t → t.valid = true →
    s.portIn.rst = false ∧ ((s.valid = true ∧ ¬ s.accepts (encode .start)) ∨ (s.phase = .logInv ∧ s.idx = 254))) ∧
  (∀ s t, s.noResetNext → step s = .next t → s.phase = .logInv → s.idx = 254 → t.valid = true) ∧
  (∀ s t, step s = .next t → s.portIn.rst = true ∨ (s.phase = .idle ∧ s.accepts (encode .start)) → t.valid = false)

/-! ## The end of a run -/

/-- 70_reset_and_hazards.md section 3 (R190), read of a list of edges that happened; that R190's last START is the last
among them is the model's inference (log 19), and that no reset edge is asked for before it is its choice (log 20). A run
ends at edge `n` exactly when, `t0` being the last edge that accepts a START with an OK response, `n` is the first edge
after `t0` that leaves `valid` = 1 and `phase` = IDLE; its observation is every entry of both tables after that edge; the
host may read it at the next edge and at every edge from there on before which no reset happens and no START is accepted; a
host program ends at the edge after its last accepted command, where that command's response is sampled. -/
def Obligations.RunEndsAtTheFirstCompletionAfterTheLastStart : Prop :=
  (∀ es n, runEnd es = some n ↔
    ∃ t0 r0 r, t0 < n ∧
      (edgeAt es t0 = some r0 ∧ r0.before.accepts (encode .start) ∧ r0.after.rspStatus = .ok) ∧
      (∀ k q, t0 < k → edgeAt es k = some q →
        ¬ (q.before.accepts (encode .start) ∧ q.after.rspStatus = .ok)) ∧
      (edgeAt es n = some r ∧ r.after.valid = true ∧ r.after.phase = .idle) ∧
      ∀ k q, t0 < k → k < n → edgeAt es k = some q → ¬ (q.after.valid = true ∧ q.after.phase = .idle)) ∧
  (∀ es n r, runEnd es = some n → edgeAt es n = some r →
    ∃ o, runObservation es = some o ∧
      (∀ k, k < 255 → o.exp[k]? = some (entry .exp k r.after)) ∧ o.exp.length = 255 ∧
      (∀ k, k < 256 → o.log[k]? = some (entry .log k r.after)) ∧ o.log.length = 256 ∧
      ∀ j, reachable r.after = true → r.after.undisturbedFor j →
        ∃ t, edges step j r.after = .next t ∧ t.delivers o) ∧
  (∀ es n, programEnd es = some n ↔
    ∃ t r, n = t + 1 ∧ edgeAt es t = some r ∧ (∃ w, r.before.accepts w) ∧
      ∀ k q, t < k → edgeAt es k = some q → ∀ w, ¬ q.before.accepts w) ∧
  (∀ s k es n, trace step k s = some es → programEnd es = some (n + 1) →
    ∃ t, edges step n s = .next t ∧ t.rspValid = true ∧ lastSample es = some t.outputs)

/-- A generation as a run (70_reset_and_hazards.md section 3; 43_table_access.md section 2), under every modulus and after
whatever the `k` edges before it held, earlier runs among it: counting from its START, the run has no end at the START's
edge nor at the 765 after it, ends at the next one, and keeps that end while no further START is accepted; its observation
is the tables of the source's loops. That a prefix of the edges is read with its own last START is the model's inference
(log 19), and that edges without a reset edge before the START have an end too is its choice (log 20). -/
def Obligations.GenerationIsOneRun : Prop :=
  ∀ (m : Modulus) (k n : Nat) (s t : State) (before : List EdgeRecord),
    trace (stepAt m) k s = some before → edges (stepAt m) k s = .next t →
    StartsGeneration m (766 + n) t →
    (∀ d ∈ (t.inputs.take (767 + n)).drop 767, d.cmdValid = true → d.cmd ≠ encode .start) →
    (∀ j, 1 ≤ j → j ≤ 766 → ∃ es, trace (stepAt m) (k + j) s = some es ∧ runEnd es = none) ∧
    ∃ es, trace (stepAt m) (k + (767 + n)) s = some es ∧ runEnd es = some (k + 767) ∧
      runObservation es = some ⟨sourceExp m, sourceLog (sourceExp m)⟩

/-- The boot sequence as a host program that waits with WAITDONE (70_reset_and_hazards.md sections 1 and 3;
30_encoding.md section 5), from any power-up state: START is accepted at edge 2, its run ends at edge 768, the STATUS that
sees it is the one of edge 769, and the program ends at edge 770, where its response is sampled. That WAITDONE has a bound
is the model's choice (log 13), and that the last START and the last command are the last among the edges that happened its
inference (log 19). -/
def Obligations.BootProgramEndsWithItsLastSample : Prop :=
  ∀ (p : State) (bound : Nat), 767 ≤ bound →
    ∃ es, playProgram bound bootProgram p = some es ∧ es.length = 769 ∧
      runEnd es = some 768 ∧ programEnd es = some 770 ∧
      lastSample es = some ⟨true, true, 0b00, 0x01, true, false⟩ ∧
      runObservation es = some ⟨sourceExp Config.modulus, sourceLog (sourceExp Config.modulus)⟩
end

