-- ==== Sys2Proof/Laws/Memory.lean ====
section
/-! SUPPORT. The storage of a table: a read after a write, the canonical form, and that two storages in canonical form which
read the same are the same list. -/

namespace Sys2Proof.Machine

@[simp] theorem memory_read_nil (a : Nat) : Memory.read [] a = none := rfl

theorem memory_read_cons (c : Host.Cell) (m : Memory) (a : Nat) :
    Memory.read (c :: m) a = if a = c.1 then some c.2 else Memory.read m a := rfl

@[simp] theorem memory_read_write_same (m : Memory) (a : Nat) (v : Byte) :
    Memory.read (Memory.write m a v) a = some v := by
  induction m with
  | nil => simp [Memory.write, Memory.read]
  | cons c m ih =>
    unfold Memory.write
    split
    · simp [Memory.read]
    · split
      · simp [Memory.read]
      · simp_all [Memory.read]

theorem memory_read_write_other (m : Memory) (a b : Nat) (v : Byte) (h : b ≠ a) :
    Memory.read (Memory.write m a v) b = Memory.read m b := by
  induction m with
  | nil => simp [Memory.write, Memory.read, h]
  | cons c m ih =>
    unfold Memory.write
    split
    · simp [Memory.read, h]
    · split
      · rename_i hac
        subst hac
        simp [Memory.read, h]
      · simp only [Memory.read, ih]

/-- What any index reads as after a write. -/
theorem memory_read_write (m : Memory) (a b : Nat) (v : Byte) :
    Memory.read (Memory.write m a v) b = if b = a then some v else Memory.read m b := by
  split
  · rename_i h
    rw [h, memory_read_write_same]
  · exact memory_read_write_other m a b v ‹_›

theorem memory_mem_write (m : Memory) (a : Nat) (v : Byte) (c : Host.Cell) (h : c ∈ Memory.write m a v) :
    c = (a, v) ∨ c ∈ m := by
  induction m with
  | nil => simpa [Memory.write] using h
  | cons d m ih =>
    unfold Memory.write at h
    split at h
    · simpa using h
    · split at h
      · rcases List.mem_cons.1 h with h | h
        · exact .inl h
        · exact .inr (List.mem_cons_of_mem _ h)
      · rcases List.mem_cons.1 h with h | h
        · exact .inr (h ▸ List.mem_cons_self)
        · exact (ih h).imp id (List.mem_cons_of_mem _)

/-- A write keeps the canonical form. -/
theorem memory_write_wf (size : Nat) (m : Memory) (a : Nat) (v : Byte) (hm : Memory.wf size m) (ha : a < size) :
    Memory.wf size (Memory.write m a v) := by
  obtain ⟨hp, hs⟩ := hm
  refine ⟨?_, fun c hc => ?_⟩
  · clear hs
    induction m with
    | nil => simp [Memory.write]
    | cons d m ih =>
      obtain ⟨hd, hp⟩ := List.pairwise_cons.1 hp
      unfold Memory.write
      split
      · rename_i had
        refine List.pairwise_cons.2 ⟨fun c hc => ?_, List.pairwise_cons.2 ⟨hd, hp⟩⟩
        rcases List.mem_cons.1 hc with hc | hc
        · exact hc ▸ had
        · exact Nat.lt_trans had (hd c hc)
      · split
        · rename_i had
          exact List.pairwise_cons.2 ⟨fun c hc => had ▸ hd c hc, hp⟩
        · rename_i h1 h2
          refine List.pairwise_cons.2 ⟨fun c hc => ?_, ih hp⟩
          rcases memory_mem_write m a v c hc with rfl | hc
          · exact Nat.lt_of_le_of_ne (Nat.le_of_not_lt h1) (Ne.symm h2)
          · exact hd c hc
  · rcases memory_mem_write m a v c hc with rfl | hc
    · exact ha
    · exact hs c hc

theorem memory_nil_wf (size : Nat) : Memory.wf size [] := by
  simp [Memory.wf]

/-- An index below every listed one reads as nothing. -/
theorem memory_read_of_lt (m : Memory) (a : Nat) (h : ∀ c ∈ m, a < c.1) : Memory.read m a = none := by
  induction m with
  | nil => rfl
  | cons d m ih =>
    have hd := h d List.mem_cons_self
    rw [memory_read_cons, if_neg (Nat.ne_of_lt hd)]
    exact ih fun c hc => h c (List.mem_cons_of_mem _ hc)

/-- An index outside the space reads as nothing. -/
theorem memory_read_of_ge (size : Nat) (m : Memory) (a : Nat) (hm : Memory.wf size m) (ha : size ≤ a) :
    Memory.read m a = none := by
  have h : ∀ c ∈ m, c.1 < a := fun c hc => Nat.lt_of_lt_of_le (hm.2 c hc) ha
  clear hm
  induction m with
  | nil => rfl
  | cons d m ih =>
    have hd := h d List.mem_cons_self
    rw [memory_read_cons, if_neg (by omega)]
    exact ih fun c hc => h c (List.mem_cons_of_mem _ hc)

/-- Storages in canonical form that read the same at every index are equal data. -/
theorem memory_ext (size : Nat) (m m' : Memory) (hm : Memory.wf size m) (hm' : Memory.wf size m')
    (h : ∀ a, Memory.read m a = Memory.read m' a) : m = m' := by
  replace hm := hm.1
  replace hm' := hm'.1
  induction m generalizing m' with
  | nil =>
    cases m' with
    | nil => rfl
    | cons c m' => simpa [Memory.read] using h c.1
  | cons d m ih =>
    cases m' with
    | nil => simpa [Memory.read] using h d.1
    | cons c m' =>
      obtain ⟨hd, hp⟩ := List.pairwise_cons.1 hm
      obtain ⟨hc, hp'⟩ := List.pairwise_cons.1 hm'
      have hdc : d.1 = c.1 := by
        rcases Nat.lt_trichotomy d.1 c.1 with hlt | heq | hgt
        · have hn := memory_read_of_lt (c :: m') d.1 (by
            intro x hx
            rcases List.mem_cons.1 hx with rfl | hx
            · exact hlt
            · exact Nat.lt_trans hlt (hc x hx))
          rw [← h, memory_read_cons, if_pos rfl] at hn
          cases hn
        · exact heq
        · have hn := memory_read_of_lt (d :: m) c.1 (by
            intro x hx
            rcases List.mem_cons.1 hx with rfl | hx
            · exact hgt
            · exact Nat.lt_trans hgt (hd x hx))
          rw [h, memory_read_cons, if_pos rfl] at hn
          cases hn
      have hv : d.2 = c.2 := by
        have := h d.1
        rw [memory_read_cons, memory_read_cons, if_pos rfl, if_pos hdc] at this
        exact Option.some.inj this
      have hrest : m = m' := by
        refine ih m' (fun a => ?_) hp hp'
        have ha := h a
        rw [memory_read_cons, memory_read_cons] at ha
        by_cases had : a = d.1
        · rw [memory_read_of_lt m a fun x hx => had ▸ hd x hx,
            memory_read_of_lt m' a fun x hx => (had.trans hdc) ▸ hc x hx]
        · rwa [if_neg had, if_neg (fun hac => had (hac.trans hdc.symm))] at ha
      rw [hrest, Prod.ext hdc hv]

end Sys2Proof.Machine
end

