-- ==== Sys2Proof/Laws/State.lean ====
section
/-! SUPPORT. One lemma for each field of the state and each update of it, so that no proof unfolds a record update. -/

namespace Sys2Proof.Machine

/-! ## `respond` -/

@[simp] theorem respond_phase (status : Status) (data : Byte) (s : State) : (respond status data s).phase = s.phase := rfl
@[simp] theorem respond_idx (status : Status) (data : Byte) (s : State) : (respond status data s).idx = s.idx := rfl
@[simp] theorem respond_cur (status : Status) (data : Byte) (s : State) : (respond status data s).cur = s.cur := rfl
@[simp] theorem respond_valid (status : Status) (data : Byte) (s : State) : (respond status data s).valid = s.valid := rfl
@[simp] theorem respond_expMem (status : Status) (data : Byte) (s : State) : (respond status data s).expMem = s.expMem := rfl
@[simp] theorem respond_logMem (status : Status) (data : Byte) (s : State) : (respond status data s).logMem = s.logMem := rfl
@[simp] theorem respond_rspValid (status : Status) (data : Byte) (s : State) : (respond status data s).rspValid = true := rfl
@[simp] theorem respond_rspStatus (status : Status) (data : Byte) (s : State) : (respond status data s).rspStatus = status := rfl
@[simp] theorem respond_rspData (status : Status) (data : Byte) (s : State) : (respond status data s).rspData = if status = .ok then data else 0x00 := rfl
@[simp] theorem respond_inputs (status : Status) (data : Byte) (s : State) : (respond status data s).inputs = s.inputs := rfl

/-! ## `raise` -/

@[simp] theorem raise_phase (status : Status) (s : State) : (raise status s).phase = s.phase := rfl
@[simp] theorem raise_idx (status : Status) (s : State) : (raise status s).idx = s.idx := rfl
@[simp] theorem raise_cur (status : Status) (s : State) : (raise status s).cur = s.cur := rfl
@[simp] theorem raise_valid (status : Status) (s : State) : (raise status s).valid = s.valid := rfl
@[simp] theorem raise_expMem (status : Status) (s : State) : (raise status s).expMem = s.expMem := rfl
@[simp] theorem raise_logMem (status : Status) (s : State) : (raise status s).logMem = s.logMem := rfl
@[simp] theorem raise_rspValid (status : Status) (s : State) : (raise status s).rspValid = true := rfl
@[simp] theorem raise_rspStatus (status : Status) (s : State) : (raise status s).rspStatus = status := rfl
@[simp] theorem raise_rspData (status : Status) (s : State) : (raise status s).rspData = 0x00 := by
  cases status <;> rfl
@[simp] theorem raise_inputs (status : Status) (s : State) : (raise status s).inputs = s.inputs := rfl

/-! ## `noResponse` -/

@[simp] theorem noResponse_phase (s : State) : (noResponse s).phase = s.phase := rfl
@[simp] theorem noResponse_idx (s : State) : (noResponse s).idx = s.idx := rfl
@[simp] theorem noResponse_cur (s : State) : (noResponse s).cur = s.cur := rfl
@[simp] theorem noResponse_valid (s : State) : (noResponse s).valid = s.valid := rfl
@[simp] theorem noResponse_expMem (s : State) : (noResponse s).expMem = s.expMem := rfl
@[simp] theorem noResponse_logMem (s : State) : (noResponse s).logMem = s.logMem := rfl
@[simp] theorem noResponse_rspValid (s : State) : (noResponse s).rspValid = false := rfl
@[simp] theorem noResponse_rspStatus (s : State) : (noResponse s).rspStatus = .ok := rfl
@[simp] theorem noResponse_rspData (s : State) : (noResponse s).rspData = 0x00 := rfl
@[simp] theorem noResponse_inputs (s : State) : (noResponse s).inputs = s.inputs := rfl

/-! ## `resetEdge` -/

@[simp] theorem resetEdge_phase (s : State) : (resetEdge s).phase = .idle := rfl
@[simp] theorem resetEdge_idx (s : State) : (resetEdge s).idx = 0 := rfl
@[simp] theorem resetEdge_cur (s : State) : (resetEdge s).cur = 0x01 := rfl
@[simp] theorem resetEdge_valid (s : State) : (resetEdge s).valid = false := rfl
@[simp] theorem resetEdge_expMem (s : State) : (resetEdge s).expMem = s.expMem := rfl
@[simp] theorem resetEdge_logMem (s : State) : (resetEdge s).logMem = s.logMem := rfl
@[simp] theorem resetEdge_rspValid (s : State) : (resetEdge s).rspValid = false := rfl
@[simp] theorem resetEdge_rspStatus (s : State) : (resetEdge s).rspStatus = .ok := rfl
@[simp] theorem resetEdge_rspData (s : State) : (resetEdge s).rspData = 0x00 := rfl
@[simp] theorem resetEdge_inputs (s : State) : (resetEdge s).inputs = s.inputs := rfl

/-! ## `beginGeneration` -/

@[simp] theorem beginGeneration_phase (s : State) : (beginGeneration s).phase = .expGen := rfl
@[simp] theorem beginGeneration_idx (s : State) : (beginGeneration s).idx = 0 := rfl
@[simp] theorem beginGeneration_cur (s : State) : (beginGeneration s).cur = 0x01 := rfl
@[simp] theorem beginGeneration_valid (s : State) : (beginGeneration s).valid = false := rfl
@[simp] theorem beginGeneration_expMem (s : State) : (beginGeneration s).expMem = s.expMem := rfl
@[simp] theorem beginGeneration_logMem (s : State) : (beginGeneration s).logMem = s.logMem := rfl
@[simp] theorem beginGeneration_rspValid (s : State) : (beginGeneration s).rspValid = s.rspValid := rfl
@[simp] theorem beginGeneration_rspStatus (s : State) : (beginGeneration s).rspStatus = s.rspStatus := rfl
@[simp] theorem beginGeneration_rspData (s : State) : (beginGeneration s).rspData = s.rspData := rfl
@[simp] theorem beginGeneration_inputs (s : State) : (beginGeneration s).inputs = s.inputs := rfl

/-! ## `shiftInputs` -/

@[simp] theorem shiftInputs_phase (s : State) : s.shiftInputs.phase = s.phase := rfl
@[simp] theorem shiftInputs_idx (s : State) : s.shiftInputs.idx = s.idx := rfl
@[simp] theorem shiftInputs_cur (s : State) : s.shiftInputs.cur = s.cur := rfl
@[simp] theorem shiftInputs_valid (s : State) : s.shiftInputs.valid = s.valid := rfl
@[simp] theorem shiftInputs_expMem (s : State) : s.shiftInputs.expMem = s.expMem := rfl
@[simp] theorem shiftInputs_logMem (s : State) : s.shiftInputs.logMem = s.logMem := rfl
@[simp] theorem shiftInputs_rspValid (s : State) : s.shiftInputs.rspValid = s.rspValid := rfl
@[simp] theorem shiftInputs_rspStatus (s : State) : s.shiftInputs.rspStatus = s.rspStatus := rfl
@[simp] theorem shiftInputs_rspData (s : State) : s.shiftInputs.rspData = s.rspData := rfl
@[simp] theorem shiftInputs_inputs (s : State) : s.shiftInputs.inputs = s.inputs.tail := rfl

/-! ## `drive` -/

@[simp] theorem drive_phase (d : PortIn) (s : State) : (s.drive d).phase = s.phase := rfl
@[simp] theorem drive_idx (d : PortIn) (s : State) : (s.drive d).idx = s.idx := rfl
@[simp] theorem drive_cur (d : PortIn) (s : State) : (s.drive d).cur = s.cur := rfl
@[simp] theorem drive_valid (d : PortIn) (s : State) : (s.drive d).valid = s.valid := rfl
@[simp] theorem drive_expMem (d : PortIn) (s : State) : (s.drive d).expMem = s.expMem := rfl
@[simp] theorem drive_logMem (d : PortIn) (s : State) : (s.drive d).logMem = s.logMem := rfl
@[simp] theorem drive_rspValid (d : PortIn) (s : State) : (s.drive d).rspValid = s.rspValid := rfl
@[simp] theorem drive_rspStatus (d : PortIn) (s : State) : (s.drive d).rspStatus = s.rspStatus := rfl
@[simp] theorem drive_rspData (d : PortIn) (s : State) : (s.drive d).rspData = s.rspData := rfl
@[simp] theorem drive_inputs (d : PortIn) (s : State) : (s.drive d).inputs = d :: s.inputs := rfl

/-! ## `withInputs` -/

@[simp] theorem withInputs_phase (s : State) (ds : List PortIn) : (s.withInputs ds).phase = s.phase := rfl
@[simp] theorem withInputs_idx (s : State) (ds : List PortIn) : (s.withInputs ds).idx = s.idx := rfl
@[simp] theorem withInputs_cur (s : State) (ds : List PortIn) : (s.withInputs ds).cur = s.cur := rfl
@[simp] theorem withInputs_valid (s : State) (ds : List PortIn) : (s.withInputs ds).valid = s.valid := rfl
@[simp] theorem withInputs_expMem (s : State) (ds : List PortIn) : (s.withInputs ds).expMem = s.expMem := rfl
@[simp] theorem withInputs_logMem (s : State) (ds : List PortIn) : (s.withInputs ds).logMem = s.logMem := rfl
@[simp] theorem withInputs_rspValid (s : State) (ds : List PortIn) : (s.withInputs ds).rspValid = s.rspValid := rfl
@[simp] theorem withInputs_rspStatus (s : State) (ds : List PortIn) : (s.withInputs ds).rspStatus = s.rspStatus := rfl
@[simp] theorem withInputs_rspData (s : State) (ds : List PortIn) : (s.withInputs ds).rspData = s.rspData := rfl
@[simp] theorem withInputs_inputs (s : State) (ds : List PortIn) : (s.withInputs ds).inputs = ds := rfl

/-! ## `presentNext` -/

@[simp] theorem presentNext_phase (w : CmdWord) (s : State) : (presentNext w s).phase = s.phase := rfl
@[simp] theorem presentNext_idx (w : CmdWord) (s : State) : (presentNext w s).idx = s.idx := rfl
@[simp] theorem presentNext_cur (w : CmdWord) (s : State) : (presentNext w s).cur = s.cur := rfl
@[simp] theorem presentNext_valid (w : CmdWord) (s : State) : (presentNext w s).valid = s.valid := rfl
@[simp] theorem presentNext_expMem (w : CmdWord) (s : State) : (presentNext w s).expMem = s.expMem := rfl
@[simp] theorem presentNext_logMem (w : CmdWord) (s : State) : (presentNext w s).logMem = s.logMem := rfl
@[simp] theorem presentNext_rspValid (w : CmdWord) (s : State) : (presentNext w s).rspValid = s.rspValid := rfl
@[simp] theorem presentNext_rspStatus (w : CmdWord) (s : State) : (presentNext w s).rspStatus = s.rspStatus := rfl
@[simp] theorem presentNext_rspData (w : CmdWord) (s : State) : (presentNext w s).rspData = s.rspData := rfl
@[simp] theorem presentNext_inputs (w : CmdWord) (s : State) : (presentNext w s).inputs = PortIn.present w :: s.inputs.tail := rfl

/-! ## `setTable_exp` -/

@[simp] theorem setTable_exp_phase (s : State) (t : Memory) : (s.setTable .exp t).phase = s.phase := rfl
@[simp] theorem setTable_exp_idx (s : State) (t : Memory) : (s.setTable .exp t).idx = s.idx := rfl
@[simp] theorem setTable_exp_cur (s : State) (t : Memory) : (s.setTable .exp t).cur = s.cur := rfl
@[simp] theorem setTable_exp_valid (s : State) (t : Memory) : (s.setTable .exp t).valid = s.valid := rfl
@[simp] theorem setTable_exp_expMem (s : State) (t : Memory) : (s.setTable .exp t).expMem = t := rfl
@[simp] theorem setTable_exp_logMem (s : State) (t : Memory) : (s.setTable .exp t).logMem = s.logMem := rfl
@[simp] theorem setTable_exp_rspValid (s : State) (t : Memory) : (s.setTable .exp t).rspValid = s.rspValid := rfl
@[simp] theorem setTable_exp_rspStatus (s : State) (t : Memory) : (s.setTable .exp t).rspStatus = s.rspStatus := rfl
@[simp] theorem setTable_exp_rspData (s : State) (t : Memory) : (s.setTable .exp t).rspData = s.rspData := rfl
@[simp] theorem setTable_exp_inputs (s : State) (t : Memory) : (s.setTable .exp t).inputs = s.inputs := rfl

/-! ## `setTable_log` -/

@[simp] theorem setTable_log_phase (s : State) (t : Memory) : (s.setTable .log t).phase = s.phase := rfl
@[simp] theorem setTable_log_idx (s : State) (t : Memory) : (s.setTable .log t).idx = s.idx := rfl
@[simp] theorem setTable_log_cur (s : State) (t : Memory) : (s.setTable .log t).cur = s.cur := rfl
@[simp] theorem setTable_log_valid (s : State) (t : Memory) : (s.setTable .log t).valid = s.valid := rfl
@[simp] theorem setTable_log_expMem (s : State) (t : Memory) : (s.setTable .log t).expMem = s.expMem := rfl
@[simp] theorem setTable_log_logMem (s : State) (t : Memory) : (s.setTable .log t).logMem = t := rfl
@[simp] theorem setTable_log_rspValid (s : State) (t : Memory) : (s.setTable .log t).rspValid = s.rspValid := rfl
@[simp] theorem setTable_log_rspStatus (s : State) (t : Memory) : (s.setTable .log t).rspStatus = s.rspStatus := rfl
@[simp] theorem setTable_log_rspData (s : State) (t : Memory) : (s.setTable .log t).rspData = s.rspData := rfl
@[simp] theorem setTable_log_inputs (s : State) (t : Memory) : (s.setTable .log t).inputs = s.inputs := rfl

/-! ## The table of a space under an update -/

@[simp] theorem respond_table (status : Status) (data : Byte) (s : State) (sp : Space) : (respond status data s).table sp = s.table sp := by
  cases sp <;> rfl
@[simp] theorem raise_table (status : Status) (s : State) (sp : Space) : (raise status s).table sp = s.table sp := by
  cases sp <;> rfl
@[simp] theorem noResponse_table (s : State) (sp : Space) : (noResponse s).table sp = s.table sp := by
  cases sp <;> rfl
@[simp] theorem resetEdge_table (s : State) (sp : Space) : (resetEdge s).table sp = s.table sp := by
  cases sp <;> rfl
@[simp] theorem beginGeneration_table (s : State) (sp : Space) : (beginGeneration s).table sp = s.table sp := by
  cases sp <;> rfl
@[simp] theorem shiftInputs_table (s : State) (sp : Space) : s.shiftInputs.table sp = s.table sp := by
  cases sp <;> rfl
@[simp] theorem drive_table (d : PortIn) (s : State) (sp : Space) : (s.drive d).table sp = s.table sp := by
  cases sp <;> rfl
@[simp] theorem withInputs_table (s : State) (ds : List PortIn) (sp : Space) : (s.withInputs ds).table sp = s.table sp := by
  cases sp <;> rfl
@[simp] theorem presentNext_table (w : CmdWord) (s : State) (sp : Space) : (presentNext w s).table sp = s.table sp := by
  cases sp <;> rfl

@[simp] theorem setTable_table (s : State) (sp : Space) (t : Memory) : (s.setTable sp t).table sp = t := by
  cases sp <;> rfl
theorem setTable_table_other (s : State) (sp sp' : Space) (t : Memory) (h : sp' ≠ sp) :
    (s.setTable sp t).table sp' = s.table sp' := by
  cases sp <;> cases sp' <;> first | rfl | exact absurd rfl h
@[simp] theorem table_exp (s : State) : s.table .exp = s.expMem := rfl
@[simp] theorem table_log (s : State) : s.table .log = s.logMem := rfl
@[simp] theorem setTable_phase (s : State) (sp : Space) (t : Memory) : (s.setTable sp t).phase = s.phase := by
  cases sp <;> rfl
@[simp] theorem setTable_idx (s : State) (sp : Space) (t : Memory) : (s.setTable sp t).idx = s.idx := by
  cases sp <;> rfl
@[simp] theorem setTable_cur (s : State) (sp : Space) (t : Memory) : (s.setTable sp t).cur = s.cur := by
  cases sp <;> rfl
@[simp] theorem setTable_valid (s : State) (sp : Space) (t : Memory) : (s.setTable sp t).valid = s.valid := by
  cases sp <;> rfl
@[simp] theorem setTable_rspValid (s : State) (sp : Space) (t : Memory) : (s.setTable sp t).rspValid = s.rspValid := by
  cases sp <;> rfl
@[simp] theorem setTable_rspStatus (s : State) (sp : Space) (t : Memory) : (s.setTable sp t).rspStatus = s.rspStatus := by
  cases sp <;> rfl
@[simp] theorem setTable_rspData (s : State) (sp : Space) (t : Memory) : (s.setTable sp t).rspData = s.rspData := by
  cases sp <;> rfl
@[simp] theorem setTable_inputs (s : State) (sp : Space) (t : Memory) : (s.setTable sp t).inputs = s.inputs := by
  cases sp <;> rfl

end Sys2Proof.Machine
end

