-- ==== Sys2Proof/Laws/Ops.lean ====
section
/-! SUPPORT. What each shared operation can do, said once: the bind of results, the access to a table, the responses, and
edges in a row. -/

namespace Sys2Proof.Machine

/-! ## Results -/

@[simp] theorem andThen_next (s : State) (f : State → Result) : andThen (.next s) f = f s := rfl
@[simp] theorem andThen_fault (e : Fault) (f : State → Result) : andThen (.fault e) f = .fault e := rfl
@[simp] theorem andThen_refused (e : Refusal) (f : State → Result) : andThen (.refused e) f = .refused e := rfl

/-- If two parts in a row answer a state, the first does, and the second from there. -/
theorem andThen_inv {r : Result} {f : State → Result} {t : State} (h : andThen r f = .next t) :
    ∃ s, r = .next s ∧ f s = .next t := by
  cases r with
  | next s => exact ⟨s, rfl, h⟩
  | fault e => cases h
  | refused e => cases h

theorem andThen_assoc (r : Result) (f g : State → Result) :
    andThen (andThen r f) g = andThen r fun s => andThen (f s) g := by
  cases r <;> rfl

/-! ## Edges in a row -/

@[simp] theorem edges_zero (f : State → Result) (s : State) : edges f 0 s = .next s := rfl

theorem edges_succ (f : State → Result) (n : Nat) (s : State) :
    edges f (n + 1) s = andThen (f s) (edges f n) := rfl

/-- `m + n` edges are `m` edges and then `n`. -/
theorem edges_add (f : State → Result) (m n : Nat) (s : State) :
    edges f (m + n) s = andThen (edges f m s) (edges f n) := by
  induction m generalizing s with
  | zero => simp
  | succ m ih =>
    rw [Nat.succ_add, edges_succ, edges_succ, andThen_assoc]
    congr 1
    funext t
    exact ih t

/-- One edge more, at the end. -/
theorem edges_succ_last (f : State → Result) (n : Nat) (s : State) :
    edges f (n + 1) s = andThen (edges f n s) f := by
  rw [edges_add]
  congr 1
  funext t
  rw [edges_succ]
  cases f t <;> rfl

/-! ## Entries and accesses -/

@[simp] theorem expLen_eq : Config.expLen = 255 := rfl
@[simp] theorem logLen_eq : Config.logLen = 256 := rfl
@[simp] theorem size_exp : Space.size .exp = 255 := rfl
@[simp] theorem size_log : Space.size .log = 256 := rfl

/-- An entry depends on its table only. -/
theorem entry_congr {sp : Space} {s t : State} (k : Nat) (h : s.table sp = t.table sp) :
    entry sp k s = entry sp k t := by
  rw [entry, entry, h]

/-- A listed entry is the byte listed. -/
theorem entry_of_read {sp : Space} {k : Nat} {s : State} {v : Byte} (h : (s.table sp).read k = some v) :
    entry sp k s = v := by
  rw [entry, h, Option.getD_some]

@[simp] theorem entry_respond (sp : Space) (k : Nat) (st : Status) (d : Byte) (s : State) :
    entry sp k (respond st d s) = entry sp k s := entry_congr k (respond_table st d s sp)
@[simp] theorem entry_raise (sp : Space) (k : Nat) (st : Status) (s : State) :
    entry sp k (raise st s) = entry sp k s := entry_congr k (raise_table st s sp)
@[simp] theorem entry_noResponse (sp : Space) (k : Nat) (s : State) :
    entry sp k (noResponse s) = entry sp k s := entry_congr k (noResponse_table s sp)
@[simp] theorem entry_resetEdge (sp : Space) (k : Nat) (s : State) :
    entry sp k (resetEdge s) = entry sp k s := entry_congr k (resetEdge_table s sp)
@[simp] theorem entry_beginGeneration (sp : Space) (k : Nat) (s : State) :
    entry sp k (beginGeneration s) = entry sp k s := entry_congr k (beginGeneration_table s sp)
@[simp] theorem entry_shiftInputs (sp : Space) (k : Nat) (s : State) :
    entry sp k s.shiftInputs = entry sp k s := entry_congr k (shiftInputs_table s sp)
@[simp] theorem entry_drive (sp : Space) (k : Nat) (d : PortIn) (s : State) :
    entry sp k (s.drive d) = entry sp k s := entry_congr k (drive_table d s sp)
@[simp] theorem entry_withInputs (sp : Space) (k : Nat) (s : State) (ds : List PortIn) :
    entry sp k (s.withInputs ds) = entry sp k s := entry_congr k (withInputs_table s ds sp)

/-- What any entry of any space holds after a write to one entry. -/
theorem entry_setTable_write (sp sp' : Space) (k k' : Nat) (v : Byte) (s : State) :
    entry sp' k' (s.setTable sp ((s.table sp).write k v)) =
      if sp' = sp ∧ k' = k then v else entry sp' k' s := by
  by_cases hsp : sp' = sp
  · subst hsp
    rw [entry, setTable_table, memory_read_write, entry]
    by_cases hk : k' = k <;> simp [hk]
  · rw [if_neg (fun h => hsp h.1), entry, entry, setTable_table_other _ _ _ _ hsp]

/-- A read inside the space answers the entry. -/
theorem memRead_of_lt {sp : Space} {k : Nat} (s : State) (h : k < sp.size) :
    memRead sp k s = some (entry sp k s) := if_pos h

/-- A read outside the space answers nothing. -/
theorem memRead_of_ge {sp : Space} {k : Nat} (s : State) (h : sp.size ≤ k) : memRead sp k s = none :=
  if_neg (Nat.not_lt.2 h)

/-- Everything a read can do. -/
theorem memRead_spec {sp : Space} {k : Nat} {s : State} {v : Byte} (h : memRead sp k s = some v) :
    k < sp.size ∧ v = entry sp k s := by
  unfold memRead at h
  split at h
  · exact ⟨‹_›, (Option.some.inj h).symm⟩
  · cases h

theorem memWrite_of_lt {sp : Space} {k : Nat} (v : Byte) (s : State) (h : k < sp.size) :
    memWrite sp k v s = some (s.setTable sp ((s.table sp).write k v)) := if_pos h

/-- Everything a write can do. -/
theorem memWrite_spec {sp : Space} {k : Nat} {v : Byte} {s t : State} (h : memWrite sp k v s = some t) :
    k < sp.size ∧ t = s.setTable sp ((s.table sp).write k v) := by
  unfold memWrite at h
  split at h
  · exact ⟨‹_›, (Option.some.inj h).symm⟩
  · cases h

/-- A response with an entry, where the index has storage. -/
theorem respondEntry_of_lt {sp : Space} {k : Nat} (s : State) (h : k < sp.size) :
    respondEntry sp k s = .next (respond .ok (entry sp k s) s) := by
  rw [respondEntry, memRead_of_lt s h]

/-- Everything a response with an entry can do. -/
theorem respondEntry_spec {sp : Space} {k : Nat} {s t : State} (h : respondEntry sp k s = .next t) :
    k < sp.size ∧ t = respond .ok (entry sp k s) s := by
  unfold respondEntry at h
  split at h
  · rename_i b hb
    obtain ⟨hk, rfl⟩ := memRead_spec hb
    exact ⟨hk, (Host.Outcome.next.inj h).symm⟩
  · cases h

/-! ## Operands -/

theorem expIndex_sentinel : expIndex 0xFF = none := by decide

theorem expIndex_of_ne {o : Byte} (h : o ≠ 0xFF) : expIndex o = some o.toNat := if_neg h

theorem toNat_lt_of_ne {o : Byte} (h : o ≠ 0xFF) : o.toNat < 255 := by
  have h1 := o.isLt
  have h2 : o.toNat ≠ 255 := fun h3 => h (BitVec.eq_of_toNat_eq h3)
  omega

theorem logIndex_lt (o : Byte) : logIndex o < Space.size .log := o.isLt

/-! ## Input ports -/

@[simp] theorem portIn_drive (d : PortIn) (s : State) : (s.drive d).portIn = d := rfl
@[simp] theorem portIn_presentNext (w : CmdWord) (s : State) : (presentNext w s).portIn = PortIn.present w := rfl
@[simp] theorem shiftInputs_drive (d : PortIn) (s : State) : (s.drive d).shiftInputs = s := rfl

/-- Past the end of the list the host drives nothing. -/
theorem portIn_of_nil {s : State} (h : s.inputs = []) : s.portIn = PortIn.quiet := by
  rw [State.portIn, h]; rfl

theorem portIn_of_cons {s : State} {d : PortIn} {ds : List PortIn} (h : s.inputs = d :: ds) : s.portIn = d := by
  rw [State.portIn, h]; rfl

end Sys2Proof.Machine
end

