-- ==== Sys2Proof/Laws/PerInstr.lean ====
section
/-! SUPPORT. A statement about every command, proved one command at a time: the word the encoder writes selects the row of
the opcode map that has the command's name (30_encoding.md R63). -/

namespace Sys2Proof.Laws.SelectsOwnRow

/-- The encoding of the command selects a row of the opcode map with the command's mnemonic. -/
def Statement (i : Instr) : Prop :=
  ∃ r ∈ opcodeTable, r.mnemonic = i.mnemonic ∧ r.selects (encode i) = true

theorem rdexp_word (o : Byte) : encode (.rdexp o) &&& 0xFF00 = 0x2000 := by
  revert o; decide
theorem rdlog_word (o : Byte) : encode (.rdlog o) &&& 0xFF00 = 0x3000 := by
  revert o; decide
theorem mulg_word (o : Byte) : encode (.mulg o) &&& 0xFF00 = 0x4000 := by
  revert o; decide

theorem nop : Statement .nop := ⟨⟨.nop, 0x0000, 0xFFFF⟩, by decide, rfl, by decide⟩
theorem start : Statement .start := ⟨⟨.start, 0x1000, 0xFFFF⟩, by decide, rfl, by decide⟩
theorem rdexp (i : Byte) : Statement (.rdexp i) :=
  ⟨⟨.rdexp, 0x2000, 0xFF00⟩, by decide, rfl, beq_iff_eq.2 (rdexp_word i)⟩
theorem rdlog (b : Byte) : Statement (.rdlog b) :=
  ⟨⟨.rdlog, 0x3000, 0xFF00⟩, by decide, rfl, beq_iff_eq.2 (rdlog_word b)⟩
theorem mulg (a : Byte) : Statement (.mulg a) :=
  ⟨⟨.mulg, 0x4000, 0xFF00⟩, by decide, rfl, beq_iff_eq.2 (mulg_word a)⟩
theorem status : Statement .status := ⟨⟨.status, 0x5000, 0xFFFF⟩, by decide, rfl, by decide⟩

end Sys2Proof.Laws.SelectsOwnRow
end

