-- ==== Sys2Proof/Laws/Runs.lean ====
section
/-! SUPPORT. The records of edges: what each of `trace`, `firstEdgeWith`, `lastEdgeWith`, `waitDoneTrace` and `playProgram`
can answer, said once each. -/

namespace Sys2Proof.Machine

/-! ## The record of an edge -/

@[simp] theorem edgeAt_zero (es : List EdgeRecord) : edgeAt es 0 = none := rfl
@[simp] theorem edgeAt_succ (es : List EdgeRecord) (k : Nat) : edgeAt es (k + 1) = es[k]? := rfl
@[simp] theorem tableContents_exp (s : State) : s.tableContents.exp = s.expTable := rfl
@[simp] theorem tableContents_log (s : State) : s.tableContents.log = s.logTable := rfl

theorem startsRun_iff (r : EdgeRecord) : r.startsRun = true ↔ r.before.portIn.rst = false ∧
    r.before.portIn.cmdValid = true ∧ decode r.before.portIn.cmd = .command .start ∧ r.after.rspStatus = .ok := by
  simp [EdgeRecord.startsRun, EdgeRecord.acceptsCommand, and_assoc]

theorem acceptsCommand_iff (r : EdgeRecord) :
    r.acceptsCommand = true ↔ r.before.portIn.rst = false ∧ r.before.portIn.cmdValid = true := by
  simp [EdgeRecord.acceptsCommand]

theorem completes_iff (r : EdgeRecord) : r.completes = true ↔ r.after.valid = true ∧ r.after.phase = .idle := by
  simp [EdgeRecord.completes, State.generationComplete]

theorem edgeAt_drop (es : List EdgeRecord) (k n : Nat) (h : 0 < n) : edgeAt (es.drop k) n = edgeAt es (k + n) := by
  obtain ⟨m, rfl⟩ : ∃ m, n = m + 1 := ⟨n - 1, by omega⟩
  rw [← Nat.add_assoc, edgeAt_succ, edgeAt_succ, List.getElem?_drop]

/-! ## Edges in a row -/

/-- Everything a trace of at least one edge can be. -/
theorem trace_succ_inv {edge : State → Result} {n : Nat} {s : State} {es : List EdgeRecord}
    (h : trace edge (n + 1) s = some es) :
    ∃ t rest, edge s = .next t ∧ trace edge n t = some rest ∧ es = ⟨s, t⟩ :: rest := by
  rw [trace] at h
  split at h
  · obtain ⟨rest, hr, rfl⟩ := Option.map_eq_some_iff.1 h
    exact ⟨_, rest, ‹_›, hr, rfl⟩
  · cases h
  · cases h

theorem trace_length {edge : State → Result} : ∀ {n : Nat} {s : State} {es : List EdgeRecord},
    trace edge n s = some es → es.length = n
  | 0, _, _, h => by cases h; rfl
  | _ + 1, _, _, h => by
    obtain ⟨t, rest, -, hr, rfl⟩ := trace_succ_inv h
    rw [List.length_cons, trace_length hr]

/-- The records are the states `edges` gives, one edge apart. -/
theorem edges_of_trace {edge : State → Result} : ∀ {n : Nat} {s : State} {es : List EdgeRecord} {k : Nat}
    {r : EdgeRecord}, trace edge n s = some es → es[k]? = some r →
    edges edge k s = .next r.before ∧ edges edge (k + 1) s = .next r.after
  | 0, _, _, _, _, h, hk => by cases h; cases hk
  | n + 1, s, _, k, r, h, hk => by
    obtain ⟨t, rest, ht, hr, rfl⟩ := trace_succ_inv h
    cases k with
    | zero =>
      obtain rfl : (⟨s, t⟩ : EdgeRecord) = r := Option.some.inj hk
      exact ⟨rfl, by simp [edges, ht, andThen]⟩
    | succ k =>
      have := edges_of_trace hr (k := k) hk
      simp only [edges, ht, andThen]
      exact this

/-- Edges that all answer a state have a trace. -/
theorem trace_of_edges {edge : State → Result} : ∀ {n : Nat} {s t : State}, edges edge n s = .next t →
    ∃ es, trace edge n s = some es
  | 0, _, _, _ => ⟨[], rfl⟩
  | n + 1, s, t, h => by
    rw [edges] at h
    rcases hs : edge s with u | e | e <;> rw [hs] at h
    · obtain ⟨es, he⟩ := trace_of_edges (n := n) h
      exact ⟨⟨s, u⟩ :: es, by simp [trace, hs, he]⟩
    · cases h
    · cases h

/-! ## The first and the last edge of a kind -/

theorem firstEdgeWith_eq_none {p : EdgeRecord → Bool} {es : List EdgeRecord} :
    firstEdgeWith p es = none ↔ ∀ r ∈ es, p r = false := by
  induction es with
  | nil => simp [firstEdgeWith]
  | cons r rest ih => cases h : p r <;> simp [firstEdgeWith, h, ih]

theorem lastEdgeWith_eq_none {p : EdgeRecord → Bool} {es : List EdgeRecord} :
    lastEdgeWith p es = none ↔ ∀ r ∈ es, p r = false := by
  induction es with
  | nil => simp [lastEdgeWith]
  | cons r rest ih =>
    rcases h : lastEdgeWith p rest with _ | n
    · cases hp : p r <;> simp [lastEdgeWith, h, hp]
      exact ih.1 h
    · have := mt ih.2 (by simp [h])
      simp only [lastEdgeWith, h, List.mem_cons, forall_eq_or_imp]
      simp [this]

/-- The first edge of a kind is one of the kind, and no edge before it is. -/
theorem firstEdgeWith_spec {p : EdgeRecord → Bool} : ∀ {es : List EdgeRecord} {n : Nat}, firstEdgeWith p es = some n →
    (∃ r, edgeAt es n = some r ∧ p r = true) ∧ ∀ k r, k < n → edgeAt es k = some r → p r = false
  | [], _, h => by cases h
  | r :: rest, n, h => by
    rw [firstEdgeWith] at h
    cases hp : p r <;> simp only [hp, if_true, Bool.false_eq_true, if_false] at h
    · obtain ⟨m, hm, rfl⟩ := Option.map_eq_some_iff.1 h
      obtain ⟨⟨r', hr', hp'⟩, hbefore⟩ := firstEdgeWith_spec hm
      obtain ⟨j, rfl⟩ : ∃ j, m = j + 1 := by
        cases m with
        | zero => cases hr'
        | succ j => exact ⟨j, rfl⟩
      refine ⟨⟨r', hr', hp'⟩, fun k q hk hq => ?_⟩
      match k, hq with
      | 1, hq => cases hq; exact hp
      | k + 2, hq => exact hbefore (k + 1) q (by omega) hq
    · obtain rfl : 1 = n := Option.some.inj h
      refine ⟨⟨r, rfl, hp⟩, fun k q hk hq => ?_⟩
      obtain rfl : k = 0 := by omega
      cases hq

/-- The last edge of a kind is one of the kind, and no edge after it is. -/
theorem lastEdgeWith_spec {p : EdgeRecord → Bool} : ∀ {es : List EdgeRecord} {n : Nat}, lastEdgeWith p es = some n →
    (∃ r, edgeAt es n = some r ∧ p r = true) ∧ ∀ k r, n < k → edgeAt es k = some r → p r = false
  | [], _, h => by cases h
  | r :: rest, n, h => by
    rw [lastEdgeWith] at h
    rcases hl : lastEdgeWith p rest with _ | m <;> simp only [hl] at h
    · split at h
      · obtain rfl : 1 = n := Option.some.inj h
        refine ⟨⟨r, rfl, ‹_›⟩, fun k q hk hq => ?_⟩
        obtain ⟨j, rfl⟩ : ∃ j, k = j + 2 := ⟨k - 2, by omega⟩
        exact lastEdgeWith_eq_none.1 hl q (List.mem_of_getElem? hq)
      · cases h
    · obtain rfl : m + 1 = n := Option.some.inj h
      obtain ⟨⟨r', hr', hp'⟩, hafter⟩ := lastEdgeWith_spec hl
      obtain ⟨j, rfl⟩ : ∃ j, m = j + 1 := by
        cases m with
        | zero => cases hr'
        | succ j => exact ⟨j, rfl⟩
      refine ⟨⟨r', hr', hp'⟩, fun k q hk hq => ?_⟩
      obtain ⟨i, rfl⟩ : ∃ i, k = i + 2 := ⟨k - 2, by omega⟩
      exact hafter (i + 1) q (by omega) hq

theorem mem_of_edgeAt {es : List EdgeRecord} {n : Nat} {r : EdgeRecord} (h : edgeAt es n = some r) : r ∈ es := by
  cases n with
  | zero => cases h
  | succ n => exact List.mem_of_getElem? h

/-- Everything `firstEdgeWith` can answer. -/
theorem firstEdgeWith_eq_some {p : EdgeRecord → Bool} {es : List EdgeRecord} {n : Nat} : firstEdgeWith p es = some n ↔
    (∃ r, edgeAt es n = some r ∧ p r = true) ∧ ∀ k r, k < n → edgeAt es k = some r → p r = false := by
  refine ⟨firstEdgeWith_spec, fun ⟨⟨r, hr, hp⟩, hbefore⟩ => ?_⟩
  rcases hf : firstEdgeWith p es with _ | m
  · exact absurd hp (by simp [firstEdgeWith_eq_none.1 hf r (mem_of_edgeAt hr)])
  · obtain ⟨⟨r', hr', hp'⟩, hbefore'⟩ := firstEdgeWith_spec hf
    rcases Nat.lt_trichotomy m n with h | h | h
    · exact absurd hp' (by simp [hbefore m r' h hr'])
    · rw [h]
    · exact absurd hp (by simp [hbefore' n r h hr])

/-- Everything `lastEdgeWith` can answer. -/
theorem lastEdgeWith_eq_some {p : EdgeRecord → Bool} {es : List EdgeRecord} {n : Nat} : lastEdgeWith p es = some n ↔
    (∃ r, edgeAt es n = some r ∧ p r = true) ∧ ∀ k r, n < k → edgeAt es k = some r → p r = false := by
  refine ⟨lastEdgeWith_spec, fun ⟨⟨r, hr, hp⟩, hafter⟩ => ?_⟩
  rcases hl : lastEdgeWith p es with _ | m
  · exact absurd hp (by simp [lastEdgeWith_eq_none.1 hl r (mem_of_edgeAt hr)])
  · obtain ⟨⟨r', hr', hp'⟩, hafter'⟩ := lastEdgeWith_spec hl
    rcases Nat.lt_trichotomy m n with h | h | h
    · exact absurd hp (by simp [hafter' n r h hr])
    · rw [h]
    · exact absurd hp' (by simp [hafter m r' h hr'])

/-! ## Host programs -/

/-- `waitDone` answers the state after the last edge of its trace. -/
theorem waitDone_of_trace : ∀ {n : Nat} {s : State} {es : List EdgeRecord}, waitDoneTrace n s = some es →
    es ≠ [] ∧ waitDone n s = some (stateAfter s es)
  | 0, _, _, h => by cases h
  | n + 1, s, es, h => by
    rw [waitDoneTrace] at h
    rw [waitDone]
    rcases hs : step (s.drive (PortIn.present (encode .status))) with t | e | e <;> simp only [hs] at h ⊢
    · by_cases hb : t.rspData.getLsbD 0 = true
      · rw [if_pos hb] at h ⊢
        cases h
        exact ⟨List.cons_ne_nil _ _, rfl⟩
      · rw [if_neg hb] at h ⊢
        obtain ⟨rest, hr, rfl⟩ := Option.map_eq_some_iff.1 h
        obtain ⟨hne, hw⟩ := waitDone_of_trace hr
        obtain ⟨r, tl, rfl⟩ := List.exists_cons_of_ne_nil hne
        exact ⟨List.cons_ne_nil _ _, hw⟩
    · cases h
    · cases h

/-- Everything a program of at least one action can answer. -/
theorem playProgram_cons_inv {bound : Nat} {a : HostAction} {rest : List HostAction} {s : State}
    {es : List EdgeRecord} (h : playProgram bound (a :: rest) s = some es) :
    ∃ es1 es2, playAction bound a s = some es1 ∧ playProgram bound rest (stateAfter s es1) = some es2 ∧
      es = es1 ++ es2 := by
  rw [playProgram] at h
  split at h
  · obtain ⟨es2, h2, rfl⟩ := Option.map_eq_some_iff.1 h
    exact ⟨_, es2, ‹_›, h2, rfl⟩
  · cases h

end Sys2Proof.Machine
end

