-- ==== Sys2Proof/Laws/Steps.lean ====
section
/-! SUPPORT. What a command, a sequencer step and a clock edge can do, said once each: one equation for each case, and one
inversion lemma for the whole. -/

namespace Sys2Proof.Machine

/-! ## Commands -/

theorem exec_nop (s : State) : exec .nop s = .next (respond .ok 0x00 s) := rfl

theorem exec_start_idle {s : State} (h : s.phase = .idle) :
    exec .start s = .next (respond .ok 0x00 (beginGeneration s)) := if_pos h

theorem exec_start_busy {s : State} (h : s.phase ≠ .idle) : exec .start s = .next (raise .notReady s) := if_neg h

theorem exec_rdexp_notReady {s : State} (i : Byte) (h : s.valid = false) :
    exec (.rdexp i) s = .next (raise .notReady s) := if_pos h

theorem exec_rdexp_badIndex {s : State} (h : s.valid = true) :
    exec (.rdexp 0xFF) s = .next (raise .badIndex s) := by
  rw [exec, execRdexp, if_neg (by simp [h]), expIndex_sentinel]

theorem exec_rdexp_entry {s : State} {i : Byte} (h : s.valid = true) (hi : i ≠ 0xFF) :
    exec (.rdexp i) s = .next (respond .ok (entry .exp i.toNat s) s) := by
  simp [exec, execRdexp, h, expIndex_of_ne hi, respondEntry_of_lt s (sp := .exp) (toNat_lt_of_ne hi)]

theorem exec_rdlog_notReady {s : State} (b : Byte) (h : s.valid = false) :
    exec (.rdlog b) s = .next (raise .notReady s) := if_pos h

theorem exec_rdlog_entry {s : State} (b : Byte) (h : s.valid = true) :
    exec (.rdlog b) s = .next (respond .ok (entry .log b.toNat s) s) := by
  have := respondEntry_of_lt s (sp := .log) (k := logIndex b) (logIndex_lt b)
  simpa [exec, execRdlog, h, logIndex] using this

theorem exec_mulg (a : Byte) (s : State) : exec (.mulg a) s = .next (respond .ok (mulGen a) s) := rfl

theorem exec_status (s : State) : exec .status s = .next (respond .ok (statusByte s) s) := rfl

/-- Everything a command can do, under any modulus: it responds and writes nothing else, or it is a START from IDLE. -/
theorem execAt_cases (m : Modulus) (i : Instr) (s : State) :
    (∃ st d, execAt m i s = .next (respond st d s)) ∨
    (i = .start ∧ s.phase = .idle ∧ execAt m i s = .next (respond .ok 0x00 (beginGeneration s))) := by
  cases i with
  | nop => exact .inl ⟨_, _, rfl⟩
  | start =>
    by_cases h : s.phase = .idle
    · exact .inr ⟨rfl, h, exec_start_idle h⟩
    · exact .inl ⟨_, _, exec_start_busy h⟩
  | rdexp o =>
    rcases hv : s.valid with _ | _
    · exact .inl ⟨_, _, exec_rdexp_notReady o hv⟩
    · by_cases ho : o = 0xFF
      · exact .inl ⟨_, _, ho ▸ exec_rdexp_badIndex hv⟩
      · exact .inl ⟨_, _, exec_rdexp_entry hv ho⟩
  | rdlog o =>
    rcases hv : s.valid with _ | _
    · exact .inl ⟨_, _, exec_rdlog_notReady o hv⟩
    · exact .inl ⟨_, _, exec_rdlog_entry o hv⟩
  | mulg a => exact .inl ⟨_, _, rfl⟩
  | status => exact .inl ⟨_, _, rfl⟩

/-- The commands under the hardware's own modulus are `exec`'s. -/
theorem execAt_modulus : execAt Config.modulus = exec := by
  funext i s
  cases i <;> rfl

/-- The machine under the hardware's own modulus is `step`'s. -/
theorem stepAt_modulus : stepAt Config.modulus = step := by
  funext s
  rw [stepAt, execAt_modulus, step]

/-! ## The command part of an edge -/

theorem commandPart_command {run : Instr → State → Result} {s : State} {i : Instr} (hv : s.portIn.cmdValid = true)
    (hd : decode s.portIn.cmd = .command i) : commandPart run s = run i s := by
  simp [commandPart, hv, hd]

theorem commandPart_illegal {run : Instr → State → Result} {s : State} {why : IllegalReason}
    (hv : s.portIn.cmdValid = true) (hd : decode s.portIn.cmd = .illegalWord why) :
    commandPart run s = .next (raise .illegal s) := by
  simp [commandPart, hv, hd]

theorem commandPart_none {run : Instr → State → Result} {s : State} (hv : s.portIn.cmdValid = false) :
    commandPart run s = .next (noResponse s) := by
  simp [commandPart, hv]

/-- Everything the command part can do: it writes the response registers and nothing else, or it is an accepted START from
IDLE. -/
theorem commandPart_cases (m : Modulus) (s : State) :
    (∃ st d, commandPart (execAt m) s = .next (respond st d s)) ∨
    (s.portIn.cmdValid = false ∧ commandPart (execAt m) s = .next (noResponse s)) ∨
    (s.portIn.cmdValid = true ∧ decode s.portIn.cmd = .command .start ∧ s.phase = .idle ∧
      commandPart (execAt m) s = .next (respond .ok 0x00 (beginGeneration s))) := by
  rcases hv : s.portIn.cmdValid with _ | _
  · exact .inr (.inl ⟨rfl, commandPart_none hv⟩)
  · rcases hd : decode s.portIn.cmd with i | why
    · rw [commandPart_command hv hd]
      rcases execAt_cases m i s with h | ⟨rfl, h⟩
      · exact .inl h
      · exact .inr (.inr ⟨rfl, rfl, h⟩)
    · exact .inl ⟨_, _, commandPart_illegal hv hd⟩

/-! ## The sequencer -/

/-- The EXP_GEN step before its last index. -/
theorem expGenStep_inner (m : Modulus) {pre : State} (post : State) (h : pre.idx.toNat < 254) :
    expGenStep m pre post =
      .next { post.setTable .exp (post.expMem.write pre.idx.toNat pre.cur) with
        cur := mulGenAt m pre.cur, idx := pre.idx + 1 } := by
  have h2 : pre.idx ≠ 254 := fun h3 => absurd h (by simp [h3])
  rw [expGenStep, memWrite_of_lt _ _ (by simpa using by omega)]
  simp only [table_exp, if_neg h2]

/-- The last EXP_GEN step. -/
theorem expGenStep_last (m : Modulus) {pre : State} (post : State) (h : pre.idx = 254) :
    expGenStep m pre post =
      .next { post.setTable .exp (post.expMem.write 254 pre.cur) with
        cur := mulGenAt m pre.cur, phase := .logInit, idx := 0 } := by
  rw [expGenStep, h]
  rfl

theorem idxByte_toNat {i : Idx} (h : i.toNat < 256) : (idxByte i).toNat = i.toNat := by
  simp [idxByte, BitVec.toNat_setWidth, Nat.mod_eq_of_lt h]

/-- An increment of `idx` that does not wrap; R86 says none does. (`1#9` is simp's spelling of `1`.) -/
theorem idx_succ_toNat {i : Idx} (h : i.toNat < 511) : (i + 1#9).toNat = i.toNat + 1 := by
  rw [BitVec.toNat_add, show BitVec.toNat 1#9 = 1 from rfl, Nat.mod_eq_of_lt (by omega)]

/-- The LOG_INIT step before its last index. -/
theorem logInitStep_inner {pre : State} (post : State) (h : pre.idx.toNat < 255) :
    logInitStep pre post =
      .next { post.setTable .log (post.logMem.write pre.idx.toNat Config.sentinel) with idx := pre.idx + 1 } := by
  have h2 : pre.idx ≠ 255 := fun h3 => absurd h (by simp [h3])
  rw [logInitStep, idxByte_toNat (by omega), memWrite_of_lt _ _ (by simpa using by omega)]
  simp only [table_log, if_neg h2]

/-- The last LOG_INIT step. -/
theorem logInitStep_last {pre : State} (post : State) (h : pre.idx = 255) :
    logInitStep pre post =
      .next { post.setTable .log (post.logMem.write 255 Config.sentinel) with phase := .logInv, idx := 0 } := by
  rw [logInitStep, h]
  rfl

/-- The LOG_INV step before its last index. -/
theorem logInvStep_inner {pre : State} (post : State) (h : pre.idx.toNat < 254) :
    logInvStep pre post =
      .next { post.setTable .log (post.logMem.write (entry .exp pre.idx.toNat pre).toNat (idxByte pre.idx)) with
        idx := pre.idx + 1 } := by
  have h2 : pre.idx ≠ 254 := fun h3 => absurd h (by simp [h3])
  rw [logInvStep, memRead_of_lt _ (by simpa using by omega)]
  simp only []
  rw [memWrite_of_lt _ _ (by simpa using (entry .exp pre.idx.toNat pre).isLt)]
  simp only [table_log, if_neg h2]

/-- The last LOG_INV step. -/
theorem logInvStep_last {pre : State} (post : State) (h : pre.idx = 254) :
    logInvStep pre post =
      .next { post.setTable .log (post.logMem.write (entry .exp 254 pre).toNat 254) with
        phase := .idle, idx := 0, valid := true } := by
  rw [logInvStep, h, show BitVec.toNat (254 : Idx) = 254 from rfl, memRead_of_lt _ (by simp)]
  simp only []
  rw [memWrite_of_lt _ _ (by simpa using (entry .exp 254 pre).isLt)]
  rfl

/-! ## One clock edge -/

theorem clockEdge_reset {run : Instr → State → Result} {m : Modulus} {s : State} (h : s.portIn.rst = true) :
    clockEdge run m s = .next (resetEdge s).shiftInputs := if_pos h

theorem clockEdge_outside {run : Instr → State → Result} {m : Modulus} {s : State} (h : s.portIn.rst = false)
    (hr : reachableAt m s = false) : clockEdge run m s = .refused .outsideInvariant := by
  simp [clockEdge, h, hr]

theorem clockEdge_run {run : Instr → State → Result} {m : Modulus} {s : State} (h : s.portIn.rst = false)
    (hr : reachableAt m s = true) :
    clockEdge run m s = andThen (commandPart run s) fun s1 =>
      andThen (sequencerPart m s s1) fun s2 => .next s2.shiftInputs := by
  simp [clockEdge, h, hr]

/-- Everything an edge that answers a state can be: a reset edge, or an edge inside the invariant whose two parts both
answer. -/
theorem clockEdge_inv {run : Instr → State → Result} {m : Modulus} {s t : State} (h : clockEdge run m s = .next t) :
    (s.portIn.rst = true ∧ t = (resetEdge s).shiftInputs) ∨
    (s.portIn.rst = false ∧ reachableAt m s = true ∧
      ∃ s1 s2, commandPart run s = .next s1 ∧ sequencerPart m s s1 = .next s2 ∧ t = s2.shiftInputs) := by
  rcases hr : s.portIn.rst with _ | _
  · rcases hi : reachableAt m s with _ | _
    · rw [clockEdge_outside hr hi] at h
      cases h
    · rw [clockEdge_run hr hi] at h
      obtain ⟨s1, h1, h⟩ := andThen_inv h
      obtain ⟨s2, h2, h⟩ := andThen_inv h
      exact .inr ⟨rfl, rfl, s1, s2, h1, h2, (Host.Outcome.next.inj h).symm⟩
  · rw [clockEdge_reset hr] at h
    exact .inl ⟨rfl, (Host.Outcome.next.inj h).symm⟩

end Sys2Proof.Machine
end

