-- ==== Sys2Proof/Tests/Slice0.lean ====
section
/-! SUPPORT. The model's own tests, each one step or one operation, with expected values taken from the spec (the source of
each is named), the smoke tests of the checks, and for every statement with hypotheses a state and operands that meet them. -/

namespace Sys2Proof.Tests

open Sys2Proof.Machine

/-! ## Small states -/

/-- The reset state with one command on the port. -/
def idleWith (w : CmdWord) : State := presentNext w State.reset

/-- A state of a generation under way, with one command on the port. -/
def busyWith (ph : Phase) (i : Idx) (c : Byte) (w : CmdWord) : State :=
  { State.reset with phase := ph, idx := i, cur := c, inputs := [PortIn.present w] }

/-- A state of LOG_INV whose last two EXP entries are written, with one command on the port. -/
def invWith (i : Idx) (w : CmdWord) : State :=
  { busyWith .logInv i 1 w with expMem := [(253, 0x47), (254, 0x8E)] }

/-- A state with `valid` = 1 and a few entries of each table, with one command on the port. -/
def validWith (w : CmdWord) : State :=
  { State.reset with
    valid := true
    expMem := [(0, 0x01), (8, 0x1D), (254, 0x8E)]
    logMem := [(0, 0xFF), (1, 0x00), (29, 0x08)]
    inputs := [PortIn.present w] }

/-- The answer of a step, as a state. -/
def after (r : Result) : Option State :=
  match r with
  | .next s => some s
  | .fault _ => none
  | .refused _ => none

/-- The response of a step: `rsp_valid`, `rsp_status`, `rsp_data`. -/
def responseOf (s : State) : Option (Bool × Status × Byte) :=
  (after (step s)).map fun t => (t.rspValid, t.rspStatus, t.rspData)

/-! ## What is ill formed is refused (30_encoding.md R68, R70; 10_state.md R33) -/

theorem test_wf_operand_missing : (SourceLine.mk .rdexp none).wellFormed = false := by decide
theorem test_wf_operand_stray : (SourceLine.mk .start (some 0)).wellFormed = false := by decide
theorem test_wf_operand_too_large : (SourceLine.mk .mulg (some 256)).wellFormed = false := by decide
theorem test_wf_operand_largest : (SourceLine.mk .rdexp (some 255)).wellFormed = true := by decide
theorem test_wf_bare : (SourceLine.mk .status none).wellFormed = true := by decide
theorem test_word_reserved_field : legalWord 0x21FF = false := by decide
theorem test_word_reserved_opcode : legalWord 0x6000 = false := by decide
theorem test_word_stray_operand : legalWord 0x1001 = false := by decide
theorem test_word_legal : legalWord 0x20FF = true := by decide
theorem test_memory_unsorted : ¬ Memory.wf 255 [(3, 1), (2, 1)] := by decide
theorem test_memory_repeat : ¬ Memory.wf 255 [(2, 1), (2, 1)] := by decide
theorem test_memory_outside : ¬ Memory.wf 255 [(255, 1)] := by decide
theorem test_memory_reset : Memory.wf 255 State.reset.expMem ∧ Memory.wf 256 State.reset.logMem := by decide
theorem test_outside_idx : (after (step (busyWith .logInit 300 1 0x0000))) = none := by decide
theorem test_outside_cur : (after (step (busyWith .expGen 1 0x05 0x0000))) = none := by decide
theorem test_outside_valid : reachable { State.reset with valid := true, phase := .logInv } = false := by decide
theorem test_outside_idle : reachable { State.reset with idx := 1 } = false := by decide

/-! ## Words written out from the encodings (30_encoding.md R62, R63), bit 15 first -/

theorem test_decode_nop : decode 0b0000_0000_00000000 = .command .nop := by decide
theorem test_decode_start : decode 0b0001_0000_00000000 = .command .start := by decide
theorem test_decode_rdexp : decode 0b0010_0000_10000001 = .command (.rdexp 0x81) := by decide
theorem test_decode_rdlog : decode 0b0011_0000_00011101 = .command (.rdlog 29) := by decide
theorem test_decode_mulg : decode 0b0100_0000_10001110 = .command (.mulg 0x8E) := by decide
theorem test_decode_status : decode 0b0101_0000_00000000 = .command .status := by decide
theorem test_decode_reserved : decode 0b0111_0000_00000000 = .illegalWord .reservedOpcode := by decide
theorem test_table_word : decodeTableWord 16 0x2008 = some (.rdexp 8) := by decide
theorem test_table_word_illegal : decodeTableWord 16 0x0001 = none := by decide
theorem test_encode_rdexp : encode (.rdexp 8) = 0x2008 := by decide
theorem test_encode_mulg : encode (.mulg 128) = 0x4080 := by decide

/-! ## The assembler (30_encoding.md R70, with its examples) -/

theorem test_assemble_rdexp : assembleLine ['R', 'D', 'E', 'X', 'P', ' ', '8'] = .command (.rdexp 8) := by decide
theorem test_assemble_hex :
    assembleLine [' ', 'r', 'd', 'L', 'o', 'g', ' ', '0', 'x', '1', 'D', ';', 'x'] = .command (.rdlog 0x1D) := by decide
theorem test_assemble_too_large : assembleLine ['M', 'U', 'L', 'G', ' ', '2', '5', '6'] = .refused .illFormed := by decide
theorem test_assemble_stray : assembleLine ['N', 'O', 'P', ' ', '0'] = .refused .illFormed := by decide
theorem test_assemble_program : assemble [['-'], [';'], ['N', 'O', 'P']] =
    some [PortIn.quiet, PortIn.present 0x0000] := by decide

/-! ## One step of each command (95_test_vectors.md sections 2.1, 2.2 and 2.5) -/

theorem test_nop : responseOf (idleWith 0x0000) = some (true, .ok, 0x00) := by decide
theorem test_start : (after (step (idleWith 0x1000))).map (fun t => (t.phase, t.idx, t.cur, t.valid)) =
    some (.expGen, 0, 0x01, false) := by decide
theorem test_start_busy : responseOf (busyWith .expGen 0 1 0x1000) = some (true, .notReady, 0x00) := by decide
theorem test_rdexp_not_ready : responseOf (idleWith 0x20FF) = some (true, .notReady, 0x00) := by decide
theorem test_rdexp_bad_index : responseOf (validWith 0x20FF) = some (true, .badIndex, 0x00) := by decide
theorem test_rdexp_entry : responseOf (validWith 0x2008) = some (true, .ok, 0x1D) := by decide
theorem test_rdlog_entry : responseOf (validWith 0x301D) = some (true, .ok, 0x08) := by decide
theorem test_rdlog_zero : responseOf (validWith 0x3000) = some (true, .ok, 0xFF) := by decide
theorem test_mulg_reduces : responseOf (busyWith .expGen 0 1 0x4080) = some (true, .ok, 0x1D) := by decide
theorem test_mulg_all_ones : responseOf (idleWith 0x40FF) = some (true, .ok, 0xE3) := by decide
theorem test_status_exp_gen : responseOf (busyWith .expGen 0 1 0x5000) = some (true, .ok, 0x06) := by decide
theorem test_status_completing : responseOf (invWith 254 0x5000) = some (true, .ok, 0x0E) := by decide
theorem test_illegal : responseOf (validWith 0x21FF) = some (true, .illegal, 0x00) := by decide
theorem test_no_command : responseOf State.reset = some (false, .ok, 0x00) := by decide
theorem test_with_fetch_word : responseOf (State.reset.withFetchWord 16 0x4080) = some (true, .ok, 0x1D) := by decide
theorem test_reset_drops_command :
    after (step { busyWith .logInv 100 1 0 with inputs := [⟨true, true, 0x5000⟩] }) = some State.reset := by decide

/-! ## One edge of each phase (95_test_vectors.md sections 2.3 and 2.4) -/

theorem test_exp_gen_edge : (after (step (busyWith .expGen 8 0x1D 0x0000))).map (fun t => (t.idx, t.cur, t.expMem)) =
    some (9, 0x3A, [(8, 0x1D)]) := by decide
theorem test_exp_gen_last : (after (step (busyWith .expGen 254 0x8E 0x0000))).map
    (fun t => (t.phase, t.idx, t.cur, t.expMem)) = some (.logInit, 0, 0x01, [(254, 0x8E)]) := by decide +kernel
theorem test_log_init_last : (after (step (busyWith .logInit 255 1 0x0000))).map (fun t => (t.phase, t.idx, t.logMem)) =
    some (.logInv, 0, [(255, 0xFF)]) := by decide
theorem test_log_inv_last : (after (step (invWith 254 0x0000))).map
    (fun t => (t.phase, t.idx, t.valid, t.logMem)) = some (.idle, 0, true, [(0x8E, 254)]) := by decide
theorem test_product : gfMulRef 0x53 0xCA = 0x8F ∧ carrylessProduct 0x53 0xCA = 0x3F7E := by decide

/-! ## The parameters (00_scope.md R5): the generator is what the reducer multiplies by, and the three phases make T_GEN -/

theorem test_generator : genPow 1 = Config.gen ∧ mulGen 0x53 = gfMulRef 0x53 Config.gen := by decide
theorem test_t_gen : Config.tGen = Config.expLen + Config.logLen + Config.expLen := by decide

/-! ## A state whose tables are complete -/

/-- Storage that lists `f k` for every `k` below `n`. -/
def filled (n : Nat) (f : Nat → Byte) : Memory := (List.range n).map fun k => (k, f k)

theorem filled_wf (n : Nat) (f : Nat → Byte) : Memory.wf n (filled n f) := by
  refine ⟨?_, fun c hc => ?_⟩
  · exact List.pairwise_map.2 (List.pairwise_lt_range (n := n))
  · obtain ⟨k, hk, rfl⟩ := List.mem_map.1 hc
    exact List.mem_range.1 hk

theorem read_map (l : List Nat) (f : Nat → Byte) (k : Nat) (h : k ∈ l) :
    Memory.read (l.map fun k => (k, f k)) k = some (f k) := by
  induction l with
  | nil => cases h
  | cons a l ih =>
    rw [List.map_cons, memory_read_cons]
    by_cases hk : k = a
    · rw [if_pos hk, hk]
    · rw [if_neg hk]
      exact ih ((List.mem_cons.1 h).resolve_left hk)

theorem filled_read (n : Nat) (f : Nat → Byte) (k : Nat) (h : k < n) : Memory.read (filled n f) k = some (f k) :=
  read_map _ f k (List.mem_range.2 h)

/-- The state after a completed generation under `m`, with one command on the port. -/
def fullAt (m : Modulus) (w : CmdWord) : State :=
  { State.reset with
    cur := genPowAt m 255
    valid := true
    expMem := filled 255 (genPowAt m)
    logMem := filled 256 fun k => logAfterAt m 255 (BitVec.ofNat 8 k)
    inputs := [PortIn.present w] }

/-- Complete tables meet the invariant; no hypothesis about a completed generation is empty. -/
theorem full_has_invariant (m : Modulus) (w : CmdWord) : MachineInvariant m (fullAt m w) where
  reachable := rfl
  curHeld := rfl
  expWritten k hk := filled_read 255 (genPowAt m) k hk
  logWritten b v hv := by
    have h := filled_read 256 (fun k => logAfterAt m 255 (BitVec.ofNat 8 k)) b.toNat b.isLt
    rw [BitVec.ofNat_toNat, BitVec.setWidth_eq] at h
    exact h.trans hv
  errorHasNoData _ := rfl
  silentIsZero _ := ⟨rfl, rfl⟩
  expCanonical := filled_wf 255 _
  logCanonical := filled_wf 256 fun k => logAfterAt m 255 (BitVec.ofNat 8 k)

/-! ## The end of a run and of a host program (70_reset_and_hazards.md R190), on records written out -/

/-- An accepted START that returned OK, an edge of the generation, and an edge that completes it. -/
def startEdge : EdgeRecord := ⟨idleWith 0x1000, busyWith .expGen 0 1 0x5000⟩
def busyEdge : EdgeRecord := ⟨busyWith .expGen 0 1 0x5000, busyWith .expGen 1 2 0x0000⟩
def completingEdge : EdgeRecord := ⟨invWith 254 0x0000, validWith 0x2008⟩

/-- A START that is refused (R185) begins no run. -/
def refusedStartEdge : EdgeRecord :=
  ⟨busyWith .logInv 0 1 0x1000, { busyWith .logInv 1 1 0 with rspStatus := .notReady }⟩

theorem test_run_ends_at_first_completion :
    runEnd [startEdge, busyEdge, refusedStartEdge, completingEdge, completingEdge] = some 4 := by decide
theorem test_run_counts_from_last_start :
    runEnd [startEdge, completingEdge, startEdge, busyEdge, completingEdge] = some 5 ∧
    runEnd [startEdge, completingEdge, startEdge, busyEdge] = none ∧ runEnd [completingEdge] = none := by decide

/-- P5's STATUS at edge 303 is dropped by the reset and gets no response (95_test_vectors.md section 5). -/
theorem test_program_ends_after_last_sample :
    programEnd [startEdge, busyEdge, ⟨State.reset, State.reset⟩] = some 3 ∧
    programEnd [startEdge, ⟨State.reset.drive ⟨true, true, 0x5000⟩, State.reset⟩] = some 2 := by decide

/-! ## The hypotheses of the statements are met

Each theorem is named after its statement; its clauses meet the hypotheses of the statement's clauses, at a boundary value
where there is one. -/

theorem start_word : (0x1000 : CmdWord) = encode .start := by decide

/-- A state about to begin a generation. -/
theorem starts_from_reset (m : Modulus) (n : Nat) : StartsGeneration m n (idleWith 0x1000) where
  idle := rfl
  reachable := rfl
  start := ⟨rfl, rfl, start_word⟩
  noReset d hd := by
    have h := List.mem_of_mem_take hd
    rcases List.mem_cons.1 h with rfl | h
    · rfl
    · cases h

theorem starts_from_full (m : Modulus) (n : Nat) : StartsGeneration m n (fullAt m 0x1000) where
  idle := rfl
  reachable := rfl
  start := ⟨rfl, rfl, start_word⟩
  noReset d hd := by
    have h := List.mem_of_mem_take hd
    rcases List.mem_cons.1 h with rfl | h
    · rfl
    · cases h

/-- One command and then nothing is a schedule without reset. -/
theorem no_reset_of_single (s : State) (w : CmdWord) (n : Nat) (h : s.inputs = [PortIn.present w]) : s.noResetFor n := by
  intro d hd
  have hd := List.mem_of_mem_take hd
  rw [h] at hd
  rcases List.mem_cons.1 hd with rfl | hd
  · rfl
  · cases hd

theorem meets_DecodeFollowsTheRule :
    (∃ why, decode (formatC 0x2 0x1 0xFF) = .illegalWord why) ∧ decode (formatC 0x0 0 0) = .command .nop ∧
    (∃ why, decode (formatC 0x0 0 0x01) = .illegalWord why) ∧ decode (formatC 0x1 0 0) = .command .start ∧
    (∃ why, decode (formatC 0x1 0 0x80) = .illegalWord why) ∧ decode (formatC 0x2 0 0xFF) = .command (.rdexp 0xFF) ∧
    decode (formatC 0x3 0 0) = .command (.rdlog 0) ∧ decode (formatC 0x4 0 0xFF) = .command (.mulg 0xFF) ∧
    decode (formatC 0x5 0 0) = .command .status ∧ (∃ why, decode (formatC 0x5 0 0xFF) = .illegalWord why) ∧
    (6 ≤ (0x6 : BitVec 4).toNat ∧ ∃ why, decode (formatC 0x6 0 0) = .illegalWord why) ∧
    (6 ≤ (0xF : BitVec 4).toNat ∧ ∃ why, decode (formatC 0xF 0 0xFF) = .illegalWord why) :=
  ⟨⟨_, rfl⟩, rfl, ⟨_, rfl⟩, rfl, ⟨_, rfl⟩, rfl, rfl, rfl, rfl, ⟨_, rfl⟩, ⟨by decide, _, rfl⟩, ⟨by decide, _, rfl⟩⟩

theorem meets_DecodeSelectsTheOpcodeRow :
    (OpcodeRow.mk .rdexp 0x2000 0xFF00) ∈ opcodeTable ∧ (OpcodeRow.mk .rdexp 0x2000 0xFF00).selects 0x20FF = true ∧
    decode 0x20FF = .command (.rdexp 0xFF) ∧ (Instr.rdexp 0xFF).operand = some 0xFF := by decide

theorem meets_DecodeAndEncodeAgree : decode 0x30FF = .command (.rdlog 0xFF) ∧ decode 0x5000 = .command .status := by
  decide

theorem meets_AssemblerKeepsTheOperand :
    (SourceLine.mk .mulg (some 255)).wellFormed = true ∧ (SourceLine.mk .nop none).wellFormed = true ∧
    (SourceLine.mk .rdlog (some 256)).wellFormed = false := by decide

theorem meets_StepRunsTheDecodedCommand :
    (idleWith 0x1000).noResetNext ∧ reachable (idleWith 0x1000) = true ∧ (idleWith 0x1000).portIn.cmdValid = true ∧
    decode (idleWith 0x1000).portIn.cmd = .command .start := ⟨rfl, by decide, rfl, by decide⟩

theorem meets_PresentedWordIsRunNext : State.reset.phase = .idle ∧ reachable State.reset = true := by decide

theorem reset_has_shape : ReachableShape State.reset :=
  ⟨by decide, by decide, by decide, by decide, by decide⟩

theorem outside_has_no_shape : ¬ ReachableShape (busyWith .logInv 255 1 0x0000) :=
  fun h => absurd (h.logInv rfl) (by decide)

theorem meets_StepStopsOnlyOutsideTheInvariant :
    (busyWith .logInv 255 1 0x0000).portIn.rst = false ∧ ¬ ReachableShape (busyWith .logInv 255 1 0x0000) :=
  ⟨rfl, outside_has_no_shape⟩

theorem meets_ReachableStatesStayInTheInvariant :
    ({ State.reset with inputs := [PortIn.reset] }).portIn.rst = true ∧
    (ReachableShape State.reset ∧ ∃ t, step State.reset = .next t) ∧
    ((busyWith .logInv 255 1 0x0000).noResetNext ∧ ¬ ReachableShape (busyWith .logInv 255 1 0x0000)) :=
  ⟨rfl, ⟨reset_has_shape, _, rfl⟩, rfl, outside_has_no_shape⟩

theorem meets_NopOnlyResponds :
    (opField 0x00FF = 0x0 ∧ (0x00FF : CmdWord) ≠ 0x0000) ∧
    reachable (busyWith .logInit 255 1 0x0000) = true ∧ (busyWith .logInit 255 1 0x0000).accepts 0x0000 :=
  ⟨by decide, by decide, rfl, rfl, rfl⟩

theorem meets_StartBeginsGeneration :
    State.reset.phase = .idle ∧ (busyWith .expGen 0 1 0x1000).phase ≠ .idle ∧
    (opField 0x1001 = 0x1 ∧ (0x1001 : CmdWord) ≠ 0x1000) ∧
    (reachable (idleWith 0x1000) = true ∧ (idleWith 0x1000).accepts 0x1000) ∧
    ((invWith 254 0x1000).idx = 254 ∧ reachable (invWith 254 0x1000) = true ∧
      (invWith 254 0x1000).accepts 0x1000) :=
  ⟨rfl, by decide, by decide, ⟨by decide, rfl, rfl, rfl⟩, rfl, by decide, rfl, rfl, rfl⟩

theorem meets_RdexpReadsTheEntry :
    decode 0x20FE = .command (.rdexp 254) ∧ State.reset.valid = false ∧ (validWith 0x2000).valid = true ∧
    (254 : Byte) ≠ 255 ∧ (MachineInvariant Config.modulus (fullAt Config.modulus 0) ∧
      (fullAt Config.modulus 0).valid = true) :=
  ⟨by decide, rfl, rfl, by decide, full_has_invariant _ _, rfl⟩

theorem meets_RdlogReadsTheEntry :
    decode 0x30FF = .command (.rdlog 255) ∧ State.reset.valid = false ∧ (validWith 0x3000).valid = true ∧
    (MachineInvariant Config.modulus (fullAt Config.modulus 0) ∧ (fullAt Config.modulus 0).valid = true) :=
  ⟨by decide, rfl, rfl, full_has_invariant _ _, rfl⟩

theorem meets_MulgAppliesTheReducer :
    decode 0x40FF = .command (.mulg 0xFF) ∧ (opField 0x4F80 = 0x4 ∧ rsvField 0x4F80 ≠ 0) ∧
    reachable (busyWith .expGen 254 0x8E 0x4080) = true ∧ (busyWith .expGen 254 0x8E 0x4080).accepts 0x4080 :=
  ⟨by decide +kernel, by decide +kernel, by decide +kernel, rfl, rfl, rfl⟩

theorem meets_StatusReportsTheByte :
    (opField 0x5001 = 0x5 ∧ (0x5001 : CmdWord) ≠ 0x5000) ∧ ReachableShape State.reset ∧
    (ReachableShape (busyWith .expGen 0 1 0) ∧ ReachableShape (busyWith .logInit 255 1 0) ∧
      ReachableShape (invWith 254 0) ∧ ReachableShape (validWith 0)) ∧
    ((invWith 254 0x5000).idx = 254 ∧ reachable (invWith 254 0x5000) = true ∧
      (invWith 254 0x5000).accepts 0x5000) :=
  ⟨by decide, reset_has_shape,
    ⟨⟨by decide, by decide, by decide, by decide, by decide⟩, ⟨by decide, by decide, by decide, by decide, by decide⟩,
      ⟨by decide, by decide, by decide, by decide, by decide⟩, ⟨by decide, by decide, by decide, by decide, by decide⟩⟩,
    rfl, by decide, rfl, rfl, rfl⟩

theorem meets_CommandsChangeOnlyWhatTheirRuleNames :
    (∃ t, exec .status State.reset = .next t) ∧ ¬ (Instr.status = .start ∧ State.reset.phase = .idle) ∧
    ∃ t, exec .start State.reset = .next t := ⟨⟨_, rfl⟩, by decide, _, rfl⟩

theorem meets_HiddenRegistersReachNoResponse :
    ∃ t t', exec .status State.reset = .next t ∧
      exec .status { State.reset with cur := 0xFF, idx := 511 } = .next t' := ⟨_, _, rfl, rfl⟩

theorem meets_StatusCodesAndTheirCauses :
    (∃ t, exec (.rdexp 255) (validWith 0) = .next t ∧ t.rspStatus = .badIndex) ∧
    (∃ t, exec (.rdlog 0) State.reset = .next t ∧ t.rspStatus = .notReady) ∧
    ∃ t, step (idleWith 0x6000) = .next t ∧ t.rspStatus = .illegal := ⟨⟨_, rfl, rfl⟩, ⟨_, rfl, rfl⟩, _, rfl, rfl⟩

theorem meets_EveryEdgeReplacesTheResponse :
    (∃ t, step (idleWith 0) = .next t ∧ t.rspValid = true) ∧ (∃ t, step State.reset = .next t ∧ t.rspValid = false) ∧
    ReachableShape State.reset := ⟨⟨_, rfl, rfl⟩, ⟨_, rfl, rfl⟩, reset_has_shape⟩

theorem meets_IllegalWordsRaiseIllegal :
    (reachable (idleWith 0xF0FF) = true ∧ (idleWith 0xF0FF).accepts 0xF0FF) ∧
    ∃ t, step (idleWith 0xF0FF) = .next t ∧ t.rspStatus = .illegal := ⟨⟨by decide, rfl, rfl, rfl⟩, _, rfl, rfl⟩

theorem meets_NotReadyHasNoOtherEffect :
    (reachable (idleWith 0x20FF) = true ∧ (idleWith 0x20FF).accepts 0x20FF ∧
      decode 0x20FF = .command (.rdexp 255) ∧ (idleWith 0x20FF).valid = false) ∧
    (reachable (busyWith .expGen 254 0x8E 0x1000) = true ∧ (busyWith .expGen 254 0x8E 0x1000).accepts 0x1000 ∧
      decode 0x1000 = .command .start ∧ (busyWith .expGen 254 0x8E 0x1000).phase ≠ .idle) ∧
    ∃ t, exec (.rdlog 0) State.reset = .next t ∧ t.rspStatus = .notReady :=
  ⟨⟨by decide +kernel, ⟨rfl, rfl, rfl⟩, by decide +kernel, rfl⟩, ⟨by decide +kernel, ⟨rfl, rfl, rfl⟩, by decide +kernel, by decide +kernel⟩, _, rfl, rfl⟩

theorem meets_SentinelIndexIsBadIndex :
    (reachable (validWith 0x20FF) = true ∧ (validWith 0x20FF).valid = true ∧ (validWith 0x20FF).accepts 0x20FF) ∧
    ∃ t, exec (.rdexp 254) (validWith 0) = .next t := ⟨⟨by decide, rfl, rfl, rfl, rfl⟩, _, rfl⟩

theorem meets_FirstCauseIsReported :
    (reachable (idleWith 0x20FF) = true ∧ (idleWith 0x20FF).valid = false ∧ (idleWith 0x20FF).accepts 0x20FF) ∧
    (reachable (validWith 0x21FF) = true ∧ (validWith 0x21FF).accepts 0x21FF) ∧
    ({ State.reset with inputs := [PortIn.reset] }).portIn.rst = true :=
  ⟨⟨by decide, rfl, rfl, rfl, rfl⟩, ⟨by decide, rfl, rfl, rfl⟩, rfl⟩

theorem meets_ReducerShiftsAndReduces :
    Config.modulus.getLsbD 8 = true ∧ (0x100 : BitVec 9).getLsbD 8 = true := by decide

theorem meets_ReducerIsALinearBijection : (0x80 : Byte) ≠ 0 ∧ (0x7F : Byte).getLsbD 7 = false := by decide

theorem meets_TableProductIsTheReferenceProduct : (fullAt Config.modulus 0).tablesComplete Config.modulus ∧ (1 : Byte) ≠ 0 :=
  ⟨⟨fun k hk => entry_of_read (filled_read 255 _ k hk), fun b =>
    entry_of_read ((full_has_invariant Config.modulus 0).logWritten b _ rfl)⟩, by decide⟩

theorem meets_ExpGenEdgeWritesOnePower :
    ((busyWith .expGen 254 0x8E 0x1000).noResetNext ∧ reachable (busyWith .expGen 254 0x8E 0x1000) = true ∧
      (busyWith .expGen 254 0x8E 0x1000).idx = 254 ∧
      (busyWith .expGen 254 0x8E 0x1000).accepts (encode .start)) ∧
    ((busyWith .expGen 253 0x47 0).noResetNext ∧ reachable (busyWith .expGen 253 0x47 0) = true ∧
      (busyWith .expGen 253 0x47 0).idx ≠ 254) ∧
    (reachable (busyWith .expGen 0 1 0) = true ∧ (busyWith .expGen 0 1 0).noResetFor 255) :=
  ⟨⟨rfl, by decide +kernel, rfl, rfl, rfl, by decide +kernel⟩, ⟨rfl, by decide +kernel, by decide +kernel⟩, by decide +kernel, no_reset_of_single _ _ _ rfl⟩

theorem meets_LogInitEdgeWritesTheSentinel :
    ((busyWith .logInit 255 1 0).noResetNext ∧ reachable (busyWith .logInit 255 1 0) = true) ∧
    ((busyWith .logInit 254 1 0).noResetNext ∧ reachable (busyWith .logInit 254 1 0) = true) ∧
    (reachable (busyWith .logInit 0 1 0) = true ∧ (busyWith .logInit 0 1 0).noResetFor 256) :=
  ⟨⟨rfl, by decide⟩, ⟨rfl, by decide⟩, by decide, no_reset_of_single _ _ _ rfl⟩

theorem meets_LogInvEdgeInvertsOneEntry :
    ((invWith 254 0).noResetNext ∧ reachable (invWith 254 0) = true) ∧
    ((invWith 253 0).noResetNext ∧ reachable (invWith 253 0) = true) ∧
    (reachable (busyWith .logInv 0 1 0) = true ∧ (busyWith .logInv 0 1 0).noResetFor 255) :=
  ⟨⟨rfl, by decide⟩, ⟨rfl, by decide⟩, by decide, no_reset_of_single _ _ _ rfl⟩

theorem meets_SequencerAdvancesOnePosition :
    ((invWith 254 0).noResetNext ∧ (∃ t, step (invWith 254 0) = .next t) ∧
      (invWith 254 0).phase ≠ .idle) ∧
    ((idleWith 0x1000).noResetNext ∧ (∃ t, step (idleWith 0x1000) = .next t) ∧ (idleWith 0x1000).phase = .idle) ∧
    (State.reset.noResetNext ∧ ∃ t, step State.reset = .next t) :=
  ⟨⟨rfl, ⟨_, rfl⟩, by decide⟩, ⟨rfl, ⟨_, rfl⟩, rfl⟩, rfl, _, rfl⟩

theorem meets_CommandsNeverDelayTheSequencer :
    reachable (busyWith .expGen 0 1 0) = true ∧ PortIn.quiet.rst = false ∧ (PortIn.present 0x1000).rst = false ∧
    ((busyWith .expGen 0 1 0).phase = .idle → False) ∧
    (State.reset.phase = .idle ∧ ¬ ((PortIn.present 0x5000).cmdValid = true ∧
      (PortIn.present 0x5000).cmd = encode .start)) := by decide

theorem meets_OnlyTheSequencerWritesTables :
    ((busyWith .expGen 0 1 0).noResetNext ∧ (∃ t, step (busyWith .expGen 0 1 0) = .next t) ∧
      (busyWith .expGen 0 1 0).writtenEntry ≠ some (.exp, 1)) ∧
    (({ busyWith .expGen 0 1 0 with inputs := [PortIn.reset] }).portIn.rst = true ∧
      ∃ t, step { busyWith .expGen 0 1 0 with inputs := [PortIn.reset] } = .next t) ∧
    (∃ t, exec .nop State.reset = .next t) ∧
    ((validWith 0x5000).phase = .idle ∧ reachable (validWith 0x5000) = true ∧ (validWith 0x5000).undisturbedFor 3) := by
  refine ⟨⟨rfl, ⟨_, rfl⟩, by decide⟩, ⟨rfl, _, rfl⟩, ⟨_, rfl⟩, rfl, by decide, ?_⟩
  unfold State.undisturbedFor
  decide

theorem meets_CurHoldsOutsideExpGen :
    ((busyWith .logInit 0 1 0).noResetNext ∧ (∃ t, step (busyWith .logInit 0 1 0) = .next t) ∧
      (busyWith .logInit 0 1 0).phase ≠ .expGen ∧ (busyWith .logInit 0 1 0).phase ≠ .idle) ∧
    ((busyWith .expGen 0 1 0).noResetNext ∧ ∃ t, step (busyWith .expGen 0 1 0) = .next t) ∧
    ((idleWith 0x1000).noResetNext ∧ (∃ t, step (idleWith 0x1000) = .next t) ∧ (idleWith 0x1000).phase = .idle ∧
      (idleWith 0x1000).portIn.cmdValid = true ∧ (idleWith 0x1000).portIn.cmd = encode .start) :=
  ⟨⟨rfl, ⟨_, rfl⟩, by decide, by decide⟩, ⟨rfl, _, rfl⟩, rfl, ⟨_, rfl⟩, rfl, rfl, by decide⟩

/-- For the statements about the end of EXP_GEN, LOG_INIT and LOG_INV: the entry state of each phase. -/
theorem meets_ExpTableAfterExpGen :
    (busyWith .expGen 0 1 0x1000).phase = .expGen ∧ (busyWith .expGen 0 1 0x1000).idx = 0 ∧
    reachable (busyWith .expGen 0 1 0x1000) = true ∧ (busyWith .expGen 0 1 0x1000).noResetFor 255 :=
  ⟨rfl, rfl, by decide, no_reset_of_single _ _ _ rfl⟩

theorem meets_ExpTableIsOneFullCycle :
    (busyWith .expGen 0 1 0).phase = .expGen ∧ (busyWith .expGen 0 1 0).idx = 0 ∧
    reachable (busyWith .expGen 0 1 0) = true ∧ (busyWith .expGen 0 1 0).noResetFor 255 ∧ (0 < 254 ∧ 254 < 255) :=
  ⟨rfl, rfl, by decide, no_reset_of_single _ _ _ rfl, by decide⟩

theorem meets_LogTableAfterLogInit :
    (busyWith .logInit 0 1 0x1000).phase = .logInit ∧ (busyWith .logInit 0 1 0x1000).idx = 0 ∧
    reachable (busyWith .logInit 0 1 0x1000) = true ∧ (busyWith .logInit 0 1 0x1000).noResetFor 256 :=
  ⟨rfl, rfl, by decide, no_reset_of_single _ _ _ rfl⟩

/-- A state of LOG_INV whose EXP entries 0 and 254 hold the same value and whose entries 1 to 253 another. -/
def twoValues : State :=
  { busyWith .logInv 0 1 0 with expMem := filled 255 fun k => if k = 0 then 7 else if k = 254 then 7 else 9 }

theorem entry_twoValues (k : Nat) (h : k < 255) :
    entry .exp k twoValues = if k = 0 then 7 else if k = 254 then 7 else 9 :=
  entry_of_read (filled_read 255 _ k h)

theorem meets_LaterInversionWins :
    twoValues.phase = .logInv ∧ twoValues.idx = 0 ∧ reachable twoValues = true ∧ twoValues.noResetFor 255 ∧
    (∀ k, 253 < k → k < 255 → entry .exp k twoValues ≠ entry .exp 253 twoValues) ∧
    (∀ k, 254 < k → k < 255 → entry .exp k twoValues ≠ entry .exp 254 twoValues) ∧
    (∀ k, k < 255 → (entry .exp k twoValues).toNat ≠ 0) := by
  refine ⟨rfl, rfl, by decide, no_reset_of_single _ _ _ rfl, fun k h1 h2 => ?_, fun k h1 h2 => ?_, fun k h => ?_⟩
  · have hk : k = 254 := by omega
    rw [hk, entry_twoValues 254 (by decide), entry_twoValues 253 (by decide)]
    decide
  · omega
  · rw [entry_twoValues k h]
    split
    · decide
    · split <;> decide

theorem meets_GenerationFollowsTheTimeline :
    StartsGeneration Config.modulus 766 (idleWith 0x1000) ∧ StartsGeneration Config.modulus (766 + 2) (idleWith 0x1000) ∧
    (∀ d ∈ ((idleWith 0x1000).inputs.take (767 + 2)).drop 767, d.cmdValid = true → d.cmd ≠ encode .start) :=
  ⟨starts_from_reset _ _, starts_from_reset _ _, by decide⟩

theorem meets_GenerationRefinesTheSourceLoops : StartsGeneration 0x11B 766 (idleWith 0x1000) := starts_from_reset _ _

theorem meets_LogInvertsExp : StartsGeneration Config.modulus 766 (idleWith 0x1000) ∧ (0xFF : Byte) ≠ 0 :=
  ⟨starts_from_reset _ _, by decide⟩

theorem meets_LogOfZeroIsTheSentinel :
    (BitVec.getLsbD (0x101 : Modulus) 0 = true ∧ StartsGeneration 0x101 766 (idleWith 0x1000)) ∧
    StartsGeneration 0x100 766 (idleWith 0x1000) := ⟨⟨by decide, starts_from_reset _ _⟩, starts_from_reset _ _⟩

theorem meets_RejectedModulusHasPeriodFiftyOne :
    StartsGeneration Config.rejectedModulus 766 (idleWith 0x1000) ∧
    (∀ j, j < 51 → genPowAt Config.rejectedModulus j ≠ 0) := ⟨starts_from_reset _ _, by decide +kernel⟩

theorem meets_GenerationIsDeterministic :
    StartsGeneration Config.modulus 766 (idleWith 0x1000) ∧
    StartsGeneration Config.modulus 766 (fullAt Config.modulus 0x1000) ∧
    Memory.wf 255 (idleWith 0x1000).expMem ∧ Memory.wf 256 (idleWith 0x1000).logMem ∧
    Memory.wf 255 (fullAt Config.modulus 0x1000).expMem ∧ Memory.wf 256 (fullAt Config.modulus 0x1000).logMem :=
  ⟨starts_from_reset _ _, starts_from_full _ _, memory_nil_wf _, memory_nil_wf _,
    (full_has_invariant Config.modulus 0x1000).expCanonical, (full_has_invariant Config.modulus 0x1000).logCanonical⟩

theorem meets_RegenerationIsBitIdentical :
    MachineInvariant Config.modulus (fullAt Config.modulus 0x1000) ∧ (fullAt Config.modulus 0x1000).valid = true ∧
    StartsGeneration Config.modulus 766 (fullAt Config.modulus 0x1000) :=
  ⟨full_has_invariant _ _, rfl, starts_from_full _ _⟩

/-- For the second clause, at edge 2, the boundary of its read clause being an edge with a command on the port. -/
theorem meets_RunEndsAtTheFirstCompletionAfterTheLastStart :
    (runEnd [startEdge, completingEdge] = some 2 ∧ edgeAt [startEdge, completingEdge] 2 = some completingEdge ∧
      reachable completingEdge.after = true ∧ completingEdge.after.undisturbedFor 2) ∧
    (programEnd [startEdge] = some 2 ∧ startEdge.before.accepts 0x1000) ∧
    ∃ es, trace step 1 (idleWith 0x4080) = some es ∧ programEnd es = some (1 + 1) := by
  refine ⟨⟨by decide, rfl, by decide, ?_⟩, ⟨by decide, by unfold State.accepts; decide⟩, _, rfl, by decide⟩
  unfold State.undisturbedFor
  decide

/-- One edge, a reset, before the START, and two edges after the run's end. -/
theorem meets_GenerationIsOneRun (m : Modulus) :
    (∃ before, trace (stepAt m) 1 (State.reset.withInputs bootInputs) = some before) ∧
    edges (stepAt m) 1 (State.reset.withInputs bootInputs) = .next (idleWith 0x1000) ∧
    StartsGeneration m (766 + 2) (idleWith 0x1000) ∧
    (∀ d ∈ ((idleWith 0x1000).inputs.take (767 + 2)).drop 767, d.cmdValid = true → d.cmd ≠ encode .start) :=
  ⟨⟨_, rfl⟩, rfl, starts_from_reset _ _, by decide⟩

theorem meets_BootProgramEndsWithItsLastSample : 767 ≤ 767 := Nat.le_refl _

theorem meets_ResetEdgeSetsTheResetState :
    (0 < 2 ∧ 2 ≤ [PortIn.reset, ⟨true, true, 0x1000⟩].length ∧
      ∀ d ∈ ({ busyWith .logInv 300 1 0 with inputs := [PortIn.reset, ⟨true, true, 0x1000⟩] }).inputs.take 2,
        d.rst = true) ∧
    (State.reset.expMem = [] ∧ State.reset.logMem = [] ∧
      ({ busyWith .logInv 300 1 0 with inputs := [PortIn.reset] }).inputs = [PortIn.reset] ∧ PortIn.reset.rst = true) := by
  decide

theorem meets_ResetAbortsAGeneration :
    ({ busyWith .logInit 45 1 0 with inputs := [PortIn.reset, PortIn.present 0x1000] }).phase ≠ .idle ∧
    ({ busyWith .logInit 45 1 0 with inputs := [PortIn.reset, PortIn.present 0x1000] }).portIn.rst = true ∧
    ∃ t, step { busyWith .logInit 45 1 0 with inputs := [PortIn.reset, PortIn.present 0x1000] } = .next t ∧
      t.accepts (encode .start) ∧ t.noResetFor 767 :=
  ⟨by decide, rfl, _, rfl, ⟨rfl, rfl, by decide⟩, no_reset_of_single _ _ _ rfl⟩

theorem meets_PowerUpContentsStayHidden :
    ({ busyWith .logInv 300 1 0 with inputs := [PortIn.reset] }).inputs =
      ({ validWith 0 with inputs := [PortIn.reset] }).inputs ∧
    ({ busyWith .logInv 300 1 0 with inputs := [PortIn.reset] }).portIn.rst = true := by decide

theorem meets_BootSequenceDeliversTheTables : (254 : Byte) ≠ 255 ∧ (0xFF : Byte) ≠ 0 := by decide

theorem meets_WaitDoneEndsWithTheGeneration :
    ((busyWith .expGen 0 1 0).phase = .expGen ∧ (busyWith .expGen 0 1 0).idx = 0 ∧
      reachable (busyWith .expGen 0 1 0) = true) ∧
    (State.reset.phase = .idle ∧ State.reset.valid = false ∧ reachable State.reset = true) := by decide

theorem idle_has_invariant (m : Modulus) (w : CmdWord) : MachineInvariant m (idleWith w) where
  reachable := rfl
  curHeld := rfl
  expWritten _ hk := absurd hk (Nat.not_lt_zero _)
  logWritten _ _ hv := by cases hv
  errorHasNoData _ := rfl
  silentIsZero _ := ⟨rfl, rfl⟩
  expCanonical := memory_nil_wf _
  logCanonical := memory_nil_wf _

theorem meets_EveryStepKeepsTheMachineInvariant (m : Modulus) :
    MachineInvariant m (idleWith 0x0000) ∧ (∃ t, stepAt m (idleWith 0x0000) = .next t) ∧
    MachineInvariant Config.modulus (fullAt Config.modulus 0x1000) ∧
    ∃ t, step (fullAt Config.modulus 0x1000) = .next t :=
  ⟨idle_has_invariant m _, ⟨_, rfl⟩, full_has_invariant _ _, _, rfl⟩

theorem meets_ResetEdgeEstablishesTheMachineInvariant :
    Memory.wf 255 [(254, 3)] ∧ Memory.wf 256 [(255, 9)] ∧
    ({ validWith 0 with expMem := [(254, 3)], logMem := [(255, 9)], inputs := [PortIn.reset] }).portIn.rst = true := by
  decide

theorem meets_ValidMeansTablesComplete :
    (MachineInvariant Config.modulus (fullAt Config.modulus 0) ∧ (fullAt Config.modulus 0).valid = true) ∧
    (∃ t, step (fullAt Config.modulus 0) = .next t ∧ t.valid = true) ∧
    ((invWith 254 0).noResetNext ∧ (∃ t, step (invWith 254 0) = .next t) ∧
      (invWith 254 0).idx = 254) ∧
    ((∃ t, step (validWith 0x1000) = .next t) ∧ (validWith 0x1000).phase = .idle ∧
      (validWith 0x1000).accepts (encode .start)) :=
  ⟨⟨full_has_invariant _ _, rfl⟩, ⟨_, rfl, rfl⟩, ⟨rfl, ⟨_, rfl⟩, rfl⟩, ⟨_, rfl⟩, rfl, rfl, rfl, by decide⟩

end Sys2Proof.Tests
end

