-- ==== Sys2Proof/Proofs/SequencerSteps.lean ====
section
/-! The clauses of 10_state.md R33 phase by phase, everything the sequencer can do from a state inside R33 as one relation,
and everything an edge can do. -/

namespace Sys2Proof.Machine

/-! ## R33, one phase at a time -/

theorem reachableAt_idle {m : Modulus} {s : State} (h : s.phase = .idle) : reachableAt m s = true ↔ s.idx = 0 := by
  simp [reachableAt, h]

theorem reachableAt_expGen {m : Modulus} {s : State} (h : s.phase = .expGen) :
    reachableAt m s = true ↔ s.idx.toNat ≤ 254 ∧ s.cur = genPowAt m s.idx.toNat ∧ s.valid = false := by
  simp [reachableAt, h, and_assoc]

theorem reachableAt_logInit {m : Modulus} {s : State} (h : s.phase = .logInit) :
    reachableAt m s = true ↔ s.idx.toNat ≤ 255 ∧ s.valid = false := by
  simp [reachableAt, h]

theorem reachableAt_logInv {m : Modulus} {s : State} (h : s.phase = .logInv) :
    reachableAt m s = true ↔ s.idx.toNat ≤ 254 ∧ s.valid = false := by
  simp [reachableAt, h]

/-- R33 puts a state with `valid` = 1 into IDLE. -/
theorem idle_of_valid {m : Modulus} {s : State} (h : reachableAt m s = true) (hv : s.valid = true) :
    s.phase = .idle := by
  simp only [reachableAt, hv, Bool.and_eq_true] at h
  simpa using h.2

/-- `reachable` decides the clauses of R33. -/
theorem reachable_iff_shape {s : State} : reachable s = true ↔ ReachableShape s := by
  constructor
  · intro h
    exact
      { idle := fun hp => (reachableAt_idle hp).1 h
        expGen := fun hp => let ⟨hi, hc, _⟩ := (reachableAt_expGen hp).1 h; ⟨hi, hc⟩
        logInit := fun hp => ((reachableAt_logInit hp).1 h).1
        logInv := fun hp => ((reachableAt_logInv hp).1 h).1
        valid := idle_of_valid h }
  · intro h
    have hbusy : s.phase ≠ .idle → s.valid = false := fun hp => Bool.eq_false_iff.2 (mt h.valid hp)
    unfold reachable
    cases hp : s.phase with
    | idle => exact (reachableAt_idle hp).2 (h.idle hp)
    | expGen =>
      obtain ⟨hi, hc⟩ := h.expGen hp
      exact (reachableAt_expGen hp).2 ⟨hi, hc, hbusy (by simp [hp])⟩
    | logInit => exact (reachableAt_logInit hp).2 ⟨h.logInit hp, hbusy (by simp [hp])⟩
    | logInv => exact (reachableAt_logInv hp).2 ⟨h.logInv hp, hbusy (by simp [hp])⟩

/-- R33 does not speak of the response registers. -/
theorem reachableAt_congr {m : Modulus} {s t : State} (h : s.agreeButResponse t) :
    reachableAt m s = reachableAt m t := by
  obtain ⟨hphase, hidx, hcur, hvalid, -⟩ := h
  simp only [reachableAt, hphase, hidx, hcur, hvalid]

theorem reachableAt_resetEdge (m : Modulus) (s : State) : reachableAt m (resetEdge s) = true :=
  (reachableAt_idle rfl).2 rfl

/-! ## The command part leaves the sequencer alone, or starts it from IDLE -/

theorem agreeButResponse_respond (st : Status) (d : Byte) (s : State) : s.agreeButResponse (respond st d s) :=
  ⟨rfl, rfl, rfl, rfl, rfl, rfl, rfl⟩

theorem agreeButResponse_noResponse (s : State) : s.agreeButResponse (noResponse s) :=
  ⟨rfl, rfl, rfl, rfl, rfl, rfl, rfl⟩

/-- The command part always answers, and writes the response registers only or accepts a START from IDLE. -/
theorem commandPart_answers (m : Modulus) (s : State) :
    ∃ t, commandPart (execAt m) s = .next t ∧
      (s.agreeButResponse t ∨ (s.phase = .idle ∧ t = respond .ok 0x00 (beginGeneration s))) := by
  rcases commandPart_cases m s with ⟨st, d, h⟩ | ⟨-, h⟩ | ⟨-, -, hp, h⟩
  · exact ⟨_, h, .inl (agreeButResponse_respond st d s)⟩
  · exact ⟨_, h, .inl (agreeButResponse_noResponse s)⟩
  · exact ⟨_, h, .inr ⟨hp, rfl⟩⟩

/-! ## The sequencer -/

/-- The sequencer's step from `pre`, writing into `post`: one case for each phase inside it, and one for each phase's last
index (10_state.md R29). -/
inductive SequencerStep (m : Modulus) (pre post : State) : State → Prop
  | rest (hp : pre.phase = .idle) : SequencerStep m pre post post
  | expInner (hp : pre.phase = .expGen) (hi : pre.idx.toNat < 254) :
    SequencerStep m pre post { post.setTable .exp (post.expMem.write pre.idx.toNat pre.cur) with
      cur := mulGenAt m pre.cur, idx := pre.idx + 1 }
  | expLast (hp : pre.phase = .expGen) (hi : pre.idx = 254) :
    SequencerStep m pre post { post.setTable .exp (post.expMem.write 254 pre.cur) with
      cur := mulGenAt m pre.cur, phase := .logInit, idx := 0 }
  | initInner (hp : pre.phase = .logInit) (hi : pre.idx.toNat < 255) :
    SequencerStep m pre post { post.setTable .log (post.logMem.write pre.idx.toNat Config.sentinel) with
      idx := pre.idx + 1 }
  | initLast (hp : pre.phase = .logInit) (hi : pre.idx = 255) :
    SequencerStep m pre post { post.setTable .log (post.logMem.write 255 Config.sentinel) with
      phase := .logInv, idx := 0 }
  | invInner (hp : pre.phase = .logInv) (hi : pre.idx.toNat < 254) :
    SequencerStep m pre post
      { post.setTable .log (post.logMem.write (entry .exp pre.idx.toNat pre).toNat (idxByte pre.idx)) with
        idx := pre.idx + 1 }
  | invLast (hp : pre.phase = .logInv) (hi : pre.idx = 254) :
    SequencerStep m pre post { post.setTable .log (post.logMem.write (entry .exp 254 pre).toNat 254) with
      phase := .idle, idx := 0, valid := true }

/-- The relation is the model's sequencer. -/
theorem SequencerStep.sequencerPart_eq {m : Modulus} {pre post t : State} (h : SequencerStep m pre post t) :
    sequencerPart m pre post = .next t := by
  unfold sequencerPart
  cases h with
  | rest hp => simp only [hp]
  | expInner hp hi => simpa only [hp] using expGenStep_inner m post hi
  | expLast hp hi => simpa only [hp] using expGenStep_last m post hi
  | initInner hp hi => simpa only [hp] using logInitStep_inner post hi
  | initLast hp hi => simpa only [hp] using logInitStep_last post hi
  | invInner hp hi => simpa only [hp] using logInvStep_inner post hi
  | invLast hp hi => simpa only [hp] using logInvStep_last post hi

/-- An index up to the last one of its phase is the last one or below it. -/
theorem idx_lt_or_eq {i k : Idx} (h : i.toNat ≤ k.toNat) : i.toNat < k.toNat ∨ i = k :=
  (Nat.lt_or_eq_of_le h).imp_right BitVec.eq_of_toNat_eq

/-- Inside R33 the sequencer always has a step. -/
theorem exists_sequencerStep {m : Modulus} {pre : State} (post : State) (h : reachableAt m pre = true) :
    ∃ t, SequencerStep m pre post t := by
  cases hp : pre.phase with
  | idle => exact ⟨_, .rest hp⟩
  | expGen =>
    obtain ⟨hi, -⟩ := (reachableAt_expGen hp).1 h
    rcases idx_lt_or_eq (k := 254) hi with hi | hi
    · exact ⟨_, .expInner hp hi⟩
    · exact ⟨_, .expLast hp hi⟩
  | logInit =>
    obtain ⟨hi, -⟩ := (reachableAt_logInit hp).1 h
    rcases idx_lt_or_eq (k := 255) hi with hi | hi
    · exact ⟨_, .initInner hp hi⟩
    · exact ⟨_, .initLast hp hi⟩
  | logInv =>
    obtain ⟨hi, -⟩ := (reachableAt_logInv hp).1 h
    rcases idx_lt_or_eq (k := 254) hi with hi | hi
    · exact ⟨_, .invInner hp hi⟩
    · exact ⟨_, .invLast hp hi⟩

/-- The sequencer keeps R33. `post` is what the command part made of `pre`: outside IDLE, `pre` with another response. -/
theorem SequencerStep.reachableAt {m : Modulus} {pre post t : State} (h : SequencerStep m pre post t)
    (hq : pre.phase ≠ .idle → pre.agreeButResponse post) (hr : reachableAt m post = true) :
    reachableAt m t = true := by
  cases h with
  | rest hp => exact hr
  | expInner hp hi =>
    obtain ⟨hphase, hidx, hcur, -⟩ := hq (by simp [hp])
    have hpost := hphase.symm.trans hp
    obtain ⟨-, hc, hv⟩ := (reachableAt_expGen hpost).1 hr
    have hnext : (pre.idx + 1).toNat = pre.idx.toNat + 1 := idx_succ_toNat (by omega)
    refine (reachableAt_expGen (by exact hpost)).2 ⟨hnext.trans_le hi, ?_, hv⟩
    show mulGenAt m pre.cur = genPowAt m (pre.idx + 1).toNat
    rw [hnext, genPowAt, hcur, hc, hidx]
  | expLast hp hi =>
    obtain ⟨hphase, -⟩ := hq (by simp [hp])
    obtain ⟨-, -, hv⟩ := (reachableAt_expGen (hphase.symm.trans hp)).1 hr
    exact (reachableAt_logInit rfl).2 ⟨Nat.zero_le _, hv⟩
  | initInner hp hi =>
    obtain ⟨hphase, -⟩ := hq (by simp [hp])
    have hpost := hphase.symm.trans hp
    obtain ⟨-, hv⟩ := (reachableAt_logInit hpost).1 hr
    exact (reachableAt_logInit (by exact hpost)).2 ⟨(idx_succ_toNat (by omega)).trans_le hi, hv⟩
  | initLast hp hi =>
    obtain ⟨hphase, -⟩ := hq (by simp [hp])
    obtain ⟨-, hv⟩ := (reachableAt_logInit (hphase.symm.trans hp)).1 hr
    exact (reachableAt_logInv rfl).2 ⟨Nat.zero_le _, hv⟩
  | invInner hp hi =>
    obtain ⟨hphase, -⟩ := hq (by simp [hp])
    have hpost := hphase.symm.trans hp
    obtain ⟨-, hv⟩ := (reachableAt_logInv hpost).1 hr
    exact (reachableAt_logInv (by exact hpost)).2 ⟨(idx_succ_toNat (by omega)).trans_le hi, hv⟩
  | invLast hp hi => exact (reachableAt_idle rfl).2 rfl

/-! ## One edge -/

/-- An edge without reset inside R33 is its two parts and the move to the next inputs (43_table_access.md R150). -/
theorem stepAt_run {m : Modulus} {s mid t : State} (hn : s.portIn.rst = false) (hr : reachableAt m s = true)
    (hc : commandPart (execAt m) s = .next mid) (hs : SequencerStep m s mid t) :
    stepAt m s = .next t.shiftInputs := by
  rw [stepAt, clockEdge_run hn hr, hc, andThen_next, hs.sequencerPart_eq, andThen_next]

/-- What the two parts of an edge without reset make of `s`: `mid` after the command, `t` after the sequencer. -/
structure EdgeParts (m : Modulus) (s mid t : State) : Prop where
  command : commandPart (execAt m) s = .next mid
  effect : s.agreeButResponse mid ∨ (s.phase = .idle ∧ mid = respond .ok 0x00 (beginGeneration s))
  sequencer : SequencerStep m s mid t

/-- Outside IDLE no command reaches the sequencer. -/
theorem EdgeParts.agree_of_busy {m : Modulus} {s mid t : State} (h : EdgeParts m s mid t) (hp : s.phase ≠ .idle) :
    s.agreeButResponse mid :=
  h.effect.resolve_right fun ⟨hidle, _⟩ => hp hidle

theorem EdgeParts.stepAt_eq {m : Modulus} {s mid t : State} (h : EdgeParts m s mid t) (hn : s.portIn.rst = false)
    (hr : reachableAt m s = true) : stepAt m s = .next t.shiftInputs :=
  stepAt_run hn hr h.command h.sequencer

theorem exists_edgeParts {m : Modulus} {s : State} (hr : reachableAt m s = true) : ∃ mid t, EdgeParts m s mid t := by
  obtain ⟨mid, hc, he⟩ := commandPart_answers m s
  obtain ⟨t, ht⟩ := exists_sequencerStep mid hr
  exact ⟨mid, t, hc, he, ht⟩

theorem stepAt_reset {m : Modulus} {s : State} (h : s.portIn.rst = true) :
    stepAt m s = .next (resetEdge s).shiftInputs := clockEdge_reset h

/-- An edge that answers a state from inside R33 is a reset edge or runs its two parts. -/
theorem stepAt_inv {m : Modulus} {s t : State} (hr : reachableAt m s = true) (h : stepAt m s = .next t) :
    (s.portIn.rst = true ∧ t = (resetEdge s).shiftInputs) ∨
    (s.portIn.rst = false ∧ ∃ mid u, EdgeParts m s mid u ∧ t = u.shiftInputs) := by
  rcases hn : s.portIn.rst with _ | _
  · obtain ⟨mid, u, hu⟩ := exists_edgeParts hr
    rw [hu.stepAt_eq hn hr] at h
    exact .inr ⟨rfl, mid, u, hu, (Host.Outcome.next.inj h).symm⟩
  · rw [stepAt_reset hn] at h
    exact .inl ⟨rfl, (Host.Outcome.next.inj h).symm⟩

/-- An edge from inside R33 answers a state. -/
theorem stepAt_progress {m : Modulus} {s : State} (hr : reachableAt m s = true) : ∃ t, stepAt m s = .next t := by
  rcases hn : s.portIn.rst with _ | _
  · obtain ⟨mid, u, hu⟩ := exists_edgeParts hr
    exact ⟨_, hu.stepAt_eq hn hr⟩
  · exact ⟨_, stepAt_reset hn⟩

/-- The command part keeps R33; an accepted START gives the entry state of EXP_GEN (41_exp_table_generator.md R102). -/
theorem EdgeParts.mid_reachableAt {m : Modulus} {s mid t : State} (h : EdgeParts m s mid t)
    (hr : reachableAt m s = true) : reachableAt m mid = true := by
  rcases h.effect with ha | ⟨-, rfl⟩
  · rwa [← reachableAt_congr ha]
  · exact (reachableAt_expGen rfl).2 ⟨Nat.zero_le _, rfl, rfl⟩

/-- Every edge keeps R33. -/
theorem stepAt_reachableAt {m : Modulus} {s t : State} (hr : reachableAt m s = true) (h : stepAt m s = .next t) :
    reachableAt m t = true := by
  rcases stepAt_inv hr h with ⟨-, rfl⟩ | ⟨-, mid, u, hu, rfl⟩
  · exact reachableAt_resetEdge m s
  · exact hu.sequencer.reachableAt hu.agree_of_busy (hu.mid_reachableAt hr)

/-- Settles O10: R33 is established by a reset edge, kept by both parts of every other edge, and exactly where an edge
without reset is taken. -/
theorem reachableStatesStayInTheInvariant : Obligations.ReachableStatesStayInTheInvariant := by
  unfold Obligations.ReachableStatesStayInTheInvariant
  simp only [← reachable_iff_shape, ← stepAt_modulus, reachable]
  refine ⟨fun s h => ⟨_, stepAt_reset h, reachableAt_resetEdge Config.modulus s⟩, fun s t => stepAt_reachableAt,
    fun s hn hr => ?_, fun s => stepAt_progress⟩
  exact clockEdge_outside hn (Bool.eq_false_iff.2 hr)

end Sys2Proof.Machine
end

