-- ==== Sys2Proof/Proofs/GenerationContents.lean ====
section
/-! What the generation under way has written to the two tables (10_state.md R23; 41_exp_table_generator.md R105;
42_log_table_inverter.md R124, R126): every edge keeps it, whatever the entries not yet written hold. -/

namespace Sys2Proof.Machine

/-! ## The stages of a storage -/

/-- The first `n` EXP entries hold the powers of the generator. -/
def Memory.powersBelow (m : Modulus) (n : Nat) (mem : Memory) : Prop :=
  ∀ k, k < n → mem.read k = some (genPowAt m k)

/-- The first `n` LOG entries hold the sentinel. -/
def Memory.sentinelsBelow (n : Nat) (mem : Memory) : Prop :=
  ∀ k, k < n → mem.read k = some Config.sentinel

/-- Every LOG entry holds what the first `n` inversion writes leave. -/
def Memory.invertedBelow (m : Modulus) (n : Nat) (mem : Memory) : Prop :=
  ∀ b : Byte, mem.read b.toNat = some (logAfterAt m n b)

theorem powersBelow_zero (m : Modulus) (mem : Memory) : mem.powersBelow m 0 :=
  fun _ hk => absurd hk (Nat.not_lt_zero _)

theorem sentinelsBelow_zero (mem : Memory) : mem.sentinelsBelow 0 :=
  fun _ hk => absurd hk (Nat.not_lt_zero _)

theorem powersBelow_succ {m : Modulus} {n : Nat} {mem : Memory} (h : mem.powersBelow m n) :
    (mem.write n (genPowAt m n)).powersBelow m (n + 1) := by
  intro k hk
  rw [memory_read_write]
  split
  · next heq => rw [heq]
  · exact h k (by omega)

theorem sentinelsBelow_succ {n : Nat} {mem : Memory} (h : mem.sentinelsBelow n) :
    (mem.write n Config.sentinel).sentinelsBelow (n + 1) := by
  intro k hk
  rw [memory_read_write]
  split
  · rfl
  · exact h k (by omega)

/-- Before the first inversion write every LOG entry is the sentinel. -/
theorem invertedBelow_zero {m : Modulus} {mem : Memory} (h : mem.sentinelsBelow 256) : mem.invertedBelow m 0 :=
  fun b => h b.toNat b.isLt

/-- The inversion write of index `n` (42_log_table_inverter.md R127). -/
theorem invertedBelow_succ {m : Modulus} {n : Nat} {mem : Memory} (h : mem.invertedBelow m n) :
    (mem.write (genPowAt m n).toNat (BitVec.ofNat 8 n)).invertedBelow m (n + 1) := by
  intro b
  rw [memory_read_write, logAfterAt]
  by_cases hb : genPowAt m n = b
  · rw [if_pos hb, if_pos (congrArg BitVec.toNat hb.symm)]
  · rw [if_neg hb, if_neg (fun hk => hb (BitVec.eq_of_toNat_eq hk.symm)), h b]

/-- `idx[7:0]` is the index as a byte. -/
theorem idxByte_eq_ofNat (i : Idx) : idxByte i = BitVec.ofNat 8 i.toNat := by
  rw [idxByte, BitVec.ofNat_toNat]

/-! ## The stages of a generation -/

/-- The two tables hold what the generation under way has written so far; nothing is said of the other entries. -/
structure TablesTrack (m : Modulus) (s : State) : Prop where
  expWritten : s.expMem.powersBelow m s.expDone
  logWritten : ∀ b v, s.logDone m b = some v → s.logMem.read b.toNat = some v

/-- The clauses of the machine's invariant about the tables are these. -/
theorem MachineInvariant.tablesTrack {m : Modulus} {s : State} (h : MachineInvariant m s) : TablesTrack m s :=
  ⟨h.expWritten, h.logWritten⟩

theorem tablesTrack_iff {m : Modulus} {s : State} : TablesTrack m s ↔
    s.expMem.powersBelow m s.expDone ∧ ∀ b v, s.logDone m b = some v → s.logMem.read b.toNat = some v :=
  ⟨fun ⟨he, hl⟩ => ⟨he, hl⟩, fun ⟨he, hl⟩ => ⟨he, hl⟩⟩

theorem tablesTrack_invalid {m : Modulus} {s : State} (hp : s.phase = .idle) (hv : s.valid = false) :
    TablesTrack m s := by
  simp [tablesTrack_iff, State.expDone, State.logDone, hp, hv, powersBelow_zero]

theorem tablesTrack_valid {m : Modulus} {s : State} (hp : s.phase = .idle) (hv : s.valid = true) :
    TablesTrack m s ↔ s.expMem.powersBelow m 255 ∧ s.logMem.invertedBelow m 255 := by
  simp [tablesTrack_iff, State.expDone, State.logDone, hp, hv, Memory.invertedBelow]

theorem tablesTrack_expGen {m : Modulus} {s : State} (hp : s.phase = .expGen) :
    TablesTrack m s ↔ s.expMem.powersBelow m s.idx.toNat := by
  simp [tablesTrack_iff, State.expDone, State.logDone, hp]

theorem tablesTrack_logInit {m : Modulus} {s : State} (hp : s.phase = .logInit) (hi : s.idx.toNat ≤ 255) :
    TablesTrack m s ↔ s.expMem.powersBelow m 255 ∧ s.logMem.sentinelsBelow s.idx.toNat := by
  have hbytes : (∀ b : Byte, b.toNat < s.idx.toNat → s.logMem.read b.toNat = some Config.sentinel) ↔
      s.logMem.sentinelsBelow s.idx.toNat :=
    ⟨fun h k hk => by simpa [Nat.mod_eq_of_lt (show k < 256 by omega), hk] using h (BitVec.ofNat 8 k),
      fun h b => h b.toNat⟩
  simp [tablesTrack_iff, State.expDone, State.logDone, hp, ← hbytes]

theorem tablesTrack_logInv {m : Modulus} {s : State} (hp : s.phase = .logInv) :
    TablesTrack m s ↔ s.expMem.powersBelow m 255 ∧ s.logMem.invertedBelow m s.idx.toNat := by
  simp [tablesTrack_iff, State.expDone, State.logDone, hp, Memory.invertedBelow]

/-- The stages do not speak of the response registers. -/
theorem tablesTrack_congr {m : Modulus} {s t : State} (h : s.agreeButResponse t) (ht : TablesTrack m s) :
    TablesTrack m t := by
  obtain ⟨hphase, hidx, -, hvalid, hexp, hlog, -⟩ := h
  simpa only [tablesTrack_iff, State.expDone, State.logDone, hphase, hidx, hvalid, hexp, hlog] using ht

theorem tablesTrack_shiftInputs {m : Modulus} {s : State} (h : TablesTrack m s) : TablesTrack m s.shiftInputs :=
  ⟨h.expWritten, h.logWritten⟩

/-- While `valid` is 1 both tables are complete (10_state.md R23). -/
theorem TablesTrack.complete {m : Modulus} {s : State} (h : TablesTrack m s) (hr : reachableAt m s = true)
    (hv : s.valid = true) : s.tablesComplete m := by
  obtain ⟨he, hl⟩ := (tablesTrack_valid (idle_of_valid hr hv) hv).1 h
  exact ⟨fun k hk => entry_of_read (he k hk), fun b => entry_of_read (hl b)⟩

/-- The EXP entry that LOG_INV reads has been written by this generation. -/
theorem entry_exp_of_powersBelow {m : Modulus} {n k : Nat} {s : State} (h : s.expMem.powersBelow m n) (hk : k < n) :
    entry .exp k s = genPowAt m k :=
  entry_of_read (h k hk)

/-! ## Every edge keeps them -/

/-- The sequencer brings the tables from one stage to the next. `post` is what the command part made of `pre`: outside
IDLE, `pre` with another response. -/
theorem SequencerStep.tablesTrack {m : Modulus} {pre post t : State} (h : SequencerStep m pre post t)
    (hq : pre.phase ≠ .idle → pre.agreeButResponse post) (hr : Machine.reachableAt m post = true)
    (ht : TablesTrack m post) : TablesTrack m t := by
  cases h with
  | rest hp => exact ht
  | expInner hp hi =>
    obtain ⟨hphase, hidx, hcur, -⟩ := hq (by simp [hp])
    have hpost := hphase.symm.trans hp
    obtain ⟨-, hc, -⟩ := (reachableAt_expGen hpost).1 hr
    have hnext : (pre.idx + 1).toNat = pre.idx.toNat + 1 := idx_succ_toNat (by omega)
    refine (tablesTrack_expGen (by exact hpost)).2 ?_
    show (post.expMem.write pre.idx.toNat pre.cur).powersBelow m (pre.idx + 1).toNat
    rw [hnext, hcur, hc, hidx]
    exact powersBelow_succ ((tablesTrack_expGen hpost).1 ht)
  | expLast hp hi =>
    obtain ⟨hphase, hidx, hcur, -⟩ := hq (by simp [hp])
    have hpost := hphase.symm.trans hp
    obtain ⟨-, hc, -⟩ := (reachableAt_expGen hpost).1 hr
    have he := (tablesTrack_expGen hpost).1 ht
    rw [← hidx, hi] at hc he
    refine (tablesTrack_logInit rfl (Nat.zero_le _)).2 ⟨?_, sentinelsBelow_zero _⟩
    show (post.expMem.write 254 pre.cur).powersBelow m 255
    rw [hcur, hc]
    exact powersBelow_succ he
  | initInner hp hi =>
    obtain ⟨hphase, hidx, -⟩ := hq (by simp [hp])
    have hpost := hphase.symm.trans hp
    obtain ⟨he, hl⟩ := (tablesTrack_logInit hpost (hidx ▸ hi.le)).1 ht
    have hnext : (pre.idx + 1).toNat = pre.idx.toNat + 1 := idx_succ_toNat (by omega)
    refine (tablesTrack_logInit (by exact hpost) (hnext.trans_le hi)).2 ⟨he, ?_⟩
    show (post.logMem.write pre.idx.toNat Config.sentinel).sentinelsBelow (pre.idx + 1).toNat
    rw [hnext]
    exact sentinelsBelow_succ (hidx ▸ hl)
  | initLast hp hi =>
    obtain ⟨hphase, hidx, -⟩ := hq (by simp [hp])
    rw [hi] at hidx
    obtain ⟨he, hl⟩ := (tablesTrack_logInit (hphase.symm.trans hp) (by simp [← hidx])).1 ht
    rw [← hidx] at hl
    exact (tablesTrack_logInv rfl).2 ⟨he, invertedBelow_zero (sentinelsBelow_succ hl)⟩
  | invInner hp hi =>
    obtain ⟨hphase, hidx, -, -, hexp, -⟩ := hq (by simp [hp])
    have hpost := hphase.symm.trans hp
    obtain ⟨he, hl⟩ := (tablesTrack_logInv hpost).1 ht
    have hnext : (pre.idx + 1).toNat = pre.idx.toNat + 1 := idx_succ_toNat (by omega)
    have hread := entry_exp_of_powersBelow (hexp ▸ he) (show pre.idx.toNat < 255 by omega)
    refine (tablesTrack_logInv (by exact hpost)).2 ⟨he, ?_⟩
    show (post.logMem.write (entry .exp pre.idx.toNat pre).toNat (idxByte pre.idx)).invertedBelow m (pre.idx + 1).toNat
    rw [hnext, hread, idxByte_eq_ofNat]
    exact invertedBelow_succ (hidx ▸ hl)
  | invLast hp hi =>
    obtain ⟨hphase, hidx, -, -, hexp, -⟩ := hq (by simp [hp])
    obtain ⟨he, hl⟩ := (tablesTrack_logInv (hphase.symm.trans hp)).1 ht
    have hread := entry_exp_of_powersBelow (hexp ▸ he) (show 254 < 255 by decide)
    rw [← hidx, hi] at hl
    refine (tablesTrack_valid rfl rfl).2 ⟨he, ?_⟩
    show (post.logMem.write (entry .exp 254 pre).toNat 254).invertedBelow m 255
    rw [hread]
    exact invertedBelow_succ hl

/-- The command part keeps the stages; an accepted START begins a generation with nothing written. -/
theorem EdgeParts.mid_tablesTrack {m : Modulus} {s mid t : State} (h : EdgeParts m s mid t) (ht : TablesTrack m s) :
    TablesTrack m mid := by
  rcases h.effect with ha | ⟨-, rfl⟩
  · exact tablesTrack_congr ha ht
  · exact (tablesTrack_expGen rfl).2 (powersBelow_zero m _)

/-- Every edge from inside R33 keeps the stages. -/
theorem stepAt_tablesTrack {m : Modulus} {s t : State} (hr : reachableAt m s = true) (ht : TablesTrack m s)
    (h : stepAt m s = .next t) : TablesTrack m t := by
  rcases stepAt_inv hr h with ⟨-, rfl⟩ | ⟨-, mid, u, hu, rfl⟩
  · exact tablesTrack_invalid rfl rfl
  · exact tablesTrack_shiftInputs
      (hu.sequencer.tablesTrack hu.agree_of_busy (hu.mid_reachableAt hr) (hu.mid_tablesTrack ht))

end Sys2Proof.Machine
end

