-- ==== Sys2Proof/Proofs/PowerUp.lean ====
section
/-! Two runs side by side (10_state.md R35): states that look alike to the host and to the sequencer stay so at every edge,
when the tables of both are what a generation writes. -/

namespace Sys2Proof.Machine

/-! ## What a run shows -/

/-- Two states with the same control registers, the same response and the same inputs; `cur` and the tables are free. -/
structure SameView (s s' : State) : Prop where
  phase : s.phase = s'.phase
  idx : s.idx = s'.idx
  valid : s.valid = s'.valid
  rspValid : s.rspValid = s'.rspValid
  rspStatus : s.rspStatus = s'.rspStatus
  rspData : s.rspData = s'.rspData
  inputs : s.inputs = s'.inputs

theorem SameView.portIn {s s' : State} (h : SameView s s') : s.portIn = s'.portIn := by
  rw [State.portIn, State.portIn, h.inputs]

theorem SameView.statusByte {s s' : State} (h : SameView s s') : statusByte s = statusByte s' := by
  simp only [Machine.statusByte, State.busy, h.phase, h.valid]

theorem SameView.outputs {s s' : State} (h : SameView s s') : s.outputs = s'.outputs := by
  simp only [State.outputs, State.cmdReady, State.done, State.busy, h.phase, h.valid, h.rspValid, h.rspStatus,
    h.rspData]

theorem SameView.respond {s s' : State} (h : SameView s s') (st : Status) (d : Byte) :
    SameView (respond st d s) (respond st d s') :=
  { h with rspValid := rfl, rspStatus := rfl, rspData := rfl }

theorem SameView.noResponse {s s' : State} (h : SameView s s') : SameView (noResponse s) (noResponse s') :=
  { h with rspValid := rfl, rspStatus := rfl, rspData := rfl }

theorem SameView.beginGeneration {s s' : State} (h : SameView s s') :
    SameView (beginGeneration s) (beginGeneration s') :=
  { h with phase := rfl, idx := rfl, valid := rfl }

theorem SameView.shiftInputs {s s' : State} (h : SameView s s') : SameView s.shiftInputs s'.shiftInputs :=
  { h with inputs := congrArg List.tail h.inputs }

/-- A reset edge leaves nothing of the power-up state in view. -/
theorem sameView_resetEdge {s s' : State} (h : s.inputs = s'.inputs) : SameView (resetEdge s) (resetEdge s') :=
  ⟨rfl, rfl, rfl, rfl, rfl, rfl, h⟩

/-! ## The tables the host can read -/

/-- Every entry of both spaces holds the same in two states. -/
def SameTables (s s' : State) : Prop :=
  ∀ sp k, k < sp.size → entry sp k s = entry sp k s'

/-- Complete tables are the same tables. -/
theorem sameTables_of_complete {m : Modulus} {s s' : State} (h : s.tablesComplete m) (h' : s'.tablesComplete m) :
    SameTables s s' := by
  obtain ⟨he, hl⟩ := h
  obtain ⟨he', hl'⟩ := h'
  intro sp k hk
  cases sp with
  | exp => rw [he k hk, he' k hk]
  | log =>
    have hb : (BitVec.ofNat 8 k).toNat = k := Nat.mod_eq_of_lt hk
    rw [← hb, hl, hl']

/-! ## One edge of two runs -/

/-- A command answers the same in both runs: only a valid table's entries reach `rsp_data`. -/
theorem execAt_sameView {m : Modulus} {s s' : State} (i : Instr) (hv : SameView s s')
    (ht : s.valid = true → SameTables s s') :
    ∃ t t', execAt m i s = .next t ∧ execAt m i s' = .next t' ∧ SameView t t' := by
  cases i with
  | nop => exact ⟨_, _, rfl, rfl, hv.respond _ _⟩
  | start =>
    by_cases hp : s.phase = .idle
    · exact ⟨_, _, exec_start_idle hp, exec_start_idle (hv.phase ▸ hp), hv.beginGeneration.respond _ _⟩
    · exact ⟨_, _, exec_start_busy hp, exec_start_busy (hv.phase ▸ hp), hv.respond _ _⟩
  | rdexp o =>
    rcases hs : s.valid with _ | _
    · exact ⟨_, _, exec_rdexp_notReady o hs, exec_rdexp_notReady o (hv.valid ▸ hs), hv.respond _ _⟩
    by_cases ho : o = 0xFF
    · subst ho
      exact ⟨_, _, exec_rdexp_badIndex hs, exec_rdexp_badIndex (hv.valid ▸ hs), hv.respond _ _⟩
    · refine ⟨_, _, exec_rdexp_entry hs ho, exec_rdexp_entry (hv.valid ▸ hs) ho, ?_⟩
      rw [ht hs .exp o.toNat (toNat_lt_of_ne ho)]
      exact hv.respond _ _
  | rdlog o =>
    rcases hs : s.valid with _ | _
    · exact ⟨_, _, exec_rdlog_notReady o hs, exec_rdlog_notReady o (hv.valid ▸ hs), hv.respond _ _⟩
    · refine ⟨_, _, exec_rdlog_entry o hs, exec_rdlog_entry o (hv.valid ▸ hs), ?_⟩
      rw [ht hs .log o.toNat o.isLt]
      exact hv.respond _ _
  | mulg a => exact ⟨_, _, rfl, rfl, hv.respond _ _⟩
  | status =>
    refine ⟨_, _, rfl, rfl, ?_⟩
    rw [hv.statusByte]
    exact hv.respond _ _

theorem commandPart_sameView {m : Modulus} {s s' : State} (hv : SameView s s')
    (ht : s.valid = true → SameTables s s') :
    ∃ t t', commandPart (execAt m) s = .next t ∧ commandPart (execAt m) s' = .next t' ∧ SameView t t' := by
  rcases hc : s.portIn.cmdValid with _ | _
  · exact ⟨_, _, commandPart_none hc, commandPart_none (hv.portIn ▸ hc), hv.noResponse⟩
  rcases hd : decode s.portIn.cmd with i | why
  · rw [commandPart_command hc hd, commandPart_command (hv.portIn ▸ hc) (hv.portIn ▸ hd)]
    exact execAt_sameView i hv ht
  · exact ⟨_, _, commandPart_illegal hc hd, commandPart_illegal (hv.portIn ▸ hc) (hv.portIn ▸ hd), hv.respond _ _⟩

/-- The sequencer takes the same case in both runs: `phase` and `idx` choose it, `cur` and the tables do not. -/
theorem SequencerStep.sameView {m : Modulus} {pre post t pre' post' : State} (h : SequencerStep m pre post t)
    (hpre : SameView pre pre') (hpost : SameView post post') :
    ∃ t', SequencerStep m pre' post' t' ∧ SameView t t' := by
  have hidx : pre.idx + 1 = pre'.idx + 1 := congrArg (· + 1) hpre.idx
  cases h with
  | rest hp => exact ⟨_, .rest (hpre.phase ▸ hp), hpost⟩
  | expInner hp hi => exact ⟨_, .expInner (hpre.phase ▸ hp) (hpre.idx ▸ hi), { hpost with idx := hidx }⟩
  | expLast hp hi =>
    exact ⟨_, .expLast (hpre.phase ▸ hp) (hpre.idx ▸ hi), { hpost with phase := rfl, idx := rfl }⟩
  | initInner hp hi => exact ⟨_, .initInner (hpre.phase ▸ hp) (hpre.idx ▸ hi), { hpost with idx := hidx }⟩
  | initLast hp hi =>
    exact ⟨_, .initLast (hpre.phase ▸ hp) (hpre.idx ▸ hi), { hpost with phase := rfl, idx := rfl }⟩
  | invInner hp hi => exact ⟨_, .invInner (hpre.phase ▸ hp) (hpre.idx ▸ hi), { hpost with idx := hidx }⟩
  | invLast hp hi =>
    exact ⟨_, .invLast (hpre.phase ▸ hp) (hpre.idx ▸ hi), { hpost with phase := rfl, idx := rfl, valid := rfl }⟩

/-- The relation two runs after a reset edge keep: the same view, and each inside R33 with the tables of its generation. -/
structure RunsAlike (m : Modulus) (s s' : State) : Prop where
  view : SameView s s'
  reachable : reachableAt m s = true
  reachable' : reachableAt m s' = true
  tables : TablesTrack m s
  tables' : TablesTrack m s'

/-- A reset edge makes any two runs with the same inputs alike, whatever they held. -/
theorem runsAlike_resetEdge (m : Modulus) {s s' : State} (h : s.inputs = s'.inputs) :
    RunsAlike m (resetEdge s).shiftInputs (resetEdge s').shiftInputs where
  view := (sameView_resetEdge h).shiftInputs
  reachable := reachableAt_resetEdge m s
  reachable' := reachableAt_resetEdge m s'
  tables := tablesTrack_invalid rfl rfl
  tables' := tablesTrack_invalid rfl rfl

/-- While `valid` is 1 both runs hold the complete tables. -/
theorem RunsAlike.complete {m : Modulus} {s s' : State} (h : RunsAlike m s s') (hv : s.valid = true) :
    s.tablesComplete m ∧ s'.tablesComplete m :=
  ⟨h.tables.complete h.reachable hv, h.tables'.complete h.reachable' (h.view.valid ▸ hv)⟩

theorem RunsAlike.sameTables {m : Modulus} {s s' : State} (h : RunsAlike m s s') (hv : s.valid = true) :
    SameTables s s' :=
  let ⟨hc, hc'⟩ := h.complete hv
  sameTables_of_complete hc hc'

/-- One edge of two runs keeps the same view. -/
theorem RunsAlike.stepAt_sameView {m : Modulus} {s s' : State} (h : RunsAlike m s s') :
    ∃ t t', stepAt m s = .next t ∧ stepAt m s' = .next t' ∧ SameView t t' := by
  rcases hn : s.portIn.rst with _ | _
  · obtain ⟨mid, mid', hc, hc', hmid⟩ := commandPart_sameView (m := m) h.view h.sameTables
    obtain ⟨t, ht⟩ := exists_sequencerStep mid h.reachable
    obtain ⟨t', ht', hview⟩ := ht.sameView h.view hmid
    exact ⟨_, _, stepAt_run hn h.reachable hc ht, stepAt_run (h.view.portIn ▸ hn) h.reachable' hc' ht',
      hview.shiftInputs⟩
  · exact ⟨_, _, stepAt_reset hn, stepAt_reset (h.view.portIn ▸ hn), (sameView_resetEdge h.view.inputs).shiftInputs⟩

/-- One edge keeps two runs alike. -/
theorem RunsAlike.step {m : Modulus} {s s' : State} (h : RunsAlike m s s') :
    ∃ t t', stepAt m s = .next t ∧ stepAt m s' = .next t' ∧ RunsAlike m t t' := by
  obtain ⟨t, t', ht, ht', hview⟩ := h.stepAt_sameView
  exact ⟨t, t', ht, ht', hview, stepAt_reachableAt h.reachable ht, stepAt_reachableAt h.reachable' ht',
    stepAt_tablesTrack h.reachable h.tables ht, stepAt_tablesTrack h.reachable' h.tables' ht'⟩

/-- Any number of edges keeps two runs alike. -/
theorem RunsAlike.edges {m : Modulus} {s s' : State} (n : Nat) (h : RunsAlike m s s') :
    ∃ t t', edges (stepAt m) n s = .next t ∧ edges (stepAt m) n s' = .next t' ∧ RunsAlike m t t' := by
  induction n generalizing s s' with
  | zero => exact ⟨s, s', rfl, rfl, h⟩
  | succ n ih =>
    obtain ⟨u, u', hu, hu', hnext⟩ := h.step
    rw [edges_succ, edges_succ, hu, hu']
    exact ih hnext

/-- Settles O49: the reset edge makes the two runs alike, every further edge keeps them so, and runs alike show the same
outputs and, while `valid` is 1, hold the same complete tables. -/
theorem powerUpContentsStayHidden : Obligations.PowerUpContentsStayHidden := by
  unfold Obligations.PowerUpContentsStayHidden
  intro p q hin hrst n hn
  obtain ⟨k, rfl⟩ : ∃ k, n = k + 1 := ⟨n - 1, by omega⟩
  have hrst' : q.portIn.rst = true := by rwa [State.portIn, ← hin]
  obtain ⟨t, u, ht, hu, halike⟩ := (runsAlike_resetEdge Config.modulus hin).edges k
  rw [← stepAt_modulus, edges_succ, edges_succ, stepAt_reset hrst, stepAt_reset hrst']
  refine ⟨t, u, ht, hu, halike.view.outputs, fun hv => ?_⟩
  obtain ⟨hc, hc'⟩ := halike.complete hv
  have hsame := sameTables_of_complete hc hc'
  exact ⟨hc, hc', hsame .exp, hsame .log⟩

end Sys2Proof.Machine
end

