-- ==== Sys2Proof/Proofs/TableWriters.lean ====
section
/-! Who writes a table (20_memory.md R48): the tables under the command part, the one entry the sequencer stores to, and an
idle machine that is sent no START. -/

namespace Sys2Proof.Machine

/-! ## The word of START -/

/-- The three fields are the whole word (30_encoding.md R62). -/
theorem formatC_fields (w : CmdWord) : formatC (opField w) (rsvField w) (opndField w) = w := by
  have hhigh : opField w ++ rsvField w = w.extractLsb' 8 8 := BitVec.extractLsb'_append_extractLsb'_eq_extractLsb' rfl
  rw [formatC, hhigh]
  exact (BitVec.extractLsb'_append_extractLsb'_eq_extractLsb' rfl).trans BitVec.extractLsb'_eq_self

theorem decodeBare_eq_command {i j : Instr} {opnd : Byte} (h : decodeBare i opnd = .command j) : opnd = 0 ∧ i = j := by
  unfold decodeBare at h
  split at h
  · exact ⟨‹_›, Decoded.command.inj h⟩
  · cases h

/-- START is decoded from the encoder's word only. -/
theorem eq_encode_of_decode_start {w : CmdWord} (h : decode w = .command .start) : w = encode .start := by
  unfold decode at h
  split at h
  · next hrsv =>
    split at h
    · cases (decodeBare_eq_command h).2
    · next hop =>
      have hopnd := (decodeBare_eq_command h).1
      have hop : opField w = 1 := BitVec.eq_of_toNat_eq hop
      rw [← formatC_fields w, hop, hrsv, hopnd]
      rfl
    · cases h
    · cases h
    · cases h
    · cases (decodeBare_eq_command h).2
    · cases h
  · cases h

/-! ## Tables and entries under the command part -/

/-- The tables of a state are its two registers of storage. -/
theorem table_congr {s t : State} (hexp : s.expMem = t.expMem) (hlog : s.logMem = t.logMem) (sp : Space) :
    s.table sp = t.table sp := by
  cases sp with
  | exp => exact hexp
  | log => exact hlog

/-- An entry depends on the two tables only. -/
theorem entry_eq_of_tables {s t : State} (hexp : s.expMem = t.expMem) (hlog : s.logMem = t.logMem) (sp : Space)
    (k : Nat) : entry sp k s = entry sp k t :=
  entry_congr k (table_congr hexp hlog sp)

theorem entry_of_agreeButResponse {s t : State} (h : s.agreeButResponse t) (sp : Space) (k : Nat) :
    entry sp k s = entry sp k t := by
  obtain ⟨-, -, -, -, hexp, hlog, -⟩ := h
  exact entry_eq_of_tables hexp hlog sp k

/-- No command writes a table entry. -/
theorem execAt_entry {m : Modulus} {i : Instr} {s t : State} (h : execAt m i s = .next t) (sp : Space) (k : Nat) :
    entry sp k t = entry sp k s := by
  rcases execAt_cases m i s with ⟨st, d, h'⟩ | ⟨-, -, h'⟩
  · obtain rfl := Host.Outcome.next.inj (h.symm.trans h')
    rw [entry_respond]
  · obtain rfl := Host.Outcome.next.inj (h.symm.trans h')
    rw [entry_respond, entry_beginGeneration]

/-- The command part of an edge writes no table entry. -/
theorem EdgeParts.mid_entry {m : Modulus} {s mid t : State} (h : EdgeParts m s mid t) (sp : Space) (k : Nat) :
    entry sp k mid = entry sp k s := by
  rcases h.effect with ha | ⟨-, rfl⟩
  · exact (entry_of_agreeButResponse ha sp k).symm
  · rw [entry_respond, entry_beginGeneration]

/-! ## The entry the sequencer stores to -/

theorem writtenEntry_expGen {s : State} (hp : s.phase = .expGen) : s.writtenEntry = some (.exp, s.idx.toNat) := by
  rw [State.writtenEntry, hp]

theorem writtenEntry_logInit {s : State} (hp : s.phase = .logInit) (hi : s.idx.toNat ≤ 255) :
    s.writtenEntry = some (.log, s.idx.toNat) := by
  rw [State.writtenEntry, hp, ← idxByte_toNat (Nat.lt_succ_of_le hi)]

theorem writtenEntry_logInv {s : State} (hp : s.phase = .logInv) :
    s.writtenEntry = some (.log, (entry .exp s.idx.toNat s).toNat) := by
  rw [State.writtenEntry, hp]

/-- A write to one entry keeps every other entry, in whatever state the two tables then stand. -/
theorem entry_of_tables_written {sp sp' : Space} {k k' : Nat} {v : Byte} {s t : State}
    (hexp : t.expMem = (s.setTable sp ((s.table sp).write k v)).expMem)
    (hlog : t.logMem = (s.setTable sp ((s.table sp).write k v)).logMem) (h : some (sp, k) ≠ some (sp', k')) :
    entry sp' k' t = entry sp' k' s := by
  rw [entry_eq_of_tables hexp hlog, entry_setTable_write, if_neg]
  rintro ⟨rfl, rfl⟩
  exact h rfl

/-- The sequencer keeps every entry but the one its pre-edge phase stores to (41_exp_table_generator.md R104;
42_log_table_inverter.md R123, R127). -/
theorem SequencerStep.entry_of_ne {m : Modulus} {pre post t : State} {sp : Space} {k : Nat}
    (h : SequencerStep m pre post t) (hw : pre.writtenEntry ≠ some (sp, k)) : entry sp k t = entry sp k post := by
  cases h with
  | rest hp => rfl
  | expInner hp hi =>
    rw [writtenEntry_expGen hp] at hw
    exact entry_of_tables_written rfl rfl hw
  | expLast hp hi =>
    rw [writtenEntry_expGen hp, hi] at hw
    exact entry_of_tables_written rfl rfl hw
  | initInner hp hi =>
    rw [writtenEntry_logInit hp hi.le] at hw
    exact entry_of_tables_written rfl rfl hw
  | initLast hp hi =>
    rw [writtenEntry_logInit hp (by simp [hi]), hi] at hw
    exact entry_of_tables_written rfl rfl hw
  | invInner hp hi =>
    rw [writtenEntry_logInv hp] at hw
    exact entry_of_tables_written rfl rfl hw
  | invLast hp hi =>
    rw [writtenEntry_logInv hp, hi] at hw
    exact entry_of_tables_written rfl rfl hw

/-! ## One edge -/

/-- An edge without reset answers a state only from inside R33. -/
theorem reachableAt_of_stepAt {m : Modulus} {s t : State} (hn : s.portIn.rst = false) (h : stepAt m s = .next t) :
    reachableAt m s = true := by
  rcases clockEdge_inv h with ⟨hrst, -⟩ | ⟨-, hr, -⟩
  · rw [hn] at hrst
    cases hrst
  · exact hr

/-- An edge without reset keeps every entry but the one the sequencer stores to. -/
theorem stepAt_entry_of_ne {m : Modulus} {s t : State} {sp : Space} {k : Nat} (hn : s.portIn.rst = false)
    (h : stepAt m s = .next t) (hw : s.writtenEntry ≠ some (sp, k)) : entry sp k t = entry sp k s := by
  have hr := reachableAt_of_stepAt hn h
  obtain ⟨mid, u, hu⟩ := exists_edgeParts hr
  obtain rfl := Host.Outcome.next.inj (h.symm.trans (hu.stepAt_eq hn hr))
  rw [entry_shiftInputs, hu.sequencer.entry_of_ne hw, hu.mid_entry]

/-- A reset edge keeps every entry (70_reset_and_hazards.md R180). -/
theorem stepAt_reset_entry {m : Modulus} {s t : State} (hrst : s.portIn.rst = true) (h : stepAt m s = .next t)
    (sp : Space) (k : Nat) : entry sp k t = entry sp k s := by
  obtain rfl := Host.Outcome.next.inj (h.symm.trans (stepAt_reset hrst))
  rw [entry_shiftInputs, entry_resetEdge]

/-! ## An idle machine that is sent no START -/

/-- The inputs of an undisturbed run: the next edge, and those after it. -/
theorem undisturbedFor_succ {s : State} {n : Nat} (h : s.undisturbedFor (n + 1)) :
    s.portIn.rst = false ∧ ¬ s.accepts (encode .start) ∧ ∀ t : State, t.inputs = s.inputs.tail → t.undisturbedFor n := by
  cases hin : s.inputs with
  | nil =>
    rw [State.accepts, portIn_of_nil hin]
    refine ⟨rfl, fun ⟨_, hv, _⟩ => Bool.false_ne_true hv, fun t ht => ?_⟩
    simp [State.undisturbedFor, ht]
  | cons d ds =>
    rw [State.undisturbedFor, hin, List.take_succ_cons, List.forall_mem_cons] at h
    obtain ⟨⟨hrst, hstart⟩, hrest⟩ := h
    rw [State.accepts, portIn_of_cons hin]
    refine ⟨hrst, fun ⟨_, hv, hw⟩ => hstart hv hw, fun t ht => ?_⟩
    rwa [State.undisturbedFor, ht]

/-- A command part without START writes the response registers only. -/
theorem commandPart_of_not_start {m : Modulus} {s : State} (hn : s.portIn.rst = false)
    (hs : ¬ s.accepts (encode .start)) : ∃ t, commandPart (execAt m) s = .next t ∧ s.agreeButResponse t := by
  rcases commandPart_cases m s with ⟨st, d, h⟩ | ⟨-, h⟩ | ⟨hv, hd, -, -⟩
  · exact ⟨_, h, agreeButResponse_respond st d s⟩
  · exact ⟨_, h, agreeButResponse_noResponse s⟩
  · exact absurd ⟨hn, hv, eq_encode_of_decode_start hd⟩ hs

/-- An edge without reset or START leaves an idle machine as it is, with another response. -/
theorem stepAt_idle {m : Modulus} {s : State} (hp : s.phase = .idle) (hr : reachableAt m s = true)
    (hn : s.portIn.rst = false) (hs : ¬ s.accepts (encode .start)) :
    ∃ t, stepAt m s = .next t.shiftInputs ∧ s.agreeButResponse t := by
  obtain ⟨t, hc, ht⟩ := commandPart_of_not_start hn hs
  exact ⟨t, stepAt_run hn hr hc (.rest hp), ht⟩

/-- Any number of edges without reset or START keep an idle machine idle, with its `valid` and its tables. -/
theorem edges_idle {m : Modulus} {n : Nat} {s : State} (hp : s.phase = .idle) (hr : reachableAt m s = true)
    (hu : s.undisturbedFor n) :
    ∃ t, edges (stepAt m) n s = .next t ∧ t.phase = .idle ∧ t.valid = s.valid ∧ t.expMem = s.expMem ∧
      t.logMem = s.logMem := by
  induction n generalizing s with
  | zero => exact ⟨s, rfl, hp, rfl, rfl, rfl⟩
  | succ n ih =>
    obtain ⟨hn, hs, hrest⟩ := undisturbedFor_succ hu
    obtain ⟨u, hstep, hagree⟩ := stepAt_idle hp hr hn hs
    have hru := stepAt_reachableAt hr hstep
    obtain ⟨hphase, -, -, hvalid, hexp, hlog, hin⟩ := hagree
    rw [edges_succ, hstep, andThen_next, hvalid, hexp, hlog]
    exact ih (hphase.symm.trans hp) hru (hrest _ (congrArg List.tail hin.symm))

/-- Settles O34: a command and a reset edge write no entry, the sequencer's step stores to the one entry its phase names,
and an idle machine that is sent no START has no sequencer step to make. -/
theorem onlyTheSequencerWritesTables : Obligations.OnlyTheSequencerWritesTables := by
  unfold Obligations.OnlyTheSequencerWritesTables
  rw [← stepAt_modulus, ← execAt_modulus]
  refine ⟨fun s t hn h sp k => stepAt_entry_of_ne hn h, fun s t => stepAt_reset_entry, fun i s t => execAt_entry,
    fun n s hp hr hu => ?_⟩
  obtain ⟨t, ht, hphase, hvalid, hexp, hlog⟩ := edges_idle hp hr hu
  exact ⟨t, ht, hphase, hvalid, hexp, hlog, entry_eq_of_tables hexp hlog⟩

end Sys2Proof.Machine
end

