-- ==== Sys2Proof/Proofs/Encoding.lean ====
section
/-! The decoder and the encoder of format C (30_encoding.md sections 2 and 3): what the decoder answers for each opcode, the
one word of each command, the rows of the opcode map as sets of such words, and how many words there are of each kind. -/

namespace Sys2Proof.Machine

/-! ## The fields of a word built from three fields -/

@[simp] theorem opField_formatC (op rsv : BitVec 4) (opnd : Byte) : opField (formatC op rsv opnd) = op :=
  (BitVec.extractLsb'_append_eq_of_le (by decide)).trans BitVec.extractLsb'_append_eq_left

@[simp] theorem rsvField_formatC (op rsv : BitVec 4) (opnd : Byte) : rsvField (formatC op rsv opnd) = rsv :=
  (BitVec.extractLsb'_append_eq_of_le (by decide)).trans BitVec.extractLsb'_append_eq_right

@[simp] theorem opndField_formatC (op rsv : BitVec 4) (opnd : Byte) : opndField (formatC op rsv opnd) = opnd :=
  BitVec.extractLsb'_append_eq_right

/-- Every word is of format C. -/
theorem exists_formatC (w : CmdWord) : ∃ op rsv opnd, w = formatC op rsv opnd :=
  ⟨_, _, _, (formatC_fields w).symm⟩

/-! ## The decoder, one opcode at a time (R65) -/

/-- A command without an operand is decoded from the operand byte 0 only. -/
theorem decodeBare_answers (i : Instr) (opnd : Byte) :
    (opnd = 0 → decodeBare i opnd = .command i) ∧ (opnd ≠ 0 → ∃ why, decodeBare i opnd = .illegalWord why) :=
  ⟨fun h => if_pos h, fun h => ⟨_, if_neg h⟩⟩

theorem decode_reservedField (op : BitVec 4) {rsv : BitVec 4} (opnd : Byte) (h : rsv ≠ 0) :
    decode (formatC op rsv opnd) = .illegalWord .reservedField := by
  rw [decode, rsvField_formatC, if_neg h]

theorem decode_nop (opnd : Byte) : decode (formatC 0x0 0 opnd) = decodeBare .nop opnd := by simp [decode]
theorem decode_start (opnd : Byte) : decode (formatC 0x1 0 opnd) = decodeBare .start opnd := by simp [decode]
theorem decode_rdexp (opnd : Byte) : decode (formatC 0x2 0 opnd) = .command (.rdexp opnd) := by simp [decode]
theorem decode_rdlog (opnd : Byte) : decode (formatC 0x3 0 opnd) = .command (.rdlog opnd) := by simp [decode]
theorem decode_mulg (opnd : Byte) : decode (formatC 0x4 0 opnd) = .command (.mulg opnd) := by simp [decode]
theorem decode_status (opnd : Byte) : decode (formatC 0x5 0 opnd) = decodeBare .status opnd := by simp [decode]

theorem decode_reservedOpcode {op : BitVec 4} (opnd : Byte) (h : 6 ≤ op.toNat) :
    decode (formatC op 0 opnd) = .illegalWord .reservedOpcode := by
  obtain ⟨n, hn⟩ := Nat.exists_eq_add_of_le' h
  rw [decode, rsvField_formatC, if_pos rfl, opField_formatC, hn]
  rfl

/-- The opcodes R63 names, and the reserved ones. -/
theorem opcode_cases (op : BitVec 4) :
    op = 0x0 ∨ op = 0x1 ∨ op = 0x2 ∨ op = 0x3 ∨ op = 0x4 ∨ op = 0x5 ∨ 6 ≤ op.toNat := by
  revert op; decide

/-! ## One word for each command -/

theorem decode_encode (i : Instr) : decode (encode i) = .command i := by
  cases i with
  | nop => exact decode_nop 0
  | start => exact decode_start 0
  | rdexp i => exact decode_rdexp i
  | rdlog b => exact decode_rdlog b
  | mulg a => exact decode_mulg a
  | status => exact decode_status 0

theorem encode_injective : Function.Injective encode := fun i j h =>
  Decoded.command.inj (by rw [← decode_encode i, h, decode_encode])

theorem encode_of_decodeBare {i j : Instr} {opnd : Byte} (hi : i.operand = none)
    (h : decodeBare i opnd = .command j) : encode j = formatC i.opcode 0 opnd := by
  obtain ⟨rfl, rfl⟩ := decodeBare_eq_command h
  rw [encode, hi, Option.getD_none]

/-- The decoder reads a command from the encoder's word only. -/
theorem encode_of_decode {w : CmdWord} {i : Instr} (h : decode w = .command i) : encode i = w := by
  obtain ⟨op, rsv, opnd, rfl⟩ := exists_formatC w
  by_cases hrsv : rsv = 0
  · subst hrsv
    rcases opcode_cases op with rfl | rfl | rfl | rfl | rfl | rfl | hop
    · exact encode_of_decodeBare (i := .nop) rfl (decode_nop opnd ▸ h)
    · exact encode_of_decodeBare (i := .start) rfl (decode_start opnd ▸ h)
    · obtain rfl := Decoded.command.inj (decode_rdexp opnd ▸ h)
      rfl
    · obtain rfl := Decoded.command.inj (decode_rdlog opnd ▸ h)
      rfl
    · obtain rfl := Decoded.command.inj (decode_mulg opnd ▸ h)
      rfl
    · exact encode_of_decodeBare (i := .status) rfl (decode_status opnd ▸ h)
    · cases (decode_reservedOpcode opnd hop).symm.trans h
  · cases (decode_reservedField op opnd hrsv).symm.trans h

theorem decode_eq_command_iff {w : CmdWord} {i : Instr} : decode w = .command i ↔ encode i = w :=
  ⟨encode_of_decode, fun h => h ▸ decode_encode i⟩

/-- A word is illegal exactly when it is no command's. -/
theorem exists_illegalWord_iff {w : CmdWord} : (∃ why, decode w = .illegalWord why) ↔ ¬ ∃ i, decode w = .command i := by
  cases decode w <;> simp

theorem opndField_encode {i : Instr} {o : Byte} (h : i.operand = some o) : opndField (encode i) = o := by
  rw [encode, opndField_formatC, h, Option.getD_some]

/-! ## How many words (R65) -/

/-- All commands: three without an operand, and one for each operand byte of the other three. -/
def allCommands : List Instr :=
  [.nop, .start, .status] ++ (FinEnum.toList Byte).map .rdexp ++ (FinEnum.toList Byte).map .rdlog ++
    (FinEnum.toList Byte).map .mulg

theorem mem_allCommands (i : Instr) : i ∈ allCommands := by
  cases i <;> simp [allCommands]

theorem length_allCommands : allCommands.length = 771 := by
  simp [allCommands, FinEnum.toList]

theorem nodup_allCommands : allCommands.Nodup := by
  have hmap (f : Byte → Instr) (hf : f.Injective) : ((FinEnum.toList Byte).map f).Nodup := FinEnum.nodup_toList.map hf
  simp [allCommands, List.nodup_append, hmap _ fun _ _ => Instr.rdexp.inj, hmap _ fun _ _ => Instr.rdlog.inj,
    hmap _ fun _ _ => Instr.mulg.inj]
  rintro o _ (⟨o', rfl⟩ | ⟨o', rfl⟩) ⟨⟩

/-- The words of the commands. -/
def commandWords : List CmdWord := allCommands.map encode

theorem mem_commandWords {w : CmdWord} : w ∈ commandWords ↔ ∃ i, decode w = .command i := by
  simp [commandWords, mem_allCommands, decode_eq_command_iff]

theorem length_commandWords : commandWords.length = 771 := by
  rw [commandWords, List.length_map, length_allCommands]

theorem nodup_commandWords : commandWords.Nodup := nodup_allCommands.map encode_injective

/-- Of the 2 ^ 16 words, 64765 are no command's. -/
theorem card_compl_commandWords : commandWords.toFinsetᶜ.card = 64765 := by
  rw [Finset.card_compl, List.toFinset_card_of_nodup nodup_commandWords, length_commandWords,
    ← FinEnum.card_eq_fintypeCard, FinEnum.card_bitVec]
  rfl

/-- Settles O1: the decoder's answer for each opcode, the fields as the whole word, and the counts from the one word of each
of the 771 commands. -/
theorem decodeFollowsTheRule : Obligations.DecodeFollowsTheRule := by
  unfold Obligations.DecodeFollowsTheRule
  refine ⟨fun op rsv opnd => ⟨fun h => ⟨_, decode_reservedField op opnd h⟩, ?_⟩, formatC_fields,
    ⟨commandWords, nodup_commandWords, length_commandWords, fun w => mem_commandWords⟩,
    ⟨commandWords.toFinsetᶜ.toList, Finset.nodup_toList _, ?_, fun w => ?_⟩⟩
  · rintro rfl
    refine ⟨?nop, ?start, ?rdexp, ?rdlog, ?mulg, ?status, fun h => ⟨_, decode_reservedOpcode opnd h⟩⟩
    case nop =>
      rintro rfl
      rw [decode_nop]
      exact decodeBare_answers .nop opnd
    case start =>
      rintro rfl
      rw [decode_start]
      exact decodeBare_answers .start opnd
    case rdexp => exact fun h => h ▸ decode_rdexp opnd
    case rdlog => exact fun h => h ▸ decode_rdlog opnd
    case mulg => exact fun h => h ▸ decode_mulg opnd
    case status =>
      rintro rfl
      rw [decode_status]
      exact decodeBare_answers .status opnd
  · rw [Finset.length_toList, card_compl_commandWords]
  · rw [Finset.mem_toList, Finset.mem_compl, List.mem_toFinset, mem_commandWords, exists_illegalWord_iff]

/-! ## The rows of the opcode map (R63) -/

theorem selects_iff (r : OpcodeRow) (w : CmdWord) : r.selects w = true ↔ w &&& r.mask = r.matchBits := beq_iff_eq

theorem formatC_and (op rsv op' rsv' : BitVec 4) (opnd opnd' : Byte) :
    formatC op rsv opnd &&& formatC op' rsv' opnd' = formatC (op &&& op') (rsv &&& rsv') (opnd &&& opnd') := by
  have hhigh : (op ++ rsv) &&& (op' ++ rsv') = (op &&& op') ++ (rsv &&& rsv') := BitVec.and_append
  rw [formatC, formatC, formatC, ← hhigh]
  exact BitVec.and_append

/-- The mask 16'hFF00 keeps `op` and `rsv` and clears the operand. -/
theorem formatC_and_FF00 (op rsv : BitVec 4) (opnd : Byte) : formatC op rsv opnd &&& 0xFF00 = formatC op rsv 0 := by
  have hmask : (0xFF00 : CmdWord) = formatC (BitVec.allOnes 4) (BitVec.allOnes 4) 0#8 := rfl
  rw [hmask, formatC_and, BitVec.and_allOnes, BitVec.and_allOnes, BitVec.and_zero]
  rfl

/-- A word that a row with an operand selects is format C with that row's opcode. -/
theorem eq_formatC_of_and_FF00 {w : CmdWord} {op : BitVec 4} (h : w &&& 0xFF00 = formatC op 0 0) :
    formatC op 0 (opndField w) = w := by
  obtain ⟨op', rsv, opnd, rfl⟩ := exists_formatC w
  rw [formatC_and_FF00] at h
  have hop := congrArg opField h
  have hrsv := congrArg rsvField h
  simp only [opField_formatC, rsvField_formatC] at hop hrsv
  rw [opndField_formatC, hop, hrsv]

/-- The mask 16'hFFFF compares the whole word. -/
theorem eq_of_and_FFFF {w v : CmdWord} (h : w &&& 0xFFFF = v) : v = w := h.symm.trans BitVec.and_allOnes

/-- A word that a row selects is the word of a command of the row's name. -/
theorem exists_encode_of_selects {r : OpcodeRow} (hr : r ∈ opcodeTable) {w : CmdWord} (h : r.selects w = true) :
    ∃ i, encode i = w ∧ i.mnemonic = r.mnemonic := by
  rw [selects_iff] at h
  simp only [opcodeTable, List.mem_cons, List.not_mem_nil, or_false] at hr
  rcases hr with rfl | rfl | rfl | rfl | rfl | rfl
  · exact ⟨.nop, eq_of_and_FFFF h, rfl⟩
  · exact ⟨.start, eq_of_and_FFFF h, rfl⟩
  · exact ⟨.rdexp (opndField w), eq_formatC_of_and_FF00 (op := 0x2) h, rfl⟩
  · exact ⟨.rdlog (opndField w), eq_formatC_of_and_FF00 (op := 0x3) h, rfl⟩
  · exact ⟨.mulg (opndField w), eq_formatC_of_and_FF00 (op := 0x4) h, rfl⟩
  · exact ⟨.status, eq_of_and_FFFF h, rfl⟩

/-- A mnemonic has one row. -/
theorem row_eq_of_mnemonic_eq : ∀ r ∈ opcodeTable, ∀ r' ∈ opcodeTable, r.mnemonic = r'.mnemonic → r = r' := by
  decide

theorem selectsOwnRow (i : Instr) : Laws.SelectsOwnRow.Statement i := by
  cases i with
  | nop => exact Laws.SelectsOwnRow.nop
  | start => exact Laws.SelectsOwnRow.start
  | rdexp i => exact Laws.SelectsOwnRow.rdexp i
  | rdlog b => exact Laws.SelectsOwnRow.rdlog b
  | mulg a => exact Laws.SelectsOwnRow.mulg a
  | status => exact Laws.SelectsOwnRow.status

theorem selects_encode {r : OpcodeRow} (hr : r ∈ opcodeTable) {i : Instr} (h : i.mnemonic = r.mnemonic) :
    r.selects (encode i) = true := by
  obtain ⟨r', hr', hm, hs⟩ := selectsOwnRow i
  rwa [row_eq_of_mnemonic_eq r hr r' hr' (h.symm.trans hm.symm)]

theorem selects_iff_decode {r : OpcodeRow} (hr : r ∈ opcodeTable) (w : CmdWord) :
    r.selects w = true ↔ ∃ i, decode w = .command i ∧ i.mnemonic = r.mnemonic := by
  simp only [decode_eq_command_iff]
  refine ⟨exists_encode_of_selects hr, ?_⟩
  rintro ⟨i, rfl, hi⟩
  exact selects_encode hr hi

/-- Two rows that a word selects both name the command it decodes to. -/
theorem row_eq_of_selects {r r' : OpcodeRow} (hr : r ∈ opcodeTable) (hr' : r' ∈ opcodeTable) {w : CmdWord}
    (h : r.selects w = true) (h' : r'.selects w = true) : r = r' := by
  obtain ⟨i, hd, hi⟩ := (selects_iff_decode hr w).1 h
  obtain ⟨j, hd', hj⟩ := (selects_iff_decode hr' w).1 h'
  obtain rfl : i = j := Decoded.command.inj (hd.symm.trans hd')
  exact row_eq_of_mnemonic_eq r hr r' hr' (hi.symm.trans hj)

/-- Settles O2: a row selects the words of its mnemonic's commands and no others, so a word's one command leaves it one
row. -/
theorem decodeSelectsTheOpcodeRow : Obligations.DecodeSelectsTheOpcodeRow := by
  unfold Obligations.DecodeSelectsTheOpcodeRow
  refine ⟨rfl, fun r _ w => selects_iff r w, fun w r hr => selects_iff_decode hr w, fun w i o hd ho => ?_,
    fun w r hr r' hr' => row_eq_of_selects hr hr'⟩
  rw [← encode_of_decode hd, opndField_encode ho]

end Sys2Proof.Machine
end

