-- ==== Sys2Proof/Proofs/Responses.lean ====
section
/-! The response registers over one edge (30_encoding.md R61, R66, R67; 70_reset_and_hazards.md R180): the command part or
the reset edge sets them, the sequencer leaves them alone. -/

namespace Sys2Proof.Machine

/-- The response registers at an edge that accepts no command (R67, R180). -/
structure Silent (t : State) : Prop where
  rspValid : t.rspValid = false
  rspStatus : t.rspStatus = .ok
  rspData : t.rspData = 0x00

theorem silent_noResponse (s : State) : Silent (noResponse s) := ⟨rfl, rfl, rfl⟩

theorem silent_resetEdge (s : State) : Silent (resetEdge s) := ⟨rfl, rfl, rfl⟩

/-- The two states hold the same response. -/
structure SameResponse (s t : State) : Prop where
  rspValid : t.rspValid = s.rspValid
  rspStatus : t.rspStatus = s.rspStatus
  rspData : t.rspData = s.rspData

theorem Silent.of_sameResponse {s t : State} (h : Silent s) (hst : SameResponse s t) : Silent t :=
  ⟨hst.rspValid.trans h.rspValid, hst.rspStatus.trans h.rspStatus, hst.rspData.trans h.rspData⟩

theorem sameResponse_shiftInputs (s : State) : SameResponse s s.shiftInputs := ⟨rfl, rfl, rfl⟩

/-- Neither the sequencer nor the move to the next inputs writes a response register (43_table_access.md R150). -/
theorem SequencerStep.sameResponse {m : Modulus} {pre post t : State} (h : SequencerStep m pre post t) :
    SameResponse post t.shiftInputs := by
  cases h <;> exact ⟨rfl, rfl, rfl⟩

/-- Every command responds. -/
theorem execAt_rspValid {m : Modulus} {i : Instr} {s t : State} (h : execAt m i s = .next t) : t.rspValid = true := by
  rcases execAt_cases m i s with ⟨st, d, he⟩ | ⟨-, -, he⟩
  all_goals
    obtain rfl := Host.Outcome.next.inj (he.symm.trans h)
    rfl

/-- A presented word is answered, whether it is a command or not. -/
theorem commandPart_rspValid {m : Modulus} {s t : State} (hv : s.portIn.cmdValid = true)
    (h : commandPart (execAt m) s = .next t) : t.rspValid = true := by
  rcases hd : decode s.portIn.cmd with i | why
  · exact execAt_rspValid (commandPart_command hv hd ▸ h)
  · rw [commandPart_illegal hv hd] at h
    obtain rfl := Host.Outcome.next.inj h
    rfl

theorem commandPart_silent {m : Modulus} {s t : State} (hv : s.portIn.cmdValid = false)
    (h : commandPart (execAt m) s = .next t) : Silent t := by
  rw [commandPart_none hv] at h
  obtain rfl := Host.Outcome.next.inj h
  exact silent_noResponse s

/-- An edge that is taken accepts a command and answers it, or accepts none and clears the response registers. -/
theorem stepAt_response {m : Modulus} {s t : State} (h : stepAt m s = .next t) :
    ((s.portIn.rst = false ∧ s.portIn.cmdValid = true) ∧ t.rspValid = true) ∨
    (¬ (s.portIn.rst = false ∧ s.portIn.cmdValid = true) ∧ Silent t) := by
  rcases hn : s.portIn.rst with _ | _
  · rcases stepAt_inv (reachableAt_of_stepAt hn h) h with ⟨hrst, -⟩ | ⟨-, mid, u, hu, rfl⟩
    · cases hn.symm.trans hrst
    · have hsame := hu.sequencer.sameResponse
      rcases hv : s.portIn.cmdValid with _ | _
      · exact .inr ⟨by simp, (commandPart_silent hv hu.command).of_sameResponse hsame⟩
      · exact .inl ⟨⟨rfl, rfl⟩, hsame.rspValid.trans (commandPart_rspValid hv hu.command)⟩
  · rw [stepAt_reset hn] at h
    obtain rfl := Host.Outcome.next.inj h
    exact .inr ⟨by simp, (silent_resetEdge s).of_sameResponse (sameResponse_shiftInputs _)⟩

theorem stepAt_rspValid_iff {m : Modulus} {s t : State} (h : stepAt m s = .next t) :
    t.rspValid = true ↔ s.portIn.rst = false ∧ s.portIn.cmdValid = true := by
  rcases stepAt_response h with ⟨ha, ht⟩ | ⟨ha, ht⟩
  · simp [ha, ht]
  · simp [ha, ht.rspValid]

theorem stepAt_silent {m : Modulus} {s t : State} (h : stepAt m s = .next t) (ht : t.rspValid = false) : Silent t := by
  rcases stepAt_response h with ⟨-, hv⟩ | ⟨-, hs⟩
  · cases ht.symm.trans hv
  · exact hs

/-- R33 does not speak of what the host drives. -/
theorem reachableAt_drive (m : Modulus) (d : PortIn) (s : State) : reachableAt m (s.drive d) = reachableAt m s := rfl

/-- Settles O20: the command part decides the response of an edge without reset, and inside R33 every word is accepted. -/
theorem everyEdgeReplacesTheResponse : Obligations.EveryEdgeReplacesTheResponse := by
  unfold Obligations.EveryEdgeReplacesTheResponse
  simp only [← reachable_iff_shape, ← stepAt_modulus]
  refine ⟨fun s t => stepAt_rspValid_iff, fun s t h ht => ?_, fun s => rfl, fun s w hs => ?_⟩
  · have hsilent := stepAt_silent h ht
    exact ⟨hsilent.rspStatus, hsilent.rspData⟩
  · obtain ⟨t, ht⟩ := stepAt_progress ((reachableAt_drive _ (PortIn.present w) s).trans hs)
    exact ⟨t, ht, (stepAt_rspValid_iff ht).2 ⟨rfl, rfl⟩⟩

end Sys2Proof.Machine
end

