-- ==== Sys2Proof/Proofs/Reducer.lean ====
section
/-! The reducer (40_poly_mult_reducer.md section 1): its value as a shift and a reduction, its linearity, and its zeros.
The first two hold under every modulus, the last under every modulus whose bit 0 is set, as `MODULUS[0]` is. -/

namespace Sys2Proof.Machine

/-- What the reducer XORs into the shifted byte (R80): the low byte of the modulus where bit 8 comes out. -/
def reductionAt (m : Modulus) (a : Byte) : Byte := if a.getLsbD 7 = true then m.setWidth 8 else 0

/-! ## The value of the reducer (R80) -/

/-- Bit 8 of the nine-bit shift is bit 7 of the byte. -/
theorem getLsbD_shifted_eight (a : Byte) : (a.setWidth 9 <<< 1).getLsbD 8 = a.getLsbD 7 := by simp

theorem setWidth_shifted (a : Byte) : (a.setWidth 9 <<< 1).setWidth 8 = a <<< 1 := by
  rw [BitVec.setWidth_shiftLeft_of_le (by decide), BitVec.setWidth_setWidth_of_le _ (by decide), BitVec.setWidth_eq]

theorem mulGenAt_eq (m : Modulus) (a : Byte) : mulGenAt m a = a <<< 1 ^^^ reductionAt m a := by
  simp only [mulGenAt, reductionAt, getLsbD_shifted_eight]
  split
  · rw [BitVec.setWidth_xor, setWidth_shifted]
  · rw [setWidth_shifted, BitVec.ofNat_eq_ofNat, BitVec.xor_zero]

/-- The shifted byte in R80's spelling, `(a[6:0], 0)`. -/
theorem shiftLeft_one_eq_append (a : Byte) : a <<< 1 = a.extractLsb' 0 7 ++ 0#1 :=
  (BitVec.shiftLeft_eq_concat_of_lt (by decide)).trans (BitVec.cast_eq _ _)

/-- Settles O25: the value of the reducer, and bit 8 of an XOR as the XOR of the two bits 8. -/
theorem reducerShiftsAndReduces : Obligations.ReducerShiftsAndReduces := by
  unfold Obligations.ReducerShiftsAndReduces
  simp only [← shiftLeft_one_eq_append]
  refine ⟨mulGenAt_eq Config.modulus, mulGenAt_eq, fun m t hm ht => ?_⟩
  rw [BitVec.getLsbD_xor, ht, hm, Bool.xor_self]

/-! ## Linearity -/

theorem reductionAt_xor (m : Modulus) (a b : Byte) : reductionAt m (a ^^^ b) = reductionAt m a ^^^ reductionAt m b := by
  unfold reductionAt
  rw [BitVec.getLsbD_xor]
  cases a.getLsbD 7 <;> cases b.getLsbD 7 <;> simp

theorem mulGenAt_xor (m : Modulus) (a b : Byte) : mulGenAt m (a ^^^ b) = mulGenAt m a ^^^ mulGenAt m b := by
  rw [mulGenAt_eq, mulGenAt_eq, mulGenAt_eq, BitVec.shiftLeft_xor_distrib, reductionAt_xor]
  ac_rfl

theorem mulGenAt_zero (m : Modulus) : mulGenAt m 0 = 0 := rfl

/-! ## The zeros -/

/-- Without bit 7 there is no reduction, and the shift doubles. -/
theorem mulGenAt_toNat_of_bit7 (m : Modulus) {a : Byte} (h : a.getLsbD 7 = false) :
    (mulGenAt m a).toNat = 2 * a.toNat := by
  have hlt : 2 * a.toNat < 2 ^ 8 := BitVec.msb_eq_false_iff_two_mul_lt.1 (a.msb_eq_getLsbD_last.trans h)
  have hred : reductionAt m a = 0#8 := if_neg (Bool.eq_false_iff.1 h)
  rw [mulGenAt_eq, hred, BitVec.xor_zero, BitVec.toNat_shiftLeft, Nat.shiftLeft_eq, pow_one, Nat.mul_comm,
    Nat.mod_eq_of_lt hlt]

/-- The shift brings in a 0, so bit 0 of the value tells whether there was a reduction. -/
theorem getLsbD_mulGenAt_zero {m : Modulus} (hm : m.getLsbD 0 = true) (a : Byte) :
    (mulGenAt m a).getLsbD 0 = a.getLsbD 7 := by
  rw [mulGenAt_eq, reductionAt]
  cases h : a.getLsbD 7 <;> simp [hm]

/-- R81: the only zero of the reducer is 0, because bit 0 of the modulus is 1. -/
theorem eq_zero_of_mulGenAt {m : Modulus} (hm : m.getLsbD 0 = true) {a : Byte} (h : mulGenAt m a = 0) : a = 0 := by
  have hbit : a.getLsbD 7 = false := by
    rw [← getLsbD_mulGenAt_zero hm, h]
    rfl
  have hdouble := mulGenAt_toNat_of_bit7 m hbit
  rw [h] at hdouble
  exact BitVec.eq_of_toNat_eq ((Nat.mul_eq_zero.1 hdouble.symm).resolve_left (by decide))

/-- A linear map whose only zero is 0 is injective. -/
theorem mulGenAt_injective {m : Modulus} (hm : m.getLsbD 0 = true) : Function.Injective (mulGenAt m) := fun a b h =>
  BitVec.xor_eq_zero_iff.1 (eq_zero_of_mulGenAt hm (by rw [mulGenAt_xor, h, BitVec.xor_self]; rfl))

theorem modulus_bit0 : Config.modulus.getLsbD 0 = true := rfl

theorem mulGen_injective : Function.Injective mulGen := mulGenAt_injective modulus_bit0

theorem mulGen_8E : mulGen 0x8E = 1 := rfl

/-- Settles O26: a linear map whose only zero is 0 is injective, so bijective on the finitely many bytes. -/
theorem reducerIsALinearBijection : Obligations.ReducerIsALinearBijection := by
  unfold Obligations.ReducerIsALinearBijection
  refine ⟨mulGenAt_zero _, fun a => mt (eq_zero_of_mulGenAt modulus_bit0),
    Finite.injective_iff_bijective.1 mulGen_injective, mulGenAt_xor _, fun a => ?_, fun a => mulGenAt_toNat_of_bit7 _⟩
  rw [← mulGen_8E, mulGen_injective.eq_iff]

end Sys2Proof.Machine
end

