-- ==== Sys2Proof/Proofs/ResponseOnly.lean ====
section
/-! An edge whose command only responds, against the same edge without a command (43_table_access.md R150, R151): the
two differ in the response registers alone. -/

namespace Sys2Proof.Machine

/-! ## The registers of the sequencer -/

/-- Two states that differ in the response registers and in what the host drives at the coming edge at most. -/
structure SameSequencer (s s' : State) : Prop where
  phase : s.phase = s'.phase
  idx : s.idx = s'.idx
  cur : s.cur = s'.cur
  valid : s.valid = s'.valid
  expMem : s.expMem = s'.expMem
  logMem : s.logMem = s'.logMem
  laterInputs : s.inputs.tail = s'.inputs.tail

theorem sameSequencer_quietNext (s : State) : SameSequencer s s.quietNext := ⟨rfl, rfl, rfl, rfl, rfl, rfl, rfl⟩

theorem SameSequencer.respond_noResponse {s s' : State} (h : SameSequencer s s') (st : Status) (d : Byte) :
    SameSequencer (respond st d s) (noResponse s') :=
  { h with }

/-- Once the coming edge is past, only the response can differ. -/
theorem SameSequencer.agree_shiftInputs {s s' : State} (h : SameSequencer s s') :
    s.shiftInputs.agreeButResponse s'.shiftInputs :=
  ⟨h.phase, h.idx, h.cur, h.valid, h.expMem, h.logMem, h.laterInputs⟩

theorem SameSequencer.reachableAt_eq {s s' : State} (h : SameSequencer s s') (m : Modulus) :
    reachableAt m s = reachableAt m s' := by
  simp only [reachableAt, h.phase, h.idx, h.cur, h.valid]

theorem SameSequencer.entry_eq {s s' : State} (h : SameSequencer s s') (sp : Space) (k : Nat) :
    entry sp k s = entry sp k s' :=
  entry_eq_of_tables h.expMem h.logMem sp k

theorem write_congr {mem mem' : Memory} {k k' : Nat} {v v' : Byte} (hmem : mem = mem') (hk : k = k') (hv : v = v') :
    mem.write k v = mem'.write k' v' := by
  rw [hmem, hk, hv]

/-- The sequencer reads and writes the registers that the two states share. -/
theorem SequencerStep.sameSequencer {m : Modulus} {pre post t pre' post' : State} (h : SequencerStep m pre post t)
    (hpre : SameSequencer pre pre') (hpost : SameSequencer post post') :
    ∃ t', SequencerStep m pre' post' t' ∧ SameSequencer t t' := by
  have hidx : pre.idx + 1 = pre'.idx + 1 := congrArg (· + 1) hpre.idx
  have hnat : pre.idx.toNat = pre'.idx.toNat := congrArg _ hpre.idx
  have hcur : mulGenAt m pre.cur = mulGenAt m pre'.cur := congrArg _ hpre.cur
  have hread {k k' : Nat} (hk : k = k') : (entry .exp k pre).toNat = (entry .exp k' pre').toNat := by
    rw [hk, hpre.entry_eq]
  cases h with
  | rest hp => exact ⟨_, .rest (hpre.phase ▸ hp), hpost⟩
  | expInner hp hi =>
    exact ⟨_, .expInner (hpre.phase ▸ hp) (hpre.idx ▸ hi),
      { hpost with cur := hcur, idx := hidx, expMem := write_congr hpost.expMem hnat hpre.cur }⟩
  | expLast hp hi =>
    exact ⟨_, .expLast (hpre.phase ▸ hp) (hpre.idx ▸ hi),
      { hpost with cur := hcur, phase := rfl, idx := rfl, expMem := write_congr hpost.expMem rfl hpre.cur }⟩
  | initInner hp hi =>
    exact ⟨_, .initInner (hpre.phase ▸ hp) (hpre.idx ▸ hi),
      { hpost with idx := hidx, logMem := write_congr hpost.logMem hnat rfl }⟩
  | initLast hp hi =>
    exact ⟨_, .initLast (hpre.phase ▸ hp) (hpre.idx ▸ hi),
      { hpost with phase := rfl, idx := rfl, logMem := write_congr hpost.logMem rfl rfl }⟩
  | invInner hp hi =>
    exact ⟨_, .invInner (hpre.phase ▸ hp) (hpre.idx ▸ hi),
      { hpost with idx := hidx, logMem := write_congr hpost.logMem (hread hnat) (congrArg idxByte hpre.idx) }⟩
  | invLast hp hi =>
    exact ⟨_, .invLast (hpre.phase ▸ hp) (hpre.idx ▸ hi),
      { hpost with phase := rfl, idx := rfl, valid := rfl, logMem := write_congr hpost.logMem (hread rfl) rfl }⟩

/-- An edge that accepts a command which only responds makes the same state as the edge without a command, but for the
response. -/
theorem stepAt_of_respond {m : Modulus} {s : State} {st : Status} {d : Byte} (hn : s.portIn.rst = false)
    (hr : reachableAt m s = true) (hc : commandPart (execAt m) s = .next (respond st d s)) :
    ∃ t u, stepAt m s = .next t ∧ stepAt m s.quietNext = .next u ∧ t.agreeButResponse u ∧
      SameResponse (respond st d s) t := by
  obtain ⟨t, ht⟩ := exists_sequencerStep (respond st d s) hr
  have hquiet := sameSequencer_quietNext s
  obtain ⟨u, hu, htu⟩ := ht.sameSequencer hquiet (hquiet.respond_noResponse st d)
  have hr' : reachableAt m s.quietNext = true := hquiet.reachableAt_eq m ▸ hr
  exact ⟨_, _, stepAt_run hn hr hc ht, stepAt_run rfl hr' (commandPart_none rfl) hu, htu.agree_shiftInputs,
    ht.sameResponse⟩

/-! ## MULG (40_poly_mult_reducer.md R82) -/

theorem exists_decode_mulg_iff (w : CmdWord) : (∃ a, decode w = .command (.mulg a)) ↔ w &&& 0xFF00 = 0x4000 := by
  simp only [decode_eq_command_iff]
  constructor
  · rintro ⟨a, rfl⟩
    exact Laws.SelectsOwnRow.mulg_word a
  · exact fun h => ⟨_, eq_formatC_of_and_FF00 (op := 0x4) h⟩

/-- Settles O15: the words of MULG by its row of the opcode map, and its edge as one of a command that only responds. -/
theorem mulgAppliesTheReducer : Obligations.MulgAppliesTheReducer := by
  unfold Obligations.MulgAppliesTheReducer
  rw [← stepAt_modulus]
  refine ⟨exists_decode_mulg_iff, fun w a hd => ?operand, fun w _ hrsv => ?reserved, fun s a => exec_mulg a s,
    rfl, rfl, rfl, mulGen_8E, fun s hr ⟨hn, hv, hw⟩ => ?edge⟩
  case operand => rw [← encode_of_decode hd, opndField_encode rfl]
  case reserved =>
    rw [← formatC_fields w]
    exact ⟨_, decode_reservedField _ _ hrsv⟩
  case edge =>
    have hd : decode s.portIn.cmd = .command (.mulg 0x80) := hw ▸ decode_mulg 0x80
    obtain ⟨t, u, ht, hu, hagree, hresponse⟩ := stepAt_of_respond hn hr (commandPart_command hv hd)
    exact ⟨t, u, ht, hu, hagree, hresponse.rspValid, hresponse.rspStatus, hresponse.rspData⟩

end Sys2Proof.Machine
end

