-- ==== Sys2Proof/Proofs/GenerationRun.lean ====
section
/-! A generation from START to its completion (10_state.md R29; 43_table_access.md R152): the sequencer moves on by one
position an edge, whatever the host sends, and the tables and `cur` keep what the generation has made of them. -/

namespace Sys2Proof.Machine

/-! ## The inputs of a run without reset -/

theorem noResetFor_succ {s : State} {n : Nat} (h : s.noResetFor (n + 1)) :
    s.portIn.rst = false ∧ ∀ t : State, t.inputs = s.inputs.tail → t.noResetFor n := by
  cases hin : s.inputs with
  | nil => exact ⟨by rw [portIn_of_nil hin]; rfl, fun t ht => by simp [State.noResetFor, ht]⟩
  | cons d ds =>
    rw [State.noResetFor, hin, List.take_succ_cons, List.forall_mem_cons] at h
    exact ⟨portIn_of_cons hin ▸ h.1, fun t ht => by rw [State.noResetFor, ht]; exact h.2⟩

theorem SequencerStep.inputs_eq {m : Modulus} {pre post t : State} (h : SequencerStep m pre post t) :
    t.inputs = post.inputs := by
  cases h <;> rfl

theorem EdgeParts.mid_inputs {m : Modulus} {s mid t : State} (h : EdgeParts m s mid t) : mid.inputs = s.inputs := by
  rcases h.effect with ⟨-, -, -, -, -, -, hin⟩ | ⟨-, rfl⟩
  · exact hin.symm
  · rfl

/-! ## The sequencer's position (10_state.md R29) -/

theorem position_expGen {s : State} (hp : s.phase = .expGen) : s.position = 1 + s.idx.toNat := by
  rw [State.position, hp]

theorem position_logInit {s : State} (hp : s.phase = .logInit) : s.position = 256 + s.idx.toNat := by
  rw [State.position, hp]

theorem position_logInv {s : State} (hp : s.phase = .logInv) : s.position = 512 + s.idx.toNat := by
  rw [State.position, hp]

/-- The positions 1 to 255 are those of EXP_GEN. -/
theorem expGen_of_position {s : State} {n : Nat} (h : s.position = 1 + n) (hn : n < 255) :
    s.phase = .expGen ∧ s.idx.toNat = n := by
  unfold State.position at h
  cases hp : s.phase <;> simp only [hp] at h
  case expGen => exact ⟨rfl, by omega⟩
  all_goals omega

/-- Position 256 is the entry of LOG_INIT: R33 keeps EXP_GEN below it. -/
theorem logInit_of_position {m : Modulus} {s : State} (hr : reachableAt m s = true) (h : s.position = 256) :
    s.phase = .logInit ∧ s.idx = 0 := by
  cases hp : s.phase with
  | idle => simp [State.position, hp] at h
  | expGen =>
    obtain ⟨hi, -⟩ := (reachableAt_expGen hp).1 hr
    rw [position_expGen hp] at h
    omega
  | logInit =>
    rw [position_logInit hp] at h
    exact ⟨rfl, BitVec.eq_of_toNat_eq (Nat.add_left_cancel h)⟩
  | logInv =>
    rw [position_logInv hp] at h
    omega

/-- The sequencer moves on by one position, and from the last one into IDLE with `valid` = 1. `post` is what the command
part made of `pre`: `pre` with another response. -/
theorem SequencerStep.position {m : Modulus} {pre post t : State} (h : SequencerStep m pre post t)
    (hp : pre.phase ≠ .idle) (hq : pre.agreeButResponse post) :
    (pre.position < 766 ∧ t.position = pre.position + 1) ∨ (pre.position = 766 ∧ t.generationComplete = true) := by
  obtain ⟨hphase, -⟩ := hq
  have hnext (hi : pre.idx.toNat < 255) : (pre.idx + 1).toNat = pre.idx.toNat + 1 := idx_succ_toNat (by omega)
  cases h with
  | rest hidle => exact absurd hidle hp
  | expInner hp hi =>
    rw [position_expGen hp, position_expGen (by exact hphase.symm.trans hp)]
    simp only [hnext (by omega)]
    omega
  | expLast hp hi =>
    rw [position_expGen hp, position_logInit rfl, hi]
    simp
  | initInner hp hi =>
    rw [position_logInit hp, position_logInit (by exact hphase.symm.trans hp)]
    simp only [hnext (by omega)]
    omega
  | initLast hp hi =>
    rw [position_logInit hp, position_logInv rfl, hi]
    simp
  | invInner hp hi =>
    rw [position_logInv hp, position_logInv (by exact hphase.symm.trans hp)]
    simp only [hnext (by omega)]
    omega
  | invLast hp hi =>
    rw [position_logInv hp, hi]
    exact .inr ⟨rfl, rfl⟩

/-! ## `cur` (10_state.md R22) -/

/-- The sequencer advances `cur` in EXP_GEN only, and leaves it at `gen_pow(255)` from there on. -/
theorem SequencerStep.curHeld {m : Modulus} {pre post t : State} (h : SequencerStep m pre post t)
    (hp : pre.phase ≠ .idle) (hq : pre.agreeButResponse post) (hc : pre.cur = pre.curExpected m) :
    t.cur = t.curExpected m := by
  obtain ⟨hphase, -, hcur, -⟩ := hq
  unfold State.curExpected at hc ⊢
  cases h with
  | rest hidle => exact absurd hidle hp
  | expInner hp hi =>
    have hnext : (pre.idx + 1).toNat = pre.idx.toNat + 1 := idx_succ_toNat (by omega)
    simp only [hp] at hc
    simp only [setTable_phase, ← hphase, hp, hnext, genPowAt, hc]
  | expLast hp hi =>
    simp only [hp, hi] at hc
    exact congrArg (mulGenAt m) hc
  | initInner hp hi => simpa [hp, ← hphase, ← hcur] using hc
  | initLast hp hi => simpa [hp, ← hcur] using hc
  | invInner hp hi => simpa [hp, ← hphase, ← hcur] using hc
  | invLast hp hi => simpa [hp, ← hcur] using hc

/-! ## A run of the sequencer -/

/-- What every edge of a generation keeps: R33, the entries written so far, and the value of `cur`. -/
structure GenerationKept (m : Modulus) (s : State) : Prop where
  reachable : reachableAt m s = true
  tables : TablesTrack m s
  curHeld : s.cur = s.curExpected m

/-- The entry state of EXP_GEN (41_exp_table_generator.md R102). -/
theorem generationKept_entry {m : Modulus} {s : State} (hp : s.phase = .expGen) (hi : s.idx = 0)
    (hr : reachableAt m s = true) : GenerationKept m s ∧ s.position = 1 := by
  obtain ⟨-, hc, -⟩ := (reachableAt_expGen hp).1 hr
  refine ⟨⟨hr, (tablesTrack_expGen hp).2 ?_, ?_⟩, ?_⟩
  · rw [hi]
    exact powersBelow_zero m _
  · rw [State.curExpected, hp]
    exact hc
  · rw [position_expGen hp, hi]
    rfl

/-- An edge of a generation moves on by one position, and the last one completes the generation. -/
theorem GenerationKept.stepAt {m : Modulus} {s : State} (h : GenerationKept m s) (hp : s.phase ≠ .idle)
    (hn : s.portIn.rst = false) : ∃ t, stepAt m s = .next t ∧ GenerationKept m t ∧ t.inputs = s.inputs.tail ∧
      ((s.position < 766 ∧ t.position = s.position + 1) ∨ (s.position = 766 ∧ t.generationComplete = true)) := by
  obtain ⟨mid, t, ht⟩ := exists_edgeParts h.reachable
  have hagree := ht.agree_of_busy hp
  have hstep := ht.stepAt_eq hn h.reachable
  exact ⟨_, hstep,
    ⟨stepAt_reachableAt h.reachable hstep, stepAt_tablesTrack h.reachable h.tables hstep,
      ht.sequencer.curHeld hp hagree h.curHeld⟩,
    congrArg List.tail (ht.sequencer.inputs_eq.trans ht.mid_inputs), ht.sequencer.position hp hagree⟩

theorem busy_of_position {s : State} (h : 0 < s.position) : s.phase ≠ .idle := by
  intro hp
  rw [State.position, hp] at h
  exact Nat.lt_irrefl 0 h

/-- `n` edges of a generation move on by `n` positions (10_state.md R29), whatever the host sends. -/
theorem GenerationKept.edges {m : Modulus} {n k : Nat} {s : State} (h : GenerationKept m s) (hp : 0 < s.position)
    (hn : s.position + n ≤ 766) (hr : s.noResetFor (n + k)) :
    ∃ t, edges (Machine.stepAt m) n s = .next t ∧ GenerationKept m t ∧ t.position = s.position + n ∧
      t.noResetFor k := by
  induction n generalizing s with
  | zero => exact ⟨s, rfl, h, rfl, by rwa [Nat.zero_add] at hr⟩
  | succ n ih =>
    obtain ⟨hrst, hrest⟩ := noResetFor_succ (n := n + k) (by rwa [Nat.succ_add] at hr)
    obtain ⟨u, hu, hkept, hin, ⟨-, hpos⟩ | ⟨hlast, -⟩⟩ := h.stepAt (busy_of_position hp) hrst
    · obtain ⟨t, ht, hkept, htpos, hk⟩ := ih hkept (by omega) (by omega) (hrest u hin)
      rw [edges_succ, hu]
      exact ⟨t, ht, hkept, by omega, hk⟩
    · omega

/-- From the entry state of EXP_GEN, the generation `n` edges on. -/
theorem edges_from_entry {m : Modulus} {n k : Nat} {s : State} (hp : s.phase = .expGen) (hi : s.idx = 0)
    (hr : reachableAt m s = true) (hn : n ≤ 765) (hq : s.noResetFor (n + k)) :
    ∃ t, edges (stepAt m) n s = .next t ∧ GenerationKept m t ∧ t.position = 1 + n ∧ t.noResetFor k := by
  obtain ⟨hkept, hpos⟩ := generationKept_entry hp hi hr
  obtain ⟨t, ht, hkept, htpos, hk⟩ := hkept.edges (by omega) (by omega) hq
  exact ⟨t, ht, hkept, hpos ▸ htpos, hk⟩

/-- The state after the last EXP_GEN edge (41_exp_table_generator.md R105), under any modulus. -/
theorem edges_expGen {m : Modulus} {s : State} (hp : s.phase = .expGen) (hi : s.idx = 0) (hr : reachableAt m s = true)
    (hq : s.noResetFor 255) : ∃ t, edges (stepAt m) 255 s = .next t ∧ t.phase = .logInit ∧ t.idx = 0 ∧
      (∀ i, i < 255 → entry .exp i t = genPowAt m i) ∧ t.cur = genPowAt m 255 := by
  obtain ⟨t, ht, hkept, hpos, -⟩ := edges_from_entry (k := 0) hp hi hr (by omega) hq
  obtain ⟨hphase, hidx⟩ := logInit_of_position hkept.reachable hpos
  have hcur := hkept.curHeld
  rw [State.curExpected, hphase] at hcur
  obtain ⟨hexp, -⟩ := (tablesTrack_logInit hphase (by simp [hidx])).1 hkept.tables
  exact ⟨t, ht, hphase, hidx, fun i => entry_exp_of_powersBelow hexp, hcur⟩

/-- The command part of an edge that accepts the word of a command is that command. -/
theorem commandPart_of_accepts {m : Modulus} {s : State} {i : Instr} (h : s.accepts (encode i)) :
    commandPart (execAt m) s = execAt m i s := by
  obtain ⟨-, hv, hw⟩ := h
  exact commandPart_command hv (hw ▸ decode_encode i)

/-- The edge of an accepted START answers the entry state of EXP_GEN (41_exp_table_generator.md R101, R102). -/
theorem StartsGeneration.stepAt {m : Modulus} {n : Nat} {s : State} (h : StartsGeneration m n s) :
    ∃ t, stepAt m s = .next t ∧ t.phase = .expGen ∧ t.idx = 0 ∧ reachableAt m t = true ∧ t.noResetFor n := by
  obtain ⟨hrst, -⟩ := h.start
  have hc := (commandPart_of_accepts (m := m) h.start).trans (exec_start_idle h.idle)
  have hstep := stepAt_run hrst h.reachable hc (.rest h.idle)
  exact ⟨_, hstep, rfl, rfl, stepAt_reachableAt h.reachable hstep, (noResetFor_succ h.noReset).2 _ rfl⟩

/-- A whole generation (43_table_access.md R152): the edge of START, 765 edges up to the last position, and the
completing edge. -/
theorem StartsGeneration.edges {m : Modulus} {s : State} (h : StartsGeneration m 766 s) :
    ∃ t, edges (Machine.stepAt m) 767 s = .next t ∧ t.generationComplete = true ∧ t.tablesComplete m ∧
      t.cur = genPowAt m 255 := by
  obtain ⟨u, hu, hp, hi, hr, hq⟩ := h.stepAt
  obtain ⟨v, hv, hkept, hpos, hq⟩ := edges_from_entry (n := 765) (k := 1) hp hi hr le_rfl hq
  obtain ⟨hrst, -⟩ := noResetFor_succ hq
  obtain ⟨t, ht, hkept, -, ⟨hlt, -⟩ | ⟨-, hcomplete⟩⟩ := hkept.stepAt (busy_of_position (by omega)) hrst
  · omega
  · obtain ⟨hvalid, hidle⟩ : t.valid = true ∧ t.phase = .idle := by simpa [State.generationComplete] using hcomplete
    have hcur := hkept.curHeld
    rw [State.curExpected, hidle] at hcur
    refine ⟨t, ?_, hcomplete, hkept.tables.complete hkept.reachable hvalid, by simpa [hvalid] using hcur⟩
    rw [edges_succ, hu, andThen_next, edges_succ_last, hv, andThen_next, ht]

end Sys2Proof.Machine
end

