-- ==== Sys2Proof/Proofs/SourceLoops.lean ====
section
/-! The source's two loops (41_exp_table_generator.md R100; 42_log_table_inverter.md R120): what each has built after any
number of rounds, and that a completed generation holds the same tables. -/

namespace Sys2Proof.Machine

/-! ## The two loops -/

/-- The list of the first `n` powers of the generator. -/
def powers (m : Modulus) (n : Nat) : List Byte := (List.range n).map (genPowAt m)

theorem powers_succ (m : Modulus) (n : Nat) : powers m (n + 1) = powers m n ++ [genPowAt m n] := by
  simp [powers, List.range_succ]

@[simp] theorem length_powers (m : Modulus) (n : Nat) : (powers m n).length = n := by
  simp [powers]

/-- The first loop after `n` rounds (R100). -/
theorem sourceExp_loop (m : Modulus) (n : Nat) :
    (List.range n).foldl (fun t _ => t ++ [mulGenAt m (t.getLastD 0x01)]) [0x01] = powers m (n + 1) := by
  induction n with
  | zero => rfl
  | succ n ih =>
    rw [List.range_succ, List.foldl_append, ih, List.foldl_cons, List.foldl_nil, powers_succ m (n + 1), powers_succ m n,
      List.getLastD_concat, genPowAt]

theorem sourceExp_eq (m : Modulus) : sourceExp m = powers m 255 := sourceExp_loop m 254

/-- The 256 LOG entries after the first `n` inversion writes. -/
def logList (m : Modulus) (n : Nat) : List Byte :=
  (List.range 256).map fun b => logAfterAt m n (BitVec.ofNat 8 b)

/-- Before the first write every entry is the sentinel. -/
theorem logList_zero (m : Modulus) : logList m 0 = List.replicate 256 Config.sentinel := by
  rw [← List.length_range (n := 256), ← List.map_const']
  rfl

/-- One round of the second loop (R120) is one inversion write (R127). -/
theorem logList_set (m : Modulus) (n : Nat) :
    (logList m n).set (genPowAt m n).toNat (BitVec.ofNat 8 n) = logList m (n + 1) := by
  refine List.ext_getElem (by simp [logList]) fun b hb _ => ?_
  have hlt : b < 256 := by simpa [logList] using hb
  have hiff : (genPowAt m n).toNat = b ↔ genPowAt m n = BitVec.ofNat 8 b := by
    rw [← BitVec.toNat_inj, BitVec.toNat_ofNat, Nat.mod_eq_of_lt hlt]
  simp only [List.getElem_set, logList, List.getElem_map, List.getElem_range, logAfterAt, hiff]

/-- The second loop over the first `n` powers. -/
theorem sourceLog_powers (m : Modulus) (n : Nat) : sourceLog (powers m n) = logList m n := by
  unfold sourceLog
  induction n with
  | zero => exact (logList_zero m).symm
  | succ n ih =>
    rw [powers_succ, List.zipIdx_append, List.foldl_append, ih]
    simpa using logList_set m n

/-! ## The tables of a state -/

theorem expTable_of_complete {m : Modulus} {s : State} (h : s.tablesComplete m) : s.expTable = powers m 255 :=
  List.map_congr_left fun k hk => h.1 k (List.mem_range.1 hk)

theorem logTable_of_complete {m : Modulus} {s : State} (h : s.tablesComplete m) : s.logTable = logList m 255 :=
  List.map_congr_left fun b hb => by
    have hlog := h.2 (BitVec.ofNat 8 b)
    have hlt : b < 2 ^ 8 := List.mem_range.1 hb
    rwa [BitVec.toNat_ofNat, Nat.mod_eq_of_lt hlt] at hlog

/-- Complete tables are those of the source's two loops (41_exp_table_generator.md R107; 42_log_table_inverter.md
R132). -/
theorem sourceTables_of_complete {m : Modulus} {s : State} (h : s.tablesComplete m) :
    s.expTable = sourceExp m ∧ s.logTable = sourceLog (sourceExp m) := by
  rw [sourceExp_eq, sourceLog_powers]
  exact ⟨expTable_of_complete h, logTable_of_complete h⟩

/-- Settles O41: a generation ends with complete tables, and complete tables are those of the source's two loops. -/
theorem generationRefinesTheSourceLoops : Obligations.GenerationRefinesTheSourceLoops := by
  unfold Obligations.GenerationRefinesTheSourceLoops
  intro m s hs
  obtain ⟨t, ht, hdone, htables, hcur⟩ := hs.edges
  obtain ⟨hexp, hlog⟩ := sourceTables_of_complete htables
  exact ⟨t, ht, hdone, hexp, hlog, hcur⟩

end Sys2Proof.Machine
end

