-- ==== Sys2Proof/Proofs/GeneratorOrder.lean ====
section
/-! The order of the generator under 0x11D (41_exp_table_generator.md R106): its powers are the iterates of the reducer on
1, with period 255, and they are the nonzero bytes. -/

namespace Sys2Proof.Machine

open Function

/-! ## The order of the generator -/

/-- The powers of the generator are the iterates of the reducer on 1 (41_exp_table_generator.md R103). -/
theorem genPow_eq_iterate (n : Nat) : genPow n = mulGen^[n] 1 := by
  induction n with
  | zero => rfl
  | succ n ih => rw [iterate_succ_apply', ← ih]; rfl

theorem genPow_eq_one_iff (n : Nat) : genPow n = 1 ↔ minimalPeriod mulGen 1 ∣ n := by
  rw [genPow_eq_iterate]
  exact isPeriodicPt_iff_minimalPeriod_dvd

theorem genPow_255 : genPow 255 = 1 := by decide +kernel

/-- 255 = 3 · 5 · 17, so a proper divisor of it divides 255/3, 255/5 or 255/17. -/
theorem dvd_of_dvd_255 : ∀ d, d ∣ 255 → d ≠ 255 → ∃ k ∈ [85, 51, 15], d ∣ k := by
  have h : ∀ d ∈ Nat.divisors 255, d ≠ 255 → ∃ k ∈ [85, 51, 15], d ∣ k := by decide
  exact fun d hd => h d (Nat.mem_divisors.2 ⟨hd, by decide⟩)

theorem genPow_ne_one_of_max_divisor : ∀ k ∈ [85, 51, 15], genPow k ≠ 1 := by decide +kernel

/-- The generator has order 255 (R106). -/
theorem minimalPeriod_mulGen : minimalPeriod mulGen 1 = 255 := by
  by_contra hne
  obtain ⟨k, hk, hdvd⟩ := dvd_of_dvd_255 _ ((genPow_eq_one_iff 255).1 genPow_255) hne
  exact genPow_ne_one_of_max_divisor k hk ((genPow_eq_one_iff k).2 hdvd)

theorem genPow_ne_one {n : Nat} (h0 : 0 < n) (hn : n < 255) : genPow n ≠ 1 := by
  rw [ne_eq, genPow_eq_one_iff, minimalPeriod_mulGen]
  exact Nat.not_dvd_of_pos_of_lt h0 hn

theorem genPow_injOn : Set.InjOn genPow (Set.Iio 255) := by
  rw [funext genPow_eq_iterate, ← minimalPeriod_mulGen]
  exact iterate_injOn_Iio_minimalPeriod

theorem genPow_ne_zero (n : Nat) : genPow n ≠ 0 := by
  induction n with
  | zero => decide
  | succ n ih => exact mt (eq_zero_of_mulGenAt modulus_bit0) ih

/-- 255 distinct powers, none of them 0, are all the 255 nonzero bytes. -/
theorem image_genPow : (Finset.range 255).image genPow = Finset.univ.erase 0 := by
  refine Finset.eq_of_subset_of_card_le (fun b hb => ?_) ?_
  · obtain ⟨n, -, rfl⟩ := Finset.mem_image.1 hb
    exact Finset.mem_erase.2 ⟨genPow_ne_zero n, Finset.mem_univ _⟩
  · have hinj : Set.InjOn genPow (Finset.range 255) := by simpa using genPow_injOn
    rw [Finset.card_image_of_injOn hinj, Finset.card_erase_of_mem (Finset.mem_univ _), Finset.card_univ,
      Finset.card_range, ← FinEnum.card_eq_fintypeCard, FinEnum.card_bitVec]
    decide

theorem ne_zero_iff_genPow (b : Byte) : b ≠ 0 ↔ ∃ i, i < 255 ∧ genPow i = b := by
  have h := Finset.ext_iff.1 image_genPow b
  simpa using h.symm

theorem genPow_254 : genPow 254 = 0x8E := mulGen_injective (genPow_255.trans mulGen_8E.symm)

/-- Under 0x11B the powers repeat at 51 (R106). -/
theorem genPowAt_rejectedModulus_51 : genPowAt Config.rejectedModulus 51 = 1 := by decide +kernel

end Sys2Proof.Machine
end

