-- ==== Sys2Proof/Proofs/ExpGenPhase.lean ====
section
/-! The phase EXP_GEN (41_exp_table_generator.md R104 to R106): one edge of it, its length, and the table it leaves. -/

namespace Sys2Proof.Machine

/-! ## One edge (R104) -/

/-- Everything the EXP_GEN step writes: one EXP entry, `cur`, and the next position. -/
theorem SequencerStep.expGen_inv {m : Modulus} {pre post t : State} (h : SequencerStep m pre post t)
    (hp : pre.phase = .expGen) : ∃ p i,
      t = { post.setTable .exp (post.expMem.write pre.idx.toNat pre.cur) with
        cur := mulGenAt m pre.cur, phase := p, idx := i } ∧
      (pre.idx = 254 → p = .logInit ∧ i = 0) ∧ (pre.idx ≠ 254 → p = post.phase ∧ i = pre.idx + 1) := by
  cases h with
  | expInner _ hi => exact ⟨_, _, rfl, fun h => by simp [h] at hi, fun _ => ⟨rfl, rfl⟩⟩
  | expLast _ hi => exact ⟨_, _, by rw [hi]; rfl, fun _ => ⟨rfl, rfl⟩, fun hne => absurd hi hne⟩
  | rest h | initInner h | initLast h | invInner h | invLast h => cases hp.symm.trans h

/-- Outside IDLE a START is answered NOTREADY (41_exp_table_generator.md R101). -/
theorem EdgeParts.start_notReady {m : Modulus} {s mid t : State} (h : EdgeParts m s mid t) (hp : s.phase ≠ .idle)
    (hs : s.accepts (encode .start)) : t.rspStatus = .notReady := by
  have hc := (commandPart_of_accepts (m := m) hs).trans (exec_start_busy hp)
  obtain rfl := Host.Outcome.next.inj (h.command.symm.trans hc)
  exact h.sequencer.sameResponse.rspStatus

/-- Settles O29: the edge by what the EXP_GEN step writes, the length of the phase by the positions it runs through. -/
theorem expGenEdgeWritesOnePower : Obligations.ExpGenEdgeWritesOnePower := by
  unfold Obligations.ExpGenEdgeWritesOnePower
  rw [← stepAt_modulus]
  refine ⟨fun s hn hr hp => ?edge, fun s hp hi hr hq => ⟨fun n hlt => ?inside, ?after⟩⟩
  case edge =>
    obtain ⟨mid, u, hu⟩ := exists_edgeParts hr
    have hbusy : s.phase ≠ .idle := by simp [hp]
    have hstep := hu.stepAt_eq hn hr
    have hkept {sp : Space} {k : Nat} (hk : (sp, k) ≠ (.exp, s.idx.toNat)) :
        entry sp k u.shiftInputs = entry sp k s :=
      stepAt_entry_of_ne hn hstep fun hw => hk (Option.some.inj (hw.symm.trans (writtenEntry_expGen hp)))
    have hnotReady := hu.start_notReady hbusy
    obtain ⟨hlast, -⟩ := (reachableAt_expGen hp).1 hr
    obtain ⟨hphase, -, -, hvalid, -, -, hin⟩ := hu.agree_of_busy hbusy
    obtain ⟨p, i, rfl, hend, hinner⟩ := hu.sequencer.expGen_inv hp
    refine ⟨_, hstep, ?written, fun k hk => hkept (by simpa using hk), fun k => hkept (by simp), rfl, hvalid.symm,
      congrArg List.tail hin.symm, hend, fun hne => ?inner, hnotReady⟩
    case written =>
      rw [memRead_of_lt _ (Nat.lt_succ_of_le hlast), entry_of_read]
      exact memory_read_write_same _ _ _
    case inner =>
      obtain ⟨hsame, hidx⟩ := hinner hne
      exact ⟨hsame.trans (hphase.symm.trans hp), hidx⟩
  case inside =>
    have hq' : s.noResetFor (n + (255 - n)) := by rwa [Nat.add_sub_cancel' hlt.le]
    obtain ⟨t, ht, -, hpos, -⟩ := edges_from_entry hp hi hr (by omega) hq'
    exact ⟨t, ht, expGen_of_position hpos hlt⟩
  case after =>
    obtain ⟨t, ht, hphase, -⟩ := edges_expGen hp hi hr hq
    exact ⟨t, ht, hphase⟩

/-- Settles O36: the run of the phase, read at indices that have storage. -/
theorem expTableAfterExpGen : Obligations.ExpTableAfterExpGen := by
  unfold Obligations.ExpTableAfterExpGen
  intro s hp hi hr hq
  rw [← stepAt_modulus]
  obtain ⟨t, ht, hphase, hidx, hexp, hcur⟩ := edges_expGen hp hi hr hq
  exact ⟨t, ht, fun i hi => (memRead_of_lt t hi).trans (congrArg some (hexp i hi)), hcur, hphase, hidx⟩

/-- Settles O37: the table holds the first 255 powers of the generator, whose order is 255. -/
theorem expTableIsOneFullCycle : Obligations.ExpTableIsOneFullCycle := by
  unfold Obligations.ExpTableIsOneFullCycle
  rw [← stepAt_modulus]
  refine ⟨fun s hp hi hr hq => ?table, fun n => genPow_ne_one, genPow_255, genPowAt_rejectedModulus_51,
    genPowAt_rejectedModulus_51⟩
  obtain ⟨t, ht, -, -, hexp, hcur⟩ := edges_expGen hp hi hr hq
  have hlast : entry .exp 254 t = 0x8E := (hexp 254 (by decide)).trans genPow_254
  refine ⟨t, ht, hexp 0 (by decide), fun i j hi hj h => ?distinct, fun b => ?nonzero, hlast ▸ mulGen_8E, hlast,
    hcur.trans genPow_255⟩
  case distinct =>
    rw [hexp i hi, hexp j hj] at h
    exact genPow_injOn hi hj h
  case nonzero =>
    rw [ne_zero_iff_genPow]
    exact exists_congr fun i => and_congr_right fun hi => by rw [hexp i hi, genPow]

end Sys2Proof.Machine
end

