-- ==== Sys2Proof/Proofs/LogPhases.lean ====
section
/-! The phases LOG_INIT and LOG_INV (42_log_table_inverter.md R123 to R127): one edge of each, a run of each, and the
LOG table it leaves, whatever the two tables held at its entry state. -/

namespace Sys2Proof.Machine

/-! ## One edge (R123, R127) -/

/-- The edge from `s` to `t` stores `v` to the LOG entry `a`, and writes neither `exp_mem` nor `cur`. -/
structure WritesLog (a : Nat) (v : Byte) (s t : State) : Prop where
  logMem : t.logMem = s.logMem.write a v
  expMem : t.expMem = s.expMem
  cur : t.cur = s.cur

theorem WritesLog.entry_log {a : Nat} {v : Byte} {s t : State} (h : WritesLog a v s t) (k : Nat) :
    entry .log k t = if k = a then v else entry .log k s := by
  calc entry .log k t
      = entry .log k (s.setTable .log ((s.table .log).write a v)) := entry_congr k h.logMem
    _ = if k = a then v else entry .log k s := by simp only [entry_setTable_write, true_and]

theorem WritesLog.entry_log_of_ne {a k : Nat} {v : Byte} {s t : State} (h : WritesLog a v s t) (hk : k ≠ a) :
    entry .log k t = entry .log k s := by
  rw [h.entry_log, if_neg hk]

theorem WritesLog.entry_exp {a : Nat} {v : Byte} {s t : State} (h : WritesLog a v s t) (k : Nat) :
    entry .exp k t = entry .exp k s :=
  entry_congr k h.expMem

theorem WritesLog.memRead_log {a : Nat} {v : Byte} {s t : State} (h : WritesLog a v s t) (ha : a < 256) :
    memRead .log a t = some v := by
  rw [memRead_of_lt t ha, h.entry_log, if_pos rfl]

/-- A command that writes the response registers only, before the store, makes no difference to it. -/
theorem WritesLog.of_agree {a : Nat} {v : Byte} {s mid t : State} (h : WritesLog a v mid t)
    (hagree : s.agreeButResponse mid) : WritesLog a v s t := by
  obtain ⟨-, -, hcur, -, hexp, hlog, -⟩ := hagree
  exact ⟨hlog ▸ h.logMem, h.expMem.trans hexp.symm, h.cur.trans hcur.symm⟩

/-- The LOG_INIT edge (R123), whatever the host sends. -/
theorem stepAt_logInit {m : Modulus} {s : State} (hn : s.portIn.rst = false) (hr : reachableAt m s = true)
    (hp : s.phase = .logInit) : ∃ t, stepAt m s = .next t ∧ WritesLog s.idx.toNat Config.sentinel s t ∧
      t.valid = s.valid ∧ (s.idx = 255 → t.phase = .logInv ∧ t.idx = 0) ∧
      (s.idx ≠ 255 → t.phase = .logInit ∧ t.idx = s.idx + 1) := by
  obtain ⟨mid, u, hu⟩ := exists_edgeParts hr
  have hagree := hu.agree_of_busy (by simp [hp])
  have ⟨hphase, _, _, hvalid, _⟩ := hagree
  refine ⟨_, hu.stepAt_eq hn hr, ?_⟩
  cases hu.sequencer with
  | initInner _ hi =>
    exact ⟨.of_agree ⟨rfl, rfl, rfl⟩ hagree, hvalid.symm, fun h => by simp [h] at hi,
      fun _ => ⟨hphase.symm.trans hp, rfl⟩⟩
  | initLast _ hi =>
    rw [hi]
    exact ⟨.of_agree ⟨rfl, rfl, rfl⟩ hagree, hvalid.symm, fun _ => ⟨rfl, rfl⟩, fun h => absurd rfl h⟩
  | rest h | expInner h | expLast h | invInner h | invLast h => cases hp.symm.trans h

/-- The LOG_INV edge (R127), whatever the host sends; the last one completes the generation (R128). -/
theorem stepAt_logInv {m : Modulus} {s : State} (hn : s.portIn.rst = false) (hr : reachableAt m s = true)
    (hp : s.phase = .logInv) : ∃ t, stepAt m s = .next t ∧
      WritesLog (entry .exp s.idx.toNat s).toNat (idxByte s.idx) s t ∧
      (s.idx = 254 → t.phase = .idle ∧ t.idx = 0 ∧ t.valid = true) ∧
      (s.idx ≠ 254 → t.phase = .logInv ∧ t.idx = s.idx + 1 ∧ t.valid = s.valid) := by
  obtain ⟨mid, u, hu⟩ := exists_edgeParts hr
  have hagree := hu.agree_of_busy (by simp [hp])
  have ⟨hphase, _, _, hvalid, _⟩ := hagree
  refine ⟨_, hu.stepAt_eq hn hr, ?_⟩
  cases hu.sequencer with
  | invInner _ hi =>
    exact ⟨.of_agree ⟨rfl, rfl, rfl⟩ hagree, fun h => by simp [h] at hi,
      fun _ => ⟨hphase.symm.trans hp, rfl, hvalid.symm⟩⟩
  | invLast _ hi =>
    rw [hi]
    exact ⟨.of_agree ⟨rfl, rfl, rfl⟩ hagree, fun _ => ⟨rfl, rfl, rfl⟩, fun h => absurd rfl h⟩
  | rest h | expInner h | expLast h | initInner h | initLast h => cases hp.symm.trans h

/-! ## A run of edges -/

/-- Every edge takes the inputs it sampled off the list, a reset edge too. -/
theorem stepAt_inputs {m : Modulus} {s t : State} (h : stepAt m s = .next t) : t.inputs = s.inputs.tail := by
  rcases hn : s.portIn.rst with _ | _
  · obtain ⟨mid, u, hu⟩ := exists_edgeParts (reachableAt_of_stepAt hn h)
    obtain rfl := Host.Outcome.next.inj ((hu.stepAt_eq hn (reachableAt_of_stepAt hn h)).symm.trans h)
    exact congrArg List.tail (hu.sequencer.inputs_eq.trans hu.mid_inputs)
  · obtain rfl := Host.Outcome.next.inj ((stepAt_reset hn).symm.trans h)
    rfl

/-- What holds of the first state and is handed on by each of the first `last` edges without reset, holds after `n` of
them. -/
theorem edges_induction {m : Modulus} {P : Nat → State → Prop} {last : Nat}
    (hedge : ∀ i u, i < last → P i u → u.portIn.rst = false → ∃ t, stepAt m u = .next t ∧ P (i + 1) t)
    {n k : Nat} {s : State} (hn : n ≤ last) (h0 : P 0 s) (hq : s.noResetFor (n + k)) :
    ∃ t, edges (stepAt m) n s = .next t ∧ P n t ∧ t.noResetFor k := by
  induction n generalizing k with
  | zero => exact ⟨s, rfl, h0, by rwa [Nat.zero_add] at hq⟩
  | succ n ih =>
    obtain ⟨u, hu, hP, hk⟩ := ih (k := k + 1) (by omega) (by rwa [Nat.succ_add_eq_add_succ] at hq)
    obtain ⟨hrst, hrest⟩ := noResetFor_succ hk
    obtain ⟨t, ht, hPt⟩ := hedge n u hn hP hrst
    exact ⟨t, by rw [edges_succ_last, hu, andThen_next, ht], hPt, hrest t (stepAt_inputs ht)⟩

/-- Inside R33, in the phase `ph`, at the index `n`. -/
structure InPhase (m : Modulus) (ph : Phase) (n : Nat) (s : State) : Prop where
  reachable : reachableAt m s = true
  phase : s.phase = ph
  idx : s.idx.toNat = n

theorem inPhase_entry {m : Modulus} {ph : Phase} {s : State} (hp : s.phase = ph) (hi : s.idx = 0)
    (hr : reachableAt m s = true) : InPhase m ph 0 s :=
  ⟨hr, hp, by rw [hi]; rfl⟩

theorem InPhase.idx_eq {m : Modulus} {ph : Phase} {s : State} {i : Idx} (h : InPhase m ph i.toNat s) : s.idx = i :=
  BitVec.eq_of_toNat_eq h.idx

theorem InPhase.idx_ne {m : Modulus} {ph : Phase} {n : Nat} {s : State} {i : Idx} (h : InPhase m ph n s)
    (hn : n < i.toNat) : s.idx ≠ i := by
  rintro rfl
  exact hn.ne h.idx.symm

/-- The edge to the next index of a phase. -/
theorem InPhase.next {m : Modulus} {ph : Phase} {n : Nat} {s t : State} (h : InPhase m ph n s) (hn : n < 511)
    (hstep : stepAt m s = .next t) (hphase : t.phase = ph) (hidx : t.idx = s.idx + 1) : InPhase m ph (n + 1) t := by
  have hnext : (s.idx + 1).toNat = s.idx.toNat + 1 := idx_succ_toNat (h.idx ▸ hn)
  exact ⟨stepAt_reachableAt h.reachable hstep, hphase, by rw [hidx, hnext, h.idx]⟩

/-! ## LOG_INIT -/

/-- The state of LOG_INIT after `n` of its edges: the first `n` LOG entries hold the sentinel. -/
structure LogInitAfter (m : Modulus) (n : Nat) (s : State) : Prop extends InPhase m .logInit n s where
  sentinels : s.logMem.sentinelsBelow n

theorem LogInitAfter.step {m : Modulus} (n : Nat) (s : State) (hn : n < 255) (h : LogInitAfter m n s)
    (hrst : s.portIn.rst = false) : ∃ t, stepAt m s = .next t ∧ LogInitAfter m (n + 1) t := by
  obtain ⟨t, ht, hw, -, -, hinner⟩ := stepAt_logInit hrst h.reachable h.phase
  obtain ⟨hphase, hidx⟩ := hinner (h.idx_ne hn)
  refine ⟨t, ht, h.next (by omega) ht hphase hidx, ?_⟩
  rw [hw.logMem, h.idx]
  exact sentinelsBelow_succ h.sentinels

/-- The first 255 edges of LOG_INIT, from its entry state (R122). -/
theorem edges_logInit {m : Modulus} {n k : Nat} {s : State} (hp : s.phase = .logInit) (hi : s.idx = 0)
    (hr : reachableAt m s = true) (hn : n ≤ 255) (hq : s.noResetFor (n + k)) :
    ∃ t, edges (stepAt m) n s = .next t ∧ LogInitAfter m n t ∧ t.noResetFor k :=
  edges_induction LogInitAfter.step hn ⟨inPhase_entry hp hi hr, sentinelsBelow_zero _⟩ hq

/-- The state after the last LOG_INIT edge (R124, R125). -/
theorem edges_logInit_all {m : Modulus} {s : State} (hp : s.phase = .logInit) (hi : s.idx = 0)
    (hr : reachableAt m s = true) (hq : s.noResetFor 256) :
    ∃ t, edges (stepAt m) 256 s = .next t ∧ t.phase = .logInv ∧ t.idx = 0 ∧ t.logMem.sentinelsBelow 256 := by
  obtain ⟨u, hu, hinit, hk⟩ := edges_logInit (n := 255) (k := 1) hp hi hr le_rfl hq
  obtain ⟨hrst, -⟩ := noResetFor_succ hk
  obtain ⟨t, ht, hw, -, hlast, -⟩ := stepAt_logInit hrst hinit.reachable hinit.phase
  obtain ⟨hphase, hidx⟩ := hlast (InPhase.idx_eq (i := 255) hinit.toInPhase)
  refine ⟨t, by rw [edges_succ_last, hu, andThen_next, ht], hphase, hidx, ?_⟩
  rw [hw.logMem, hinit.idx]
  exact sentinelsBelow_succ hinit.sentinels

/-- Settles O30: the edge by what the LOG_INIT step writes, the length of the phase by its run. -/
theorem logInitEdgeWritesTheSentinel : Obligations.LogInitEdgeWritesTheSentinel := by
  unfold Obligations.LogInitEdgeWritesTheSentinel
  rw [← stepAt_modulus]
  refine ⟨fun s hn hr hp => ?edge, fun s hp hi hr hq => ⟨fun n hlt => ?inside, ?after⟩⟩
  case edge =>
    obtain ⟨hidx, -⟩ := (reachableAt_logInit hp).1 hr
    obtain ⟨t, ht, hw, hvalid, hlast, hinner⟩ := stepAt_logInit hn hr hp
    exact ⟨t, ht, hw.memRead_log (Nat.lt_succ_of_le hidx), fun k => hw.entry_log_of_ne, hw.entry_exp, hw.cur, hvalid,
      stepAt_inputs ht, hlast, hinner⟩
  case inside =>
    have hq' : s.noResetFor (n + (256 - n)) := by rwa [Nat.add_sub_cancel' hlt.le]
    obtain ⟨t, ht, hinit, -⟩ := edges_logInit hp hi hr (Nat.le_of_lt_succ hlt) hq'
    exact ⟨t, ht, hinit.phase, hinit.idx⟩
  case after =>
    obtain ⟨t, ht, hphase, -⟩ := edges_logInit_all hp hi hr hq
    exact ⟨t, ht, hphase⟩

/-- Settles O38: the run of the phase, read at indices that have storage. -/
theorem logTableAfterLogInit : Obligations.LogTableAfterLogInit := by
  unfold Obligations.LogTableAfterLogInit
  intro s hp hi hr hq
  rw [← stepAt_modulus]
  obtain ⟨t, ht, -, -, hsentinels⟩ := edges_logInit_all hp hi hr hq
  refine ⟨t, ht, fun b hb => ?_⟩
  have hlt : b < 256 := Nat.lt_succ_of_le hb
  exact (memRead_of_lt t hlt).trans (congrArg some (entry_of_read (hsentinels b hlt)))

/-! ## LOG_INV -/

/-- LOG entry `b` after the inversion writes of the indices below `n`, in ascending order (R126): `e` is the EXP table,
`old` what LOG held before them. -/
def afterInversions (e old : Nat → Byte) : Nat → Nat → Byte
  | 0, b => old b
  | n + 1, b => if b = (e n).toNat then BitVec.ofNat 8 n else afterInversions e old n b

/-- The write of the last index that holds a value stays (R126). -/
theorem afterInversions_of_last {e old : Nat → Byte} {n j : Nat} (hj : j < n)
    (hlast : ∀ k, j < k → k < n → e k ≠ e j) : afterInversions e old n (e j).toNat = BitVec.ofNat 8 j := by
  induction n with
  | zero => exact absurd hj (Nat.not_lt_zero j)
  | succ n ih =>
    rw [afterInversions]
    rcases Nat.lt_succ_iff_lt_or_eq.1 hj with hlt | rfl
    · have hne : (e j).toNat ≠ (e n).toNat := fun h => hlast n hlt n.lt_succ_self (BitVec.eq_of_toNat_eq h.symm)
      rw [if_neg hne]
      exact ih hlt fun k hjk hkn => hlast k hjk (by omega)
    · rw [if_pos rfl]

/-- An entry that no index names keeps what it held. -/
theorem afterInversions_of_unnamed {e old : Nat → Byte} {n b : Nat} (h : ∀ k, k < n → (e k).toNat ≠ b) :
    afterInversions e old n b = old b := by
  induction n with
  | zero => rfl
  | succ n ih =>
    rw [afterInversions, if_neg (h n n.lt_succ_self).symm]
    exact ih fun k hk => h k (by omega)

/-- Both tables after the first `n` inversion writes from those of `s`; EXP is only read. -/
structure InvertedFrom (s : State) (n : Nat) (t : State) : Prop where
  log : ∀ b, entry .log b t = afterInversions (entry .exp · s) (entry .log · s) n b
  exp : ∀ k, entry .exp k t = entry .exp k s

theorem invertedFrom_zero (s : State) : InvertedFrom s 0 s := ⟨fun _ => rfl, fun _ => rfl⟩

/-- The inversion write of the index `n`. -/
theorem InvertedFrom.succ {n : Nat} {s t u : State} (h : InvertedFrom s n t) (hn : t.idx.toNat = n)
    (hw : WritesLog (entry .exp t.idx.toNat t).toNat (idxByte t.idx) t u) : InvertedFrom s (n + 1) u := by
  refine ⟨fun b => ?_, fun k => (hw.entry_exp k).trans (h.exp k)⟩
  rw [hw.entry_log, idxByte_eq_ofNat, hn, h.exp, h.log, afterInversions]

/-- The state of LOG_INV after `n` of its edges from `s`. -/
structure LogInvAfter (m : Modulus) (s : State) (n : Nat) (t : State) : Prop extends InPhase m .logInv n t where
  tables : InvertedFrom s n t

theorem LogInvAfter.step {m : Modulus} {s : State} (n : Nat) (t : State) (hn : n < 254) (h : LogInvAfter m s n t)
    (hrst : t.portIn.rst = false) : ∃ u, stepAt m t = .next u ∧ LogInvAfter m s (n + 1) u := by
  obtain ⟨u, hu, hw, -, hinner⟩ := stepAt_logInv hrst h.reachable h.phase
  obtain ⟨hphase, hidx, -⟩ := hinner (h.idx_ne hn)
  exact ⟨u, hu, h.next (by omega) hu hphase hidx, h.tables.succ h.idx hw⟩

/-- The first 254 edges of LOG_INV, from its entry state (R125). -/
theorem edges_logInv {m : Modulus} {n k : Nat} {s : State} (hp : s.phase = .logInv) (hi : s.idx = 0)
    (hr : reachableAt m s = true) (hn : n ≤ 254) (hq : s.noResetFor (n + k)) :
    ∃ t, edges (stepAt m) n s = .next t ∧ LogInvAfter m s n t ∧ t.noResetFor k :=
  edges_induction LogInvAfter.step hn ⟨inPhase_entry hp hi hr, invertedFrom_zero s⟩ hq

/-- The state after the last LOG_INV edge (R126, R128). -/
theorem edges_logInv_all {m : Modulus} {s : State} (hp : s.phase = .logInv) (hi : s.idx = 0)
    (hr : reachableAt m s = true) (hq : s.noResetFor 255) :
    ∃ t, edges (stepAt m) 255 s = .next t ∧ t.phase = .idle ∧ t.valid = true ∧ InvertedFrom s 255 t := by
  obtain ⟨u, hu, hinv, hk⟩ := edges_logInv (n := 254) (k := 1) hp hi hr le_rfl hq
  obtain ⟨hrst, -⟩ := noResetFor_succ hk
  obtain ⟨t, ht, hw, hlast, -⟩ := stepAt_logInv hrst hinv.reachable hinv.phase
  obtain ⟨hphase, -, hvalid⟩ := hlast (InPhase.idx_eq (i := 254) hinv.toInPhase)
  exact ⟨t, by rw [edges_succ_last, hu, andThen_next, ht], hphase, hvalid, hinv.tables.succ hinv.idx hw⟩

/-- Settles O31: the edge by what the LOG_INV step reads and writes, the length of the phase by its run. -/
theorem logInvEdgeInvertsOneEntry : Obligations.LogInvEdgeInvertsOneEntry := by
  unfold Obligations.LogInvEdgeInvertsOneEntry
  rw [← stepAt_modulus]
  refine ⟨fun s hn hr hp => ?edge, fun s hp hi hr hq => ⟨fun n hlt => ?inside, ?after⟩⟩
  case edge =>
    obtain ⟨hidx, -⟩ := (reachableAt_logInv hp).1 hr
    obtain ⟨t, ht, hw, hlast, hinner⟩ := stepAt_logInv hn hr hp
    exact ⟨t, _, ht, memRead_of_lt s (Nat.lt_succ_of_le hidx), hw.memRead_log (BitVec.isLt _),
      fun k => hw.entry_log_of_ne, hw.entry_exp, hw.cur, stepAt_inputs ht, hlast, hinner⟩
  case inside =>
    have hq' : s.noResetFor (n + (255 - n)) := by rwa [Nat.add_sub_cancel' hlt.le]
    obtain ⟨t, ht, hinv, -⟩ := edges_logInv hp hi hr (Nat.le_of_lt_succ hlt) hq'
    exact ⟨t, ht, hinv.phase, hinv.idx⟩
  case after =>
    obtain ⟨t, ht, hphase, hvalid, -⟩ := edges_logInv_all hp hi hr hq
    exact ⟨t, ht, hphase, hvalid⟩

/-- Settles O39: the run of the phase makes the inversion writes in ascending order, of which the last to an entry
stays. -/
theorem laterInversionWins : Obligations.LaterInversionWins := by
  unfold Obligations.LaterInversionWins
  intro s hp hi hr hq
  rw [← stepAt_modulus]
  obtain ⟨t, ht, -, -, htables⟩ := edges_logInv_all hp hi hr hq
  refine ⟨t, ht, fun j hj hlast => ?last, fun b hb => ?unnamed, htables.exp⟩
  case last =>
    rw [htables.log]
    exact afterInversions_of_last hj hlast
  case unnamed =>
    rw [htables.log]
    exact afterInversions_of_unnamed hb

end Sys2Proof.Machine
end

