-- ==== Sys2Proof/Proofs/LogInverse.lean ====
section
/-! LOG as the inverse of EXP under 0x11D (42_log_table_inverter.md R129): no power repeats below 255, so no inversion
write is written over. -/

namespace Sys2Proof.Machine

/-- The LOG table of a generation is what the inversion writes make of a table of sentinels (R124, R126). -/
theorem logAfterAt_eq_afterInversions (m : Modulus) (n : Nat) (b : Byte) :
    logAfterAt m n b = afterInversions (genPowAt m) (fun _ => Config.sentinel) n b.toNat := by
  induction n with
  | zero => rfl
  | succ n ih => simp only [logAfterAt, afterInversions, ih, BitVec.toNat_inj, eq_comm (a := b)]

/-- After a generation LOG gives the last index of a power (R126), under any modulus. -/
theorem logAfterAt_of_last {m : Modulus} {n j : Nat} (hj : j < n)
    (hlast : ∀ k, j < k → k < n → genPowAt m k ≠ genPowAt m j) :
    logAfterAt m n (genPowAt m j) = BitVec.ofNat 8 j := by
  rw [logAfterAt_eq_afterInversions, afterInversions_of_last hj hlast]

/-- Under 0x11D it gives the only index. -/
theorem logAfterAt_genPow {i : Nat} (hi : i < 255) : logAfterAt Config.modulus 255 (genPow i) = BitVec.ofNat 8 i :=
  logAfterAt_of_last hi fun _ hik hk h => hik.ne' (genPow_injOn hk hi h)

/-- LOG inverts EXP in complete tables (R129, item 1). -/
theorem log_exp_of_complete {s : State} (h : s.tablesComplete Config.modulus) {i : Nat} (hi : i < 255) :
    entry .log (entry .exp i s).toNat s = BitVec.ofNat 8 i := by
  obtain ⟨hexp, hlog⟩ := h
  rw [hexp i hi, hlog]
  exact logAfterAt_genPow hi

/-- EXP inverts LOG in complete tables, on the nonzero bytes (R129, items 2 and 3): each of them is a power. -/
theorem exp_log_of_complete {s : State} (h : s.tablesComplete Config.modulus) {b : Byte} (hb : b ≠ 0) :
    entry .exp (entry .log b.toNat s).toNat s = b ∧ (entry .log b.toNat s).toNat ≤ 254 := by
  obtain ⟨i, hi, rfl⟩ := (ne_zero_iff_genPow b).1 hb
  have hexp : entry .exp i s = genPow i := h.1 i hi
  have hlog : (entry .log (genPow i).toNat s).toNat = i := by
    rw [← hexp, log_exp_of_complete h hi, BitVec.toNat_ofNat, Nat.mod_eq_of_lt (by omega)]
  rw [hlog]
  exact ⟨hexp, Nat.le_of_lt_succ hi⟩

/-- Settles O42: a generation ends with complete tables, and in complete tables each is the inverse of the other. -/
theorem logInvertsExp : Obligations.LogInvertsExp := by
  unfold Obligations.LogInvertsExp
  intro s hs
  rw [← stepAt_modulus]
  obtain ⟨t, ht, -, htables, -⟩ := hs.edges
  exact ⟨t, ht, fun i hi => log_exp_of_complete htables (Nat.lt_succ_of_le hi), fun b => exp_log_of_complete htables⟩

end Sys2Proof.Machine
end

