-- ==== Sys2Proof/Proofs/TableAccess.lean ====
section
/-! The commands of 43_table_access.md (R140 to R143): their words, their responses in every state, and what they read
from complete tables. -/

namespace Sys2Proof.Machine

/-! ## The words of a command with no operand, and with one -/

/-- A word with the opcode of a command without an operand is that command's one word or illegal (R161). -/
theorem illegalWord_of_bareOpcode {op : BitVec 4} {i : Instr}
    (hd : ∀ opnd, decode (formatC op 0 opnd) = decodeBare i opnd) {w : CmdWord} (hop : opField w = op)
    (hw : w ≠ formatC op 0 0) : ∃ why, decode w = .illegalWord why := by
  obtain ⟨op', rsv, opnd, rfl⟩ := exists_formatC w
  obtain rfl : op' = op := (opField_formatC op' rsv opnd).symm.trans hop
  by_cases hrsv : rsv = 0
  · subst hrsv
    have hopnd : opnd ≠ 0 := fun h => hw (congrArg (formatC op' 0) h)
    rw [hd]
    exact (decodeBare_answers i opnd).2 hopnd
  · exact ⟨_, decode_reservedField op' opnd hrsv⟩

/-- The words of a command with an operand are those with its opcode in the upper byte (R63). -/
theorem exists_decode_operand_iff {op : BitVec 4} {c : Byte → Instr} (hc : ∀ o, encode (c o) = formatC op 0 o)
    (w : CmdWord) : (∃ o, decode w = .command (c o)) ↔ w &&& 0xFF00 = formatC op 0 0 := by
  simp only [decode_eq_command_iff, hc]
  constructor
  · rintro ⟨o, rfl⟩
    exact formatC_and_FF00 op 0 o
  · exact fun h => ⟨opndField w, eq_formatC_of_and_FF00 h⟩

/-- The operand of a command is the lower byte of its word (R62, R64). -/
theorem operand_of_decode {w : CmdWord} {i : Instr} {o : Byte} (hi : i.operand = some o)
    (hd : decode w = .command i) : o = opndField w := by
  rw [← encode_of_decode hd, opndField_encode hi]

/-! ## Responses -/

theorem respond_ok (d : Byte) (s : State) : respond .ok d s = s.responding .ok d := rfl

theorem raise_eq_responding (st : Status) (s : State) : raise st s = s.responding st 0x00 := by
  rw [raise, respond, ite_self, State.responding]

/-- A table read while `valid` = 0 (60_exceptions.md R162). -/
theorem exec_read_notReady {s : State} (hv : s.valid = false) (o : Byte) :
    exec (.rdexp o) s = .next (s.responding .notReady 0x00) ∧
      exec (.rdlog o) s = .next (s.responding .notReady 0x00) := by
  rw [← raise_eq_responding]
  exact ⟨exec_rdexp_notReady o hv, exec_rdlog_notReady o hv⟩

/-! ## Reads of complete tables -/

/-- RDEXP over complete tables answers the power of the generator. -/
theorem exec_rdexp_of_complete {s : State} (h : s.tablesComplete Config.modulus) (hv : s.valid = true) {i : Byte}
    (hi : i ≠ 255) : exec (.rdexp i) s = .next (s.responding .ok (genPow i.toNat)) := by
  obtain ⟨hexp, -⟩ := h
  rw [exec_rdexp_entry hv hi, hexp _ (toNat_lt_of_ne hi), respond_ok, genPow]

/-- RDLOG over complete tables answers what the 255 inversion writes left. -/
theorem exec_rdlog_of_complete {s : State} (h : s.tablesComplete Config.modulus) (hv : s.valid = true) (b : Byte) :
    exec (.rdlog b) s = .next (s.responding .ok (logAfterAt Config.modulus 255 b)) := by
  obtain ⟨-, hlog⟩ := h
  rw [exec_rdlog_entry b hv, hlog, respond_ok]

/-- RDLOG of a power answers its index. -/
theorem exec_rdlog_genPow {s : State} (h : s.tablesComplete Config.modulus) (hv : s.valid = true) {k : Nat}
    (hk : k < 255) : exec (.rdlog (genPow k)) s = .next (s.responding .ok (BitVec.ofNat 8 k)) := by
  rw [exec_rdlog_of_complete h hv, logAfterAt_genPow hk]

/-- A byte that is no power has the sentinel for its LOG entry, under any modulus. -/
theorem logAfterAt_of_not_power {m : Modulus} {n : Nat} {b : Byte} (h : ∀ k, k < n → genPowAt m k ≠ b) :
    logAfterAt m n b = Config.sentinel := by
  rw [logAfterAt_eq_afterInversions, afterInversions_of_unnamed fun k hk hb => h k hk (BitVec.eq_of_toNat_eq hb)]

theorem genPow_8 : genPow 8 = 0x1D := by decide

/-! ## The status byte (10_state.md R31) -/

/-- The four fields of the status byte. -/
theorem statusByte_fields (s : State) :
    (statusByte s).extractLsb' 4 4 = 0 ∧ (statusByte s).extractLsb' 2 2 = s.phase.code ∧
      (statusByte s).getLsbD 1 = s.busy ∧ (statusByte s).getLsbD 0 = s.valid := by
  unfold statusByte
  refine ⟨?_, ?_, ?_, ?_⟩
  · exact (BitVec.extractLsb'_append_eq_of_le (by decide)).trans BitVec.extractLsb'_append_eq_left
  · exact (BitVec.extractLsb'_append_eq_of_le (by decide)).trans BitVec.extractLsb'_append_eq_right
  · rw [BitVec.getLsbD_append, BitVec.getLsbD_append]
    simp
  · rw [BitVec.getLsbD_append, BitVec.getLsbD_append]
    simp

/-- The status byte is one of `phase` and `valid`. -/
theorem statusByte_of {s : State} {p : Phase} {v : Bool} (hp : s.phase = p) (hv : s.valid = v) :
    statusByte s = (0#4 ++ p.code) ++ (BitVec.ofBool (decide (p ≠ .idle)) ++ BitVec.ofBool v) := by
  rw [statusByte, State.busy, hp, hv]

/-- R33 leaves `valid` = 0 outside IDLE. -/
theorem ReachableShape.valid_of_busy {s : State} (h : ReachableShape s) (hp : s.phase ≠ .idle) : s.valid = false :=
  Bool.eq_false_iff.2 (mt h.valid hp)

/-- Outside IDLE the status byte is one of `phase` alone (R33). -/
theorem statusByte_of_busy {s : State} {p : Phase} (h : ReachableShape s) (hp : s.phase = p) (hne : p ≠ .idle) :
    statusByte s = (0#4 ++ p.code) ++ (1#1 ++ 0#1) := by
  rw [statusByte_of hp (h.valid_of_busy (hp ▸ hne)), decide_eq_true hne]
  rfl

/-! ## The four commands -/

/-- Settles O11: the words of NOP by the decoder's rule for a command without an operand, and its edge as one of a
command that only responds. -/
theorem nopOnlyResponds : Obligations.NopOnlyResponds := by
  unfold Obligations.NopOnlyResponds
  rw [← stepAt_modulus]
  refine ⟨exec_nop, fun w => decode_eq_command_iff.trans eq_comm, fun w => illegalWord_of_bareOpcode decode_nop,
    fun s hr hacc => ?_⟩
  have ⟨hn, _⟩ := hacc
  have hc := commandPart_of_accepts (m := Config.modulus) (i := .nop) hacc
  obtain ⟨t, u, ht, hu, hagree, hresponse⟩ := stepAt_of_respond hn hr hc
  exact ⟨t, u, ht, hu, hagree, hresponse.rspValid, hresponse.rspStatus, hresponse.rspData⟩

/-- Settles O13: the three cases of RDEXP, and its corner entries as powers of the generator. -/
theorem rdexpReadsTheEntry : Obligations.RdexpReadsTheEntry := by
  unfold Obligations.RdexpReadsTheEntry
  refine ⟨exists_decode_operand_iff (op := 0x2) fun _ => rfl, fun w i => operand_of_decode rfl,
    fun s i hv => (exec_read_notReady hv i).1, fun s hv => ?sentinel, fun s i hv hi => ?entry,
    fun s hinv hv => ?corners⟩
  case sentinel => rw [exec_rdexp_badIndex hv, raise_eq_responding]
  case entry => exact ⟨_, memRead_of_lt s (toNat_lt_of_ne hi), exec_rdexp_entry hv hi⟩
  case corners =>
    have hread {i : Byte} := exec_rdexp_of_complete (hinv.tablesTrack.complete hinv.reachable hv) hv (i := i)
    exact ⟨hread (by decide), genPow_8 ▸ hread (i := 8) (by decide), genPow_254 ▸ hread (i := 254) (by decide)⟩

/-- Settles O14: the two cases of RDLOG, and its corner entries as the indices of powers; 0 is no power. -/
theorem rdlogReadsTheEntry : Obligations.RdlogReadsTheEntry := by
  unfold Obligations.RdlogReadsTheEntry
  refine ⟨exists_decode_operand_iff (op := 0x3) fun _ => rfl, fun w b => operand_of_decode rfl,
    fun s b hv => (exec_read_notReady hv b).2, fun s b hv => ⟨_, memRead_of_lt s b.isLt, exec_rdlog_entry b hv⟩,
    fun s hinv hv => ?corners⟩
  have hcomplete := hinv.tablesTrack.complete hinv.reachable hv
  have hpower {k : Nat} := exec_rdlog_genPow hcomplete hv (k := k)
  refine ⟨?zero, hpower (k := 0) (by decide), genPow_254 ▸ hpower (k := 254) (by decide),
    genPow_8 ▸ hpower (k := 8) (by decide)⟩
  rw [exec_rdlog_of_complete hcomplete hv, logAfterAt_of_not_power fun k _ => genPow_ne_zero k, Config.sentinel]

/-- Settles O16: the fields of the status byte, its value in each phase, and the completing edge, whose command reads
the state before it. -/
theorem statusReportsTheByte : Obligations.StatusReportsTheByte := by
  unfold Obligations.StatusReportsTheByte
  rw [← stepAt_modulus]
  refine ⟨fun s => ?fields, fun w => decode_eq_command_iff.trans eq_comm,
    fun w => illegalWord_of_bareOpcode decode_status, statusByte_of rfl rfl,
    fun s hs => ⟨statusByte_of, fun hp => ?expGen, fun hp => ?logInit, fun hp => ?logInv,
      fun hv => statusByte_of (hs.valid hv) hv⟩,
    fun s hp hi hr hacc => ?completing⟩
  case fields =>
    obtain ⟨hzero, hphase, hbusy, hvalid⟩ := statusByte_fields s
    exact ⟨statusByte s, exec_status s, hzero, hphase, by rw [hbusy, State.busy, decide_eq_true_iff], by rw [hvalid]⟩
  case expGen => exact statusByte_of_busy hs hp (by decide)
  case logInit => exact statusByte_of_busy hs hp (by decide)
  case logInv => exact statusByte_of_busy hs hp (by decide)
  case completing =>
    have ⟨hn, _⟩ := hacc
    have hc := commandPart_of_accepts (m := Config.modulus) (i := .status) hacc
    obtain ⟨t, -, ht, -, -, hresponse⟩ := stepAt_of_respond hn hr hc
    obtain ⟨t', ht', -, hlast, -⟩ := stepAt_logInv hn hr hp
    obtain rfl := Host.Outcome.next.inj (ht.symm.trans ht')
    obtain ⟨-, -, hvalid⟩ := hlast hi
    exact ⟨t, ht, hvalid, hresponse.rspStatus,
      hresponse.rspData.trans (statusByte_of_busy (reachable_iff_shape.1 hr) hp (by decide))⟩

end Sys2Proof.Machine
end

