-- ==== Sys2Proof/Proofs/Timeline.lean ====
section
/-! The timeline of one generation (43_table_access.md R152): where the sequencer is after each edge that follows START,
the entry that the edge has written, and what table reads answer meanwhile and from the completion on. -/

namespace Sys2Proof.Machine

/-! ## The phase and the index of a position (10_state.md R29) -/

/-- Inside R33 the positions of the phases do not overlap. -/
theorem position_cases {m : Modulus} {s : State} (hr : reachableAt m s = true) :
    s.position = 0 ∨ (∃ n, n < 255 ∧ InPhase m .expGen n s ∧ s.position = 1 + n) ∨
      (∃ n, n < 256 ∧ InPhase m .logInit n s ∧ s.position = 256 + n) ∨
      (∃ n, n < 255 ∧ InPhase m .logInv n s ∧ s.position = 512 + n) := by
  cases hp : s.phase with
  | idle => exact .inl (by rw [State.position, hp])
  | expGen =>
    obtain ⟨hi, -⟩ := (reachableAt_expGen hp).1 hr
    exact .inr (.inl ⟨_, Nat.lt_succ_of_le hi, ⟨hr, hp, rfl⟩, position_expGen hp⟩)
  | logInit =>
    obtain ⟨hi, -⟩ := (reachableAt_logInit hp).1 hr
    exact .inr (.inr (.inl ⟨_, Nat.lt_succ_of_le hi, ⟨hr, hp, rfl⟩, position_logInit hp⟩))
  | logInv =>
    obtain ⟨hi, -⟩ := (reachableAt_logInv hp).1 hr
    exact .inr (.inr (.inr ⟨_, Nat.lt_succ_of_le hi, ⟨hr, hp, rfl⟩, position_logInv hp⟩))

/-- The positions 256 to 511 are those of LOG_INIT. -/
theorem inPhase_logInit_of_position {m : Modulus} {s : State} {n : Nat} (hr : reachableAt m s = true)
    (h : s.position = 256 + n) (hn : n < 256) : InPhase m .logInit n s := by
  rcases position_cases hr with h0 | ⟨k, hk, -, hpos⟩ | ⟨k, -, hin, hpos⟩ | ⟨k, -, -, hpos⟩
  · omega
  · omega
  · obtain rfl : k = n := by omega
    exact hin
  · omega

/-- The positions from 512 on are those of LOG_INV. -/
theorem inPhase_logInv_of_position {m : Modulus} {s : State} {n : Nat} (hr : reachableAt m s = true)
    (h : s.position = 512 + n) : InPhase m .logInv n s := by
  rcases position_cases hr with h0 | ⟨k, hk, -, hpos⟩ | ⟨k, hk, -, hpos⟩ | ⟨k, -, hin, hpos⟩
  · omega
  · omega
  · omega
  · obtain rfl : k = n := by omega
    exact hin

/-- Index 0 as a value of the register. -/
theorem InPhase.idx_zero {m : Modulus} {ph : Phase} {s : State} (h : InPhase m ph 0 s) : s.idx = 0 :=
  InPhase.idx_eq (i := 0) h

/-! ## The entries written at each stage -/

theorem memRead_of_read {sp : Space} {k : Nat} {s : State} {v : Byte} (hk : k < sp.size)
    (h : (s.table sp).read k = some v) : memRead sp k s = some v := by
  rw [memRead_of_lt s hk, entry_of_read h]

/-- What the edges of EXP_GEN have written (41_exp_table_generator.md R104). -/
theorem memRead_exp_of_powersBelow {m : Modulus} {n k : Nat} {s : State} (h : s.expMem.powersBelow m n) (hk : k < n)
    (hlt : k < 255) : memRead .exp k s = some (genPowAt m k) :=
  memRead_of_read hlt (h k hk)

/-- What the edges of LOG_INIT have written (42_log_table_inverter.md R123). -/
theorem memRead_log_of_sentinelsBelow {n k : Nat} {s : State} (h : s.logMem.sentinelsBelow n) (hk : k < n)
    (hlt : k < 256) : memRead .log k s = some Config.sentinel :=
  memRead_of_read hlt (h k hk)

/-- What the edges of LOG_INV have left in an entry (42_log_table_inverter.md R127). -/
theorem memRead_log_of_invertedBelow {m : Modulus} {n : Nat} {s : State} (h : s.logMem.invertedBelow m n) (b : Byte) :
    memRead .log b.toNat s = some (logAfterAt m n b) :=
  memRead_of_read b.isLt (h b)

/-- What the last edge of LOG_INV so far has written. -/
theorem logAfterAt_succ_self (m : Modulus) (n : Nat) : logAfterAt m (n + 1) (genPowAt m n) = BitVec.ofNat 8 n :=
  if_pos rfl

/-! ## The run from START on -/

/-- The state `n` edges after the one that accepts START. -/
theorem StartsGeneration.edges_busy {m : Modulus} {n : Nat} {s : State} (h : StartsGeneration m 766 s) (hn : n < 766) :
    ∃ t, Machine.edges (Machine.stepAt m) (1 + n) s = .next t ∧ GenerationKept m t ∧ t.position = 1 + n := by
  obtain ⟨u, hu, hp, hi, hr, hq⟩ := h.stepAt
  have hq' : u.noResetFor (n + (766 - n)) := by rwa [Nat.add_sub_cancel' hn.le]
  obtain ⟨t, ht, hkept, hpos, -⟩ := edges_from_entry hp hi hr (Nat.le_of_lt_succ hn) hq'
  exact ⟨t, by rw [Nat.add_comm, edges_succ, hu, andThen_next, ht], hkept, hpos⟩

/-- A generation in progress has `valid` = 0. -/
theorem GenerationKept.valid_of_position {m : Modulus} {s : State} (h : GenerationKept m s) (hp : 0 < s.position) :
    s.valid = false :=
  Bool.eq_false_iff.2 fun hv => busy_of_position hp (idle_of_valid h.reachable hv)

/-- The first 255 positions (EXP_GEN). -/
theorem StartsGeneration.edges_expGen {m : Modulus} {n : Nat} {s : State} (h : StartsGeneration m 766 s)
    (hn : n < 255) : ∃ t, Machine.edges (Machine.stepAt m) (1 + n) s = .next t ∧ t.phase = .expGen ∧ t.idx.toNat = n ∧
      t.cur = genPowAt m n ∧ t.valid = false ∧ t.expMem.powersBelow m n := by
  obtain ⟨t, ht, hkept, hpos⟩ := h.edges_busy (show n < 766 by omega)
  obtain ⟨hp, rfl⟩ := expGen_of_position hpos hn
  obtain ⟨-, hcur, hvalid⟩ := (reachableAt_expGen hp).1 hkept.reachable
  exact ⟨t, ht, hp, rfl, hcur, hvalid, (tablesTrack_expGen hp).1 hkept.tables⟩

/-- The next 256 positions (LOG_INIT). -/
theorem StartsGeneration.edges_logInit {m : Modulus} {n : Nat} {s : State} (h : StartsGeneration m 766 s)
    (hn : n < 256) : ∃ t, Machine.edges (Machine.stepAt m) (1 + (255 + n)) s = .next t ∧ InPhase m .logInit n t ∧
      t.expMem.powersBelow m 255 ∧ t.logMem.sentinelsBelow n := by
  obtain ⟨t, ht, hkept, hpos⟩ := h.edges_busy (show 255 + n < 766 by omega)
  have hin := inPhase_logInit_of_position hkept.reachable (by omega) hn
  obtain ⟨hexp, hlog⟩ := (tablesTrack_logInit hin.phase (hin.idx.trans_le (by omega))).1 hkept.tables
  exact ⟨t, ht, hin, hexp, hin.idx ▸ hlog⟩

/-- The last 255 positions (LOG_INV). -/
theorem StartsGeneration.edges_logInv {m : Modulus} {n : Nat} {s : State} (h : StartsGeneration m 766 s)
    (hn : n < 255) : ∃ t, Machine.edges (Machine.stepAt m) (1 + (511 + n)) s = .next t ∧ InPhase m .logInv n t ∧
      t.expMem.powersBelow m 255 ∧ t.logMem.invertedBelow m n := by
  obtain ⟨t, ht, hkept, hpos⟩ := h.edges_busy (show 511 + n < 766 by omega)
  have hin := inPhase_logInv_of_position (n := n) hkept.reachable (by omega)
  obtain ⟨hexp, hlog⟩ := (tablesTrack_logInv hin.phase).1 hkept.tables
  exact ⟨t, ht, hin, hexp, hin.idx ▸ hlog⟩

/-! ## From the completion on -/

theorem generationComplete_iff {s : State} : s.generationComplete = true ↔ s.valid = true ∧ s.phase = .idle := by
  simp [State.generationComplete]

/-- Edges in a row take the inputs they sampled off the list. -/
theorem edges_inputs {m : Modulus} {n : Nat} {s t : State} (h : edges (stepAt m) n s = .next t) :
    t.inputs = s.inputs.drop n := by
  induction n generalizing s with
  | zero =>
    obtain rfl := Host.Outcome.next.inj h
    rfl
  | succ n ih =>
    obtain ⟨u, hu, h⟩ := andThen_inv h
    rw [ih h, stepAt_inputs hu, List.drop_tail]

/-- Edges in a row keep R33. -/
theorem edges_reachableAt {m : Modulus} {n : Nat} {s t : State} (hr : reachableAt m s = true)
    (h : edges (stepAt m) n s = .next t) : reachableAt m t = true := by
  induction n generalizing s with
  | zero =>
    obtain rfl := Host.Outcome.next.inj h
    exact hr
  | succ n ih =>
    obtain ⟨u, hu, h⟩ := andThen_inv h
    exact ih (stepAt_reachableAt hr hu) h

/-- A run without reset, and without START in its last `n` edges, leaves those undisturbed. -/
theorem undisturbedFor_of_drop {s t : State} {k n : Nat} (hin : t.inputs = s.inputs.drop k)
    (hrst : s.noResetFor (k + n))
    (hstart : ∀ d ∈ (s.inputs.take (k + n)).drop k, d.cmdValid = true → d.cmd ≠ encode .start) :
    t.undisturbedFor n := by
  intro d hd
  rw [hin, List.take_drop] at hd
  exact ⟨hrst d (List.mem_of_mem_drop hd), hstart d hd⟩

/-- `n` edges after the completing one, with no START accepted at those, both tables are still complete and may be
read. -/
theorem StartsGeneration.edges_after {m : Modulus} {n : Nat} {s : State} (h : StartsGeneration m (766 + n) s)
    (hstart : ∀ d ∈ (s.inputs.take (767 + n)).drop 767, d.cmdValid = true → d.cmd ≠ encode .start) :
    ∃ t, Machine.edges (Machine.stepAt m) (767 + n) s = .next t ∧ t.valid = true ∧ t.tablesComplete m := by
  have hrst : s.noResetFor (767 + n) := Nat.add_right_comm 766 n 1 ▸ h.noReset
  have h766 : StartsGeneration m 766 s :=
    { h with noReset := fun d hd => hrst d ((List.take_subset_take_left _ (Nat.le_add_right 767 n)) hd) }
  obtain ⟨u, hu, hdone, htables, -⟩ := h766.edges
  obtain ⟨hvalid, hidle⟩ := generationComplete_iff.1 hdone
  have hq := undisturbedFor_of_drop (edges_inputs hu) hrst hstart
  obtain ⟨t, ht, -, hv, hexp, hlog⟩ := edges_idle hidle (edges_reachableAt h.reachable hu) hq
  refine ⟨t, by rw [edges_add, hu, andThen_next, ht], hv.trans hvalid, ?_⟩
  simpa only [State.tablesComplete, entry_eq_of_tables hexp hlog] using htables

/-! ## The whole timeline -/

/-- Settles O40: each row of R152 as a position of the generation, with the entries that the stage it is in has written;
reads by `valid`. -/
theorem generationFollowsTheTimeline : Obligations.GenerationFollowsTheTimeline := by
  unfold Obligations.GenerationFollowsTheTimeline
  rw [← stepAt_modulus]
  refine ⟨fun s hs => ⟨?start, fun i hi => ?expGen, ?expGenLast, fun k hk => ?logInit, ?logInitLast,
    fun i hi => ?logInv, ?completing, fun n hn => ?refused⟩, fun s n hs hq => ?served⟩
  case start =>
    obtain ⟨t, ht, hp, hi, hcur, hvalid, -⟩ := hs.edges_expGen (n := 0) (by decide)
    exact ⟨t, ht, hp, BitVec.eq_of_toNat_eq hi, hcur, hvalid⟩
  case expGen =>
    obtain ⟨t, ht, hp, hidx, -, -, hexp⟩ := hs.edges_expGen (n := i + 1) (by omega)
    exact ⟨t, by rwa [Nat.add_assoc, Nat.add_comm 1 i], hp, hidx,
      memRead_exp_of_powersBelow hexp i.lt_succ_self (by omega)⟩
  case expGenLast =>
    obtain ⟨t, ht, hin, hexp, -⟩ := hs.edges_logInit (n := 0) (by decide)
    exact ⟨t, ht, hin.phase, hin.idx_zero, genPow_254 ▸ memRead_exp_of_powersBelow hexp (by decide) (by decide)⟩
  case logInit =>
    obtain ⟨t, ht, hin, -, hlog⟩ := hs.edges_logInit (n := k + 1) (by omega)
    exact ⟨t, by rwa [show 1 + 256 + k = 1 + (255 + (k + 1)) by omega], hin.phase, hin.idx,
      memRead_log_of_sentinelsBelow hlog k.lt_succ_self (by omega)⟩
  case logInitLast =>
    obtain ⟨t, ht, hin, -, hlog⟩ := hs.edges_logInv (n := 0) (by decide)
    exact ⟨t, ht, hin.phase, hin.idx_zero, memRead_log_of_invertedBelow hlog 255⟩
  case logInv =>
    obtain ⟨t, ht, hin, hexp, hlog⟩ := hs.edges_logInv (n := i + 1) (by omega)
    refine ⟨t, by rwa [show 1 + 512 + i = 1 + (511 + (i + 1)) by omega], hin.phase, hin.idx, ?_⟩
    rw [entry_exp_of_powersBelow hexp (by omega), memRead_log_of_invertedBelow hlog, logAfterAt_succ_self]
  case completing =>
    obtain ⟨t, ht, hdone, ⟨-, hlog⟩, -⟩ := hs.edges
    obtain ⟨hvalid, hidle⟩ := generationComplete_iff.1 hdone
    have hidx := (reachableAt_idle hidle).1 (edges_reachableAt hs.reachable ht)
    have hentry : entry .log 0x8E t = 254 := (hlog 0x8E).trans (genPow_254 ▸ logAfterAt_genPow (by decide))
    exact ⟨t, ht, hidle, hidx, hvalid, (memRead_of_lt t (by decide)).trans (congrArg some hentry)⟩
  case refused =>
    obtain ⟨t, ht, hkept, hpos⟩ := hs.edges_busy hn
    exact ⟨t, ht, exec_read_notReady (hkept.valid_of_position (by omega))⟩
  case served =>
    obtain ⟨t, ht, hvalid, htables⟩ := hs.edges_after hq
    exact ⟨t, ht, hvalid, fun i => exec_rdexp_of_complete htables hvalid, exec_rdlog_of_complete htables hvalid⟩

end Sys2Proof.Machine
end

