-- ==== Sys2Proof/Proofs/Errors.lean ====
section
/-! The error responses (60_exceptions.md R160 to R164): the status of an accepted word is its first cause in the
pre-edge state, and a word whose status is an error is a `raise` and nothing more, so its edge is the edge without a
command but for the response. -/

namespace Sys2Proof.Machine

/-! ## The words that are no command (R161) -/

theorem exists_decodeBare_illegalWord_iff (i : Instr) (opnd : Byte) :
    (∃ why, decodeBare i opnd = .illegalWord why) ↔ opnd ≠ 0 := by
  obtain ⟨hzero, hstray⟩ := decodeBare_answers i opnd
  refine ⟨?_, hstray⟩
  rintro ⟨why, hwhy⟩ h
  cases (hzero h).symm.trans hwhy

/-- The three kinds of illegal word, by their fields. -/
theorem exists_illegalWord_iff_fields (w : CmdWord) : (∃ why, decode w = .illegalWord why) ↔
    rsvField w ≠ 0 ∨ 6 ≤ (opField w).toNat ∨
      ((opField w = 0x0 ∨ opField w = 0x1 ∨ opField w = 0x5) ∧ opndField w ≠ 0) := by
  obtain ⟨op, rsv, opnd, rfl⟩ := exists_formatC w
  rw [rsvField_formatC, opField_formatC, opndField_formatC]
  by_cases hrsv : rsv = 0
  · subst hrsv
    rcases opcode_cases op with rfl | rfl | rfl | rfl | rfl | rfl | hop
    · rw [decode_nop, exists_decodeBare_illegalWord_iff]
      simp
    · rw [decode_start, exists_decodeBare_illegalWord_iff]
      simp
    · rw [decode_rdexp]
      simp
    · rw [decode_rdlog]
      simp
    · rw [decode_mulg]
      simp
    · rw [decode_status, exists_decodeBare_illegalWord_iff]
      simp
    · exact iff_of_true ⟨_, decode_reservedOpcode opnd hop⟩ (.inr (.inl hop))
  · exact iff_of_true ⟨_, decode_reservedField op opnd hrsv⟩ (.inl hrsv)

/-! ## Which word has which cause (R160, R164) -/

theorem firstCause_rdexp_notReady {s : State} (hv : s.valid = false) (o : Byte) :
    firstCause s (.command (.rdexp o)) = .notReady := if_pos hv

theorem firstCause_rdexp_ready {s : State} (hv : s.valid = true) (o : Byte) :
    firstCause s (.command (.rdexp o)) = if o = 255 then .badIndex else .ok := if_neg (by simp [hv])

theorem firstCause_rdlog_notReady {s : State} (hv : s.valid = false) (b : Byte) :
    firstCause s (.command (.rdlog b)) = .notReady := if_pos hv

theorem firstCause_rdlog_ready {s : State} (hv : s.valid = true) (b : Byte) :
    firstCause s (.command (.rdlog b)) = .ok := if_neg (by simp [hv])

theorem firstCause_eq_illegal_iff (s : State) (d : Decoded) :
    firstCause s d = .illegal ↔ ∃ why, d = .illegalWord why := by
  cases d with
  | illegalWord why => simp [firstCause]
  | command i => cases i <;> simp [firstCause, ite_eq_iff]

theorem firstCause_eq_notReady_iff (s : State) (d : Decoded) : firstCause s d = .notReady ↔
    ((∃ o, d = .command (.rdexp o) ∨ d = .command (.rdlog o)) ∧ s.valid = false) ∨
      (d = .command .start ∧ s.phase ≠ .idle) := by
  cases d with
  | illegalWord why => simp [firstCause]
  | command i => cases i <;> simp [firstCause, ite_eq_iff]

theorem firstCause_eq_badIndex_iff (s : State) (d : Decoded) :
    firstCause s d = .badIndex ↔ d = .command (.rdexp 255) ∧ s.valid = true := by
  cases d with
  | illegalWord why => simp [firstCause]
  | command i => cases i <;> simp [firstCause, ite_eq_iff, and_comm]

/-! ## The response of an accepted word -/

/-- A command answers its first cause. -/
theorem execAt_rspStatus {m : Modulus} {i : Instr} {s t : State} (h : execAt m i s = .next t) :
    t.rspStatus = firstCause s (.command i) := by
  have answer {r : State} (he : execAt m i s = .next r) (hr : r.rspStatus = firstCause s (.command i)) :
      t.rspStatus = firstCause s (.command i) := Host.Outcome.next.inj (h.symm.trans he) ▸ hr
  cases i with
  | nop | mulg _ | status => exact answer rfl rfl
  | start =>
    by_cases hp : s.phase = .idle
    · exact answer (exec_start_idle hp) (if_pos hp).symm
    · exact answer (exec_start_busy hp) (if_neg hp).symm
  | rdexp o =>
    cases hv : s.valid with
    | false => exact answer (exec_rdexp_notReady o hv) (firstCause_rdexp_notReady hv o).symm
    | true =>
      by_cases ho : o = 0xFF
      · subst ho
        exact answer (exec_rdexp_badIndex hv) (firstCause_rdexp_ready hv 0xFF).symm
      · exact answer (exec_rdexp_entry hv ho) ((firstCause_rdexp_ready hv o).trans (if_neg ho)).symm
  | rdlog b =>
    cases hv : s.valid with
    | false => exact answer (exec_rdlog_notReady b hv) (firstCause_rdlog_notReady hv b).symm
    | true => exact answer (exec_rdlog_entry b hv) (firstCause_rdlog_ready hv b).symm

theorem exec_rspStatus {i : Instr} {s t : State} (h : exec i s = .next t) :
    t.rspStatus = firstCause s (.command i) :=
  execAt_rspStatus (m := Config.modulus) (execAt_modulus ▸ h)

/-- A presented word answers its first cause. -/
theorem commandPart_rspStatus {m : Modulus} {s t : State} (hv : s.portIn.cmdValid = true)
    (h : commandPart (execAt m) s = .next t) : t.rspStatus = firstCause s (decode s.portIn.cmd) := by
  cases hd : decode s.portIn.cmd with
  | command i => exact execAt_rspStatus (commandPart_command hv hd ▸ h)
  | illegalWord why =>
    rw [commandPart_illegal hv hd] at h
    obtain rfl := Host.Outcome.next.inj h
    rfl

/-- A response with an error carries no data: it is a `raise` (30_encoding.md R66). -/
theorem respond_eq_raise {st : Status} (h : st ≠ .ok) (d : Byte) (s : State) : respond st d s = raise st s := by
  rw [raise, respond, respond, if_neg h, if_neg h]

/-- "The command has no effect beyond its response" (R161 to R163): a presented word with a cause is a `raise`. -/
theorem commandPart_of_error {m : Modulus} {s : State} (hv : s.portIn.cmdValid = true)
    (he : firstCause s (decode s.portIn.cmd) ≠ .ok) :
    commandPart (execAt m) s = .next (raise (firstCause s (decode s.portIn.cmd)) s) := by
  rcases commandPart_cases m s with ⟨st, d, h⟩ | ⟨hnone, -⟩ | ⟨-, hd, hp, -⟩
  · obtain rfl : st = firstCause s (decode s.portIn.cmd) := commandPart_rspStatus hv h
    rw [h, respond_eq_raise he]
  · cases hnone.symm.trans hv
  · exact absurd (hd ▸ if_pos hp) he

/-! ## The edge of an accepted word -/

/-- An edge that accepts a word answers the word's first cause in the pre-edge state. -/
theorem stepAt_rspStatus {m : Modulus} {s t : State} {w : CmdWord} (hacc : s.accepts w) (h : stepAt m s = .next t) :
    t.rspStatus = firstCause s (decode w) := by
  obtain ⟨hn, hv, rfl⟩ := hacc
  have hr := reachableAt_of_stepAt hn h
  obtain ⟨mid, u, hu⟩ := exists_edgeParts hr
  obtain rfl := Host.Outcome.next.inj (h.symm.trans (hu.stepAt_eq hn hr))
  exact hu.sequencer.sameResponse.rspStatus.trans (commandPart_rspStatus hv hu.command)

/-- A word with a cause raises it, and leaves everything else as the edge without a command does. -/
theorem stepAt_of_error {m : Modulus} {s : State} {w : CmdWord} {st : Status} (hr : reachableAt m s = true)
    (hacc : s.accepts w) (hst : firstCause s (decode w) = st) (he : st ≠ .ok) :
    ∃ t u, stepAt m s = .next t ∧ stepAt m s.quietNext = .next u ∧ t.agreeButResponse u ∧
      t.rspValid = true ∧ t.rspStatus = st ∧ t.rspData = 0x00 := by
  obtain ⟨hn, hv, rfl⟩ := hacc
  subst hst
  obtain ⟨t, u, ht, hu, hagree, hresponse⟩ := stepAt_of_respond hn hr (commandPart_of_error hv he)
  exact ⟨t, u, ht, hu, hagree, hresponse.rspValid, hresponse.rspStatus, hresponse.rspData.trans (raise_rspData _ s)⟩

/-- An edge whose status is an error answers no data (R160). -/
theorem stepAt_rspData_of_error {m : Modulus} {s t : State} (h : stepAt m s = .next t) (he : t.rspStatus ≠ .ok) :
    t.rspData = 0x00 := by
  rcases stepAt_response h with ⟨⟨hn, hv⟩, -⟩ | ⟨-, hsilent⟩
  · have hacc : s.accepts s.portIn.cmd := ⟨hn, hv, rfl⟩
    have hst := (stepAt_rspStatus hacc h).symm
    obtain ⟨t', -, ht', -, -, -, -, hdata⟩ := stepAt_of_error (reachableAt_of_stepAt hn h) hacc hst he
    obtain rfl := Host.Outcome.next.inj (h.symm.trans ht')
    exact hdata
  · exact hsilent.rspData

/-- An edge answers ILLEGAL exactly for an accepted word that is no command (R161). -/
theorem stepAt_illegal_iff {m : Modulus} {s t : State} (h : stepAt m s = .next t) : t.rspStatus = .illegal ↔
    s.portIn.rst = false ∧ s.portIn.cmdValid = true ∧ ∃ why, decode s.portIn.cmd = .illegalWord why := by
  rcases stepAt_response h with ⟨⟨hn, hv⟩, -⟩ | ⟨hnone, hsilent⟩
  · rw [stepAt_rspStatus ⟨hn, hv, rfl⟩ h, firstCause_eq_illegal_iff]
    simp [hn, hv]
  · refine iff_of_false (by simp [hsilent.rspStatus]) ?_
    rintro ⟨hn, hv, -⟩
    exact hnone ⟨hn, hv⟩

/-! ## The obligations -/

/-- RDEXP 255 as a word. -/
theorem decode_20FF : decode 0x20FF = .command (.rdexp 255) := decode_rdexp 255

/-- Settles O19: the causes of a command's status and of an edge's, and the data of an edge with an error. -/
theorem statusCodesAndTheirCauses : Obligations.StatusCodesAndTheirCauses := by
  unfold Obligations.StatusCodesAndTheirCauses
  rw [← stepAt_modulus]
  refine ⟨rfl, rfl, rfl, rfl, fun i s t h => ?_, fun s t => stepAt_illegal_iff, fun s t => stepAt_rspData_of_error⟩
  rw [exec_rspStatus h]
  refine ⟨?notReady, ?badIndex, mt (firstCause_eq_illegal_iff s _).1 (by simp)⟩
  case notReady => simpa only [Decoded.command.injEq] using firstCause_eq_notReady_iff s (.command i)
  case badIndex => simpa only [Decoded.command.injEq] using firstCause_eq_badIndex_iff s (.command i)

/-- Settles O21: the status is the first cause, the decoder's illegal words are those of the three kinds, and such a
word is an error. -/
theorem illegalWordsRaiseIllegal : Obligations.IllegalWordsRaiseIllegal := by
  unfold Obligations.IllegalWordsRaiseIllegal
  rw [← stepAt_modulus]
  intro s w hr hacc
  obtain ⟨t, ht⟩ := stepAt_progress hr
  obtain ⟨u, hu⟩ := stepAt_progress (((sameSequencer_quietNext s).reachableAt_eq _).symm.trans hr)
  have hstatus := stepAt_rspStatus hacc ht
  have hillegal : t.rspStatus = .illegal ↔ ∃ why, decode w = .illegalWord why := by
    rw [hstatus, firstCause_eq_illegal_iff]
  refine ⟨t, u, ht, hu, hillegal.trans (exists_illegalWord_iff_fields w), hillegal, fun h => ?_⟩
  obtain ⟨t', u', ht', hu', hagree, hvalid, -, hdata⟩ := stepAt_of_error hr hacc (hstatus.symm.trans h) (by decide)
  obtain rfl := Host.Outcome.next.inj (ht.symm.trans ht')
  obtain rfl := Host.Outcome.next.inj (hu.symm.trans hu')
  exact ⟨hagree, hvalid, hdata⟩

/-- Settles O22: the words named are those whose first cause is NOTREADY. -/
theorem notReadyHasNoOtherEffect : Obligations.NotReadyHasNoOtherEffect := by
  unfold Obligations.NotReadyHasNoOtherEffect
  rw [← stepAt_modulus]
  refine ⟨fun s w hr hacc hcause => ?_, fun i s t h hstatus => ?_⟩
  · exact stepAt_of_error hr hacc ((firstCause_eq_notReady_iff s _).2 hcause) (by decide)
  · rw [exec_rspStatus h, firstCause_eq_notReady_iff] at hstatus
    simpa only [Decoded.command.injEq] using hstatus

/-- Settles O23: with `valid` = 1 the first cause of RDEXP is BAD_INDEX for the sentinel index alone. -/
theorem sentinelIndexIsBadIndex : Obligations.SentinelIndexIsBadIndex := by
  unfold Obligations.SentinelIndexIsBadIndex
  rw [← stepAt_modulus]
  refine ⟨fun s hr hv hacc => ?_, fun s i t hv h => ?_⟩
  · exact stepAt_of_error hr hacc ((firstCause_eq_badIndex_iff s _).2 ⟨decode_20FF, hv⟩) (by decide)
  · rw [exec_rspStatus h, firstCause_eq_badIndex_iff]
    simp [hv]

/-- Settles O24: the status is the first cause, in the two cases R164 names too, and a reset edge accepts no command. -/
theorem firstCauseIsReported : Obligations.FirstCauseIsReported := by
  unfold Obligations.FirstCauseIsReported
  rw [← stepAt_modulus]
  have hreported {s : State} {w : CmdWord} {st : Status} (hr : reachable s = true) (hacc : s.accepts w)
      (hst : firstCause s (decode w) = st) : ∃ t, stepAt Config.modulus s = .next t ∧ t.rspStatus = st := by
    obtain ⟨t, ht⟩ := stepAt_progress hr
    exact ⟨t, ht, (stepAt_rspStatus hacc ht).trans hst⟩
  refine ⟨fun s w hr hacc => hreported hr hacc rfl, fun s hr hv hacc => hreported hr hacc ?notReady,
    fun s hr hacc => hreported hr hacc ?illegal, fun s hrst => ⟨_, stepAt_reset hrst, rfl⟩⟩
  case notReady => exact (firstCause_eq_notReady_iff s _).2 (.inl ⟨⟨255, .inl decode_20FF⟩, hv⟩)
  case illegal =>
    exact (firstCause_eq_illegal_iff s _).2 ⟨_, decode_reservedField 0x2 (rsv := 0x1) 0xFF (by decide)⟩

end Sys2Proof.Machine
end

