-- ==== Sys2Proof/Proofs/AbortedGeneration.lean ====
section
/-! A generation aborted by a reset edge (70_reset_and_hazards.md R181): what the edge leaves of it, and the generation
that a START at the next edge runs from its first write on. -/

namespace Sys2Proof.Machine

/-- The state after a reset edge is one that a START begins a generation from, whatever the edge aborted. -/
theorem startsGeneration_after_reset {m : Modulus} {n : Nat} {s : State}
    (hstart : (resetEdge s).shiftInputs.accepts (encode .start))
    (hn : (resetEdge s).shiftInputs.noResetFor (n + 1)) : StartsGeneration m n (resetEdge s).shiftInputs where
  idle := rfl
  reachable := reachableAt_resetEdge m s
  start := hstart
  noReset := hn

/-- Settles O48: the reset edge clears `valid`, by which reads are refused, and returns to IDLE; a START runs a whole
generation over the entries kept. None of it depends on the phase that the edge aborted. -/
theorem resetAbortsAGeneration : Obligations.ResetAbortsAGeneration := by
  unfold Obligations.ResetAbortsAGeneration
  rw [← stepAt_modulus]
  intro s _ hrst
  have hstep := stepAt_reset (m := Config.modulus) hrst
  refine ⟨_, hstep, stepAt_reset_entry hrst hstep, rfl, rfl, exec_read_notReady rfl, fun hstart hn => ?_⟩
  obtain ⟨u, hu, hdone, htables, -⟩ := (startsGeneration_after_reset hstart hn).edges
  obtain ⟨hvalid, -⟩ := generationComplete_iff.1 hdone
  exact ⟨u, hu, hvalid, htables⟩

end Sys2Proof.Machine
end

