-- ==== Sys2Proof/Proofs/EdgeCases.lean ====
section
/-! One edge that answers a state, said once for the statements about single registers (10_state.md section 1): a reset
edge, the edge that accepts START from IDLE, or a step of the sequencer that no command reaches. -/

namespace Sys2Proof.Machine

/-! ## The three kinds of edge -/

/-- What an edge from `s` that answers a state can be (43_table_access.md R150, R151). -/
inductive EdgeCase (m : Modulus) (s : State) : State → Prop
  | reset (hrst : s.portIn.rst = true) : EdgeCase m s (resetEdge s).shiftInputs
  | start (hn : s.portIn.rst = false) (hr : reachableAt m s = true) (hp : s.phase = .idle)
    (hacc : s.accepts (encode .start)) : EdgeCase m s (respond .ok 0x00 (beginGeneration s)).shiftInputs
  | run {mid u : State} (hn : s.portIn.rst = false) (hr : reachableAt m s = true)
    (hstart : s.phase = .idle → ¬ s.accepts (encode .start)) (hagree : s.agreeButResponse mid)
    (hseq : SequencerStep m s mid u) : EdgeCase m s u.shiftInputs

/-- An edge that accepts START from IDLE (41_exp_table_generator.md R101). -/
theorem stepAt_start {m : Modulus} {s : State} (hp : s.phase = .idle) (hr : reachableAt m s = true)
    (hacc : s.accepts (encode .start)) :
    stepAt m s = .next (respond .ok 0x00 (beginGeneration s)).shiftInputs := by
  have ⟨hn, _⟩ := hacc
  exact stepAt_run hn hr ((commandPart_of_accepts hacc).trans (exec_start_idle hp)) (.rest hp)

/-- A command part that begins no generation leaves the sequencer's registers and the tables alone. -/
theorem commandPart_agrees {m : Modulus} {s : State} (hn : s.portIn.rst = false)
    (hstart : s.phase = .idle → ¬ s.accepts (encode .start)) :
    ∃ mid, commandPart (execAt m) s = .next mid ∧ s.agreeButResponse mid := by
  by_cases hp : s.phase = .idle
  · exact commandPart_of_not_start hn (hstart hp)
  · obtain ⟨mid, hmid, hagree | ⟨hidle, -⟩⟩ := commandPart_answers m s
    · exact ⟨mid, hmid, hagree⟩
    · exact absurd hidle hp

/-- Everything an edge that answers a state can be. -/
theorem edgeCase_of_stepAt {m : Modulus} {s t : State} (h : stepAt m s = .next t) : EdgeCase m s t := by
  rcases hn : s.portIn.rst with _ | _
  · have hr := reachableAt_of_stepAt hn h
    by_cases hstart : s.phase = .idle ∧ s.accepts (encode .start)
    · obtain ⟨hp, hacc⟩ := hstart
      obtain rfl := Host.Outcome.next.inj ((stepAt_start hp hr hacc).symm.trans h)
      exact .start hn hr hp hacc
    · have hno : s.phase = .idle → ¬ s.accepts (encode .start) := fun hp hacc => hstart ⟨hp, hacc⟩
      obtain ⟨mid, hmid, hagree⟩ := commandPart_agrees (m := m) hn hno
      obtain ⟨u, hu⟩ := exists_sequencerStep mid hr
      obtain rfl := Host.Outcome.next.inj ((stepAt_run hn hr hmid hu).symm.trans h)
      exact .run hn hr hno hagree hu
  · obtain rfl := Host.Outcome.next.inj ((stepAt_reset hn).symm.trans h)
    exact .reset hn

/-- An edge without reset accepts START where its word is on the port. -/
theorem accepts_of_portIn {s : State} {w : CmdWord} (hn : s.portIn.rst = false)
    (h : s.portIn.cmdValid = true ∧ s.portIn.cmd = w) : s.accepts w := ⟨hn, h⟩

/-! ## The position (10_state.md section 4) -/

theorem position_idle {s : State} (hp : s.phase = .idle) : s.position = 0 := by
  rw [State.position, hp]

/-- The sequencer sets `idx` to 0 or moves it on by one, and does not wrap (R86). -/
theorem SequencerStep.idx {m : Modulus} {pre post t : State} (h : SequencerStep m pre post t)
    (hidle : pre.phase = .idle → post.idx = 0) : t.idx = 0 ∨ t.idx.toNat = pre.idx.toNat + 1 := by
  cases h with
  | rest hp => exact .inl (hidle hp)
  | expInner _ hi | initInner _ hi | invInner _ hi => exact .inr (idx_succ_toNat (by omega))
  | expLast | initLast | invLast => exact .inl rfl

/-- Settles O32: the sequencer's step moves on by one position outside IDLE, and in IDLE only START moves it. -/
theorem sequencerAdvancesOnePosition : Obligations.SequencerAdvancesOnePosition := by
  unfold Obligations.SequencerAdvancesOnePosition
  rw [← stepAt_modulus]
  refine ⟨fun s t hn h hp => ?busy, fun s t hn h hp => ?idle, fun s t h => ?idx⟩
  case busy =>
    cases edgeCase_of_stepAt h with
    | reset hrst => cases hn.symm.trans hrst
    | start _ _ hidle => exact absurd hidle hp
    | @run mid u _ _ _ hagree hseq =>
      rcases hseq.position hp hagree with ⟨hlt, hpos⟩ | ⟨hlast, hdone⟩
      · rw [Nat.mod_eq_of_lt (by omega)]
        exact hpos
      · rw [hlast]
        exact position_idle (generationComplete_iff.1 hdone).2
  case idle =>
    cases edgeCase_of_stepAt h with
    | reset hrst => cases hn.symm.trans hrst
    | start _ _ _ hacc => exact (if_pos hacc.2).symm
    | run _ _ hstart hagree hseq =>
      rw [if_neg fun hport => hstart hp (accepts_of_portIn hn hport)]
      cases hseq with
      | rest => exact position_idle (hagree.1.symm.trans hp)
      | expInner hq | expLast hq | initInner hq | initLast hq | invInner hq | invLast hq => cases hp.symm.trans hq
  case idx =>
    cases edgeCase_of_stepAt h with
    | reset | start => exact .inl rfl
    | run _ hr _ hagree hseq =>
      obtain ⟨-, hidx, -⟩ := hagree
      exact hseq.idx fun hp => hidx.symm.trans ((reachableAt_idle hp).1 hr)

/-! ## `cur` (10_state.md R22) -/

/-- The sequencer advances `cur` in EXP_GEN and holds it in every other phase. -/
theorem SequencerStep.cur_eq {m : Modulus} {pre post t : State} (h : SequencerStep m pre post t) :
    t.cur = if pre.phase = .expGen then mulGenAt m pre.cur else post.cur := by
  cases h with
  | expInner hp | expLast hp => rw [if_pos hp]
  | rest hp => simp [hp]
  | initInner hp | initLast hp | invInner hp | invLast hp => simp [hp]

/-- Settles O35: START and the EXP_GEN step are the only writers of `cur` at an edge without reset. -/
theorem curHoldsOutsideExpGen : Obligations.CurHoldsOutsideExpGen := by
  unfold Obligations.CurHoldsOutsideExpGen
  rw [← stepAt_modulus]
  refine ⟨fun s t hn h hp hno => ?held, fun s t hn h hp => ?advanced, fun s t hn h ⟨hp, hport⟩ => ?started⟩
  case held =>
    cases edgeCase_of_stepAt h with
    | reset hrst => cases hn.symm.trans hrst
    | start _ _ hidle hacc => exact absurd ⟨hidle, hacc.2⟩ hno
    | run _ _ _ hagree hseq =>
      obtain ⟨-, -, hcur, -⟩ := hagree
      exact (hseq.cur_eq.trans (if_neg hp)).trans hcur.symm
  case advanced =>
    cases edgeCase_of_stepAt h with
    | reset hrst => cases hn.symm.trans hrst
    | start _ _ hidle => cases hp.symm.trans hidle
    | run _ _ _ _ hseq => exact hseq.cur_eq.trans (if_pos hp)
  case started =>
    cases edgeCase_of_stepAt h with
    | reset hrst => cases hn.symm.trans hrst
    | start => rfl
    | run _ _ hstart => exact absurd (accepts_of_portIn hn hport) (hstart hp)

/-! ## `valid` (10_state.md R23) -/

/-- The sequencer sets `valid` at the last LOG_INV index and holds it otherwise. -/
theorem SequencerStep.valid_cases {m : Modulus} {pre post t : State} (h : SequencerStep m pre post t) :
    t.valid = post.valid ∨ (pre.phase = .logInv ∧ pre.idx = 254) := by
  cases h with
  | invLast hp hi => exact .inr ⟨hp, hi⟩
  | rest | expInner | expLast | initInner | initLast | invInner => exact .inl rfl

/-- Settles O55: the stages of the generation make the tables of a state with `valid` = 1 complete, and its writers are
the last LOG_INV step, START and the reset edge. -/
theorem validMeansTablesComplete : Obligations.ValidMeansTablesComplete := by
  unfold Obligations.ValidMeansTablesComplete
  rw [← stepAt_modulus]
  refine ⟨fun m s h hv => h.tablesTrack.complete h.reachable hv, fun s t h hv => ?writers,
    fun s t hn h hp hi => ?set, fun s t h hclear => ?cleared⟩
  case writers =>
    cases edgeCase_of_stepAt h with
    | reset | start => cases hv
    | @run mid u hn hr hstart hagree hseq =>
      refine ⟨hn, hseq.valid_cases.imp_left fun heq => ?_⟩
      obtain ⟨-, -, -, hvalid, -⟩ := hagree
      have hvs : s.valid = true := (hvalid.trans heq.symm).trans hv
      exact ⟨hvs, hstart (idle_of_valid hr hvs)⟩
  case set =>
    obtain ⟨t', ht', -, hlast, -⟩ := stepAt_logInv hn (reachableAt_of_stepAt hn h) hp
    obtain rfl := Host.Outcome.next.inj (h.symm.trans ht')
    obtain ⟨-, -, hvalid⟩ := hlast hi
    exact hvalid
  case cleared =>
    cases edgeCase_of_stepAt h with
    | reset | start => rfl
    | run hn _ hstart =>
      rcases hclear with hrst | ⟨hp, hacc⟩
      · cases hn.symm.trans hrst
      · exact absurd hacc (hstart hp)

end Sys2Proof.Machine
end

