-- ==== Sys2Proof/Proofs/Invariant.lean ====
section
/-! The machine's invariant (10_state.md sections 1 and 6): a reset edge establishes it and every edge keeps it, clause by
clause; and the registers after any number of reset edges (70_reset_and_hazards.md R180). -/

namespace Sys2Proof.Machine

/-! ## The canonical form of the storage (log 9) -/

/-- A write inside its space keeps the canonical form of both tables. -/
theorem wf_setTable_write {sp sp' : Space} {k : Nat} {v : Byte} {s : State} (hk : k < sp'.size)
    (h : (s.table sp).wf sp.size) : ((s.setTable sp' ((s.table sp').write k v)).table sp).wf sp.size := by
  by_cases hsp : sp = sp'
  · subst hsp
    rw [setTable_table]
    exact memory_write_wf sp.size _ k v h hk
  · rwa [setTable_table_other _ _ _ _ hsp]

/-- The sequencer stores inside the two spaces only (20_memory.md R47). -/
theorem SequencerStep.wf {m : Modulus} {pre post t : State} {sp : Space} (h : SequencerStep m pre post t)
    (hwf : (post.table sp).wf sp.size) : (t.table sp).wf sp.size := by
  have hbyte (b : Byte) : b.toNat < Space.size .log := b.isLt
  cases h with
  | rest => exact hwf
  | expInner _ hi => exact wf_setTable_write (sp' := .exp) (Nat.lt_succ_of_lt hi) hwf
  | expLast => exact wf_setTable_write (sp' := .exp) (by decide) hwf
  | initInner _ hi => exact wf_setTable_write (sp' := .log) (Nat.lt_succ_of_lt hi) hwf
  | initLast => exact wf_setTable_write (sp' := .log) (by decide) hwf
  | invInner => exact wf_setTable_write (sp' := .log) (hbyte _) hwf
  | invLast => exact wf_setTable_write (sp' := .log) (hbyte _) hwf

/-- Every edge keeps the canonical form of each table. -/
theorem stepAt_wf {m : Modulus} {s t : State} {sp : Space} (h : stepAt m s = .next t)
    (hwf : (s.table sp).wf sp.size) : (t.table sp).wf sp.size := by
  cases edgeCase_of_stepAt h with
  | reset | start => simpa using hwf
  | run _ _ _ hagree hseq =>
    obtain ⟨-, -, -, -, hexp, hlog, -⟩ := hagree
    rw [shiftInputs_table]
    exact hseq.wf (table_congr hexp hlog sp ▸ hwf)

/-! ## `cur` (10_state.md R22) -/

/-- Every edge keeps what the invariant says of `cur`. -/
theorem stepAt_curHeld {m : Modulus} {s t : State} (h : stepAt m s = .next t) (hc : s.cur = s.curExpected m) :
    t.cur = t.curExpected m := by
  cases edgeCase_of_stepAt h with
  | reset | start => rfl
  | @run mid u _ _ _ hagree hseq =>
    by_cases hp : s.phase = .idle
    · cases hseq with
      | rest =>
        obtain ⟨hphase, -, hcur, hvalid, -⟩ := hagree
        show mid.cur = mid.curExpected m
        simpa only [State.curExpected, ← hphase, ← hcur, ← hvalid, hp] using hc
      | expInner hq | expLast hq | initInner hq | initLast hq | invInner hq | invLast hq => cases hp.symm.trans hq
    · exact hseq.curHeld hp hagree hc

/-! ## The invariant -/

/-- A reset edge establishes the invariant over any tables in canonical form. -/
theorem machineInvariant_resetEdge (m : Modulus) {s : State} (hexp : Memory.wf 255 s.expMem)
    (hlog : Memory.wf 256 s.logMem) : MachineInvariant m (resetEdge s).shiftInputs where
  reachable := reachableAt_resetEdge m s
  curHeld := rfl
  expWritten _ hk := absurd hk (Nat.not_lt_zero _)
  logWritten _ _ hv := by cases hv
  errorHasNoData _ := rfl
  silentIsZero _ := ⟨rfl, rfl⟩
  expCanonical := hexp
  logCanonical := hlog

/-- Every edge keeps the invariant. -/
theorem MachineInvariant.stepAt {m : Modulus} {s t : State} (h : MachineInvariant m s)
    (ht : stepAt m s = .next t) : MachineInvariant m t :=
  have htables := stepAt_tablesTrack h.reachable h.tablesTrack ht
  { reachable := stepAt_reachableAt h.reachable ht
    curHeld := stepAt_curHeld ht h.curHeld
    expWritten := htables.expWritten
    logWritten := htables.logWritten
    errorHasNoData := stepAt_rspData_of_error ht
    silentIsZero := fun hv => let hsilent := stepAt_silent ht hv; ⟨hsilent.rspStatus, hsilent.rspData⟩
    expCanonical := stepAt_wf (sp := .exp) ht h.expCanonical
    logCanonical := stepAt_wf (sp := .log) ht h.logCanonical }

/-- Settles O52: each clause of the invariant is kept by every edge. -/
theorem everyStepKeepsTheMachineInvariant : Obligations.EveryStepKeepsTheMachineInvariant := by
  unfold Obligations.EveryStepKeepsTheMachineInvariant
  rw [← stepAt_modulus]
  exact ⟨fun s t h => h.stepAt, fun m s t h => h.stepAt⟩

/-- Settles O54: a reset edge is taken from every state, and leaves canonical tables as they are. -/
theorem resetEdgeEstablishesTheMachineInvariant : Obligations.ResetEdgeEstablishesTheMachineInvariant := by
  unfold Obligations.ResetEdgeEstablishesTheMachineInvariant
  exact fun m s hexp hlog hrst => ⟨_, stepAt_reset hrst, machineInvariant_resetEdge m hexp hlog⟩

/-- `State.reset` is what a reset edge makes of itself. -/
theorem resetEdge_reset : (resetEdge State.reset).shiftInputs = State.reset := rfl

/-- Settles O53: `State.reset` is the state after a reset edge over empty tables. -/
theorem resetStateHasTheMachineInvariant : Obligations.ResetStateHasTheMachineInvariant := by
  unfold Obligations.ResetStateHasTheMachineInvariant
  rw [← resetEdge_reset]
  exact machineInvariant_resetEdge _ (memory_nil_wf 255) (memory_nil_wf 256)

/-! ## Any number of reset edges (70_reset_and_hazards.md R180) -/

/-- The inputs of a run of reset edges: the next edge, and those after it. -/
theorem resets_succ {s : State} {n : Nat} (hlen : n + 1 ≤ s.inputs.length)
    (h : ∀ d ∈ s.inputs.take (n + 1), d.rst = true) :
    s.portIn.rst = true ∧ n ≤ s.inputs.tail.length ∧ ∀ d ∈ s.inputs.tail.take n, d.rst = true := by
  cases hin : s.inputs with
  | nil => simp [hin] at hlen
  | cons d ds =>
    rw [hin, List.take_succ_cons, List.forall_mem_cons] at h
    rw [hin] at hlen
    obtain ⟨hrst, hrest⟩ := h
    rw [portIn_of_cons hin]
    exact ⟨hrst, Nat.le_of_succ_le_succ hlen, hrest⟩

/-- A run of reset edges leaves what the first of them leaves, and takes its inputs off the list. -/
theorem edges_resets {m : Modulus} {n : Nat} {s : State} (hlen : n + 1 ≤ s.inputs.length)
    (h : ∀ d ∈ s.inputs.take (n + 1), d.rst = true) :
    edges (stepAt m) (n + 1) s = .next { resetEdge s with inputs := s.inputs.drop (n + 1) } := by
  induction n generalizing s with
  | zero =>
    obtain ⟨hrst, -⟩ := resets_succ hlen h
    rw [edges_succ, stepAt_reset hrst, andThen_next, edges_zero, State.shiftInputs, resetEdge_inputs, List.drop_one]
  | succ n ih =>
    obtain ⟨hrst, hlen', hrest⟩ := resets_succ hlen h
    rw [edges_succ, stepAt_reset hrst, andThen_next, ih hlen' hrest]
    simp only [shiftInputs_inputs, resetEdge_inputs, List.drop_tail]
    rfl

/-- Settles O47: the state after a run of reset edges is written out by `resetEdge`, which reads neither the command port
nor a register. -/
theorem resetEdgeSetsTheResetState : Obligations.ResetEdgeSetsTheResetState := by
  unfold Obligations.ResetEdgeSetsTheResetState
  rw [← stepAt_modulus]
  refine ⟨fun s n hn hlen hrst => ?registers, fun s v v' w w' => ?port, fun s d hexp hlog hin hrst => ?unwritten⟩
  case registers =>
    obtain ⟨k, rfl⟩ : ∃ k, n = k + 1 := ⟨n - 1, by omega⟩
    exact ⟨_, edges_resets hlen hrst, rfl, rfl, rfl, rfl, rfl, rfl, rfl, rfl, rfl,
      fun sp k => entry_eq_of_tables rfl rfl sp k, rfl, rfl, rfl⟩
  case port => rw [stepAt_reset (by rfl), stepAt_reset (by rfl)]; rfl
  case unwritten =>
    rw [stepAt_reset (portIn_of_cons hin ▸ hrst), resetEdge, State.shiftInputs, State.reset]
    simp only [hexp, hlog, hin, List.tail_cons]

end Sys2Proof.Machine
end

