-- ==== Sys2Proof/Proofs/CommandEdge.lean ====
section
/-! The command's part of an edge (43_table_access.md R150): what `exec` makes of a state, which edge runs it, and that
it reaches the sequencer by a START from IDLE only (R151). -/

namespace Sys2Proof.Machine

/-! ## Every command answers (60_exceptions.md R169) -/

/-- Settles O9: a command responds, or begins a generation and responds. -/
theorem everyCommandAnswers : Obligations.EveryCommandAnswers := by
  unfold Obligations.EveryCommandAnswers
  rw [← execAt_modulus]
  intro i s
  rcases execAt_cases Config.modulus i s with ⟨st, d, h⟩ | ⟨-, -, h⟩
  · exact ⟨_, h, rfl⟩
  · exact ⟨_, h, rfl⟩

/-- Settles O17: what a response writes, and what a START from IDLE writes beside it. -/
theorem commandsChangeOnlyWhatTheirRuleNames : Obligations.CommandsChangeOnlyWhatTheirRuleNames := by
  unfold Obligations.CommandsChangeOnlyWhatTheirRuleNames
  rw [← execAt_modulus]
  intro i s t h
  refine ⟨execAt_entry h, ?_⟩
  rcases execAt_cases Config.modulus i s with ⟨st, d, hresponds⟩ | ⟨hi, hp, hstarts⟩
  · obtain rfl := Host.Outcome.next.inj (hresponds.symm.trans h)
    refine ⟨rfl, rfl, rfl, fun _ => ⟨rfl, rfl, rfl, rfl⟩, ?_⟩
    rintro rfl hp
    have hstarted := Host.Outcome.next.inj (h.symm.trans (exec_start_idle hp))
    rw [hstarted]
    exact ⟨rfl, rfl, rfl, rfl⟩
  · obtain rfl := Host.Outcome.next.inj (hstarts.symm.trans h)
    exact ⟨rfl, rfl, rfl, fun hno => absurd ⟨hi, hp⟩ hno, fun _ _ => ⟨rfl, rfl, rfl, rfl⟩⟩

/-! ## What a response depends on (10_state.md section 6) -/

/-- Two states that agree on what a command may read: `phase`, `valid` and the two tables. -/
structure SameReadable (s s' : State) : Prop where
  phase : s.phase = s'.phase
  valid : s.valid = s'.valid
  expMem : s.expMem = s'.expMem
  logMem : s.logMem = s'.logMem

theorem SameReadable.entry {s s' : State} (h : SameReadable s s') (sp : Space) (k : Nat) :
    entry sp k s = entry sp k s' := entry_eq_of_tables h.expMem h.logMem sp k

theorem SameReadable.statusByte {s s' : State} (h : SameReadable s s') : statusByte s = statusByte s' := by
  rw [statusByte_of h.phase h.valid, statusByte_of rfl rfl]

theorem sameResponse_respond (st : Status) (d : Byte) (s s' : State) :
    SameResponse (respond st d s) (respond st d s') := ⟨rfl, rfl, rfl⟩

/-- A command gives the same response in both of two such states. -/
theorem SameReadable.exec {s s' : State} (h : SameReadable s s') (i : Instr) :
    ∃ t t', exec i s = .next t ∧ exec i s' = .next t' ∧ SameResponse t t' := by
  cases i with
  | nop | mulg _ => exact ⟨_, _, rfl, rfl, sameResponse_respond _ _ _ _⟩
  | start =>
    by_cases hp : s.phase = .idle
    · exact ⟨_, _, exec_start_idle hp, exec_start_idle (h.phase ▸ hp), sameResponse_respond _ _ _ _⟩
    · exact ⟨_, _, exec_start_busy hp, exec_start_busy (h.phase ▸ hp), sameResponse_respond _ _ _ _⟩
  | rdexp o =>
    rcases hv : s.valid with _ | _
    · exact ⟨_, _, exec_rdexp_notReady o hv, exec_rdexp_notReady o (h.valid ▸ hv), sameResponse_respond _ _ _ _⟩
    by_cases ho : o = 0xFF
    · subst ho
      exact ⟨_, _, exec_rdexp_badIndex hv, exec_rdexp_badIndex (h.valid ▸ hv), sameResponse_respond _ _ _ _⟩
    · exact ⟨_, _, exec_rdexp_entry hv ho, exec_rdexp_entry (h.valid ▸ hv) ho,
        h.entry .exp o.toNat ▸ sameResponse_respond _ _ _ _⟩
  | rdlog b =>
    rcases hv : s.valid with _ | _
    · exact ⟨_, _, exec_rdlog_notReady b hv, exec_rdlog_notReady b (h.valid ▸ hv), sameResponse_respond _ _ _ _⟩
    · exact ⟨_, _, exec_rdlog_entry b hv, exec_rdlog_entry b (h.valid ▸ hv),
        h.entry .log b.toNat ▸ sameResponse_respond _ _ _ _⟩
  | status => exact ⟨_, _, rfl, rfl, h.statusByte ▸ sameResponse_respond _ _ _ _⟩

/-- Settles O18: `cur` and `idx` are none of the registers a command may read. -/
theorem hiddenRegistersReachNoResponse : Obligations.HiddenRegistersReachNoResponse := by
  unfold Obligations.HiddenRegistersReachNoResponse
  intro i s t t' c x h h'
  have hread : SameReadable s { s with cur := c, idx := x } := ⟨rfl, rfl, rfl, rfl⟩
  obtain ⟨u, u', hu, hu', hsame⟩ := hread.exec i
  obtain rfl := Host.Outcome.next.inj (hu.symm.trans h)
  obtain rfl := Host.Outcome.next.inj (hu'.symm.trans h')
  exact ⟨hsame.rspValid, hsame.rspStatus, hsame.rspData⟩

/-! ## The edge that runs a command -/

/-- Settles O6: an edge inside R33 is its two parts, and the command part of a word that decodes is its command. -/
theorem stepRunsTheDecodedCommand : Obligations.StepRunsTheDecodedCommand := by
  unfold Obligations.StepRunsTheDecodedCommand
  intro s i hn hr hv hd
  rw [step, clockEdge_run hn hr, commandPart_command hv hd]

/-- In IDLE the edge that accepts the word of a command is that command: the sequencer is at rest. -/
theorem stepAt_idle_command {m : Modulus} {s t : State} {i : Instr} (hp : s.phase = .idle)
    (hr : reachableAt m s = true) (hacc : s.accepts (encode i)) (h : execAt m i s = .next t) :
    stepAt m s = .next t.shiftInputs := by
  have ⟨hn, _⟩ := hacc
  exact stepAt_run hn hr ((commandPart_of_accepts hacc).trans h) (.rest hp)

/-- `withFetchWord` puts the encoder's word on the port, all 16 bits of it (log 3). -/
theorem withFetchWord_encode (s : State) (i : Instr) :
    s.withFetchWord 16 (encode i).toNat = presentNext (encode i) s := by
  rw [State.withFetchWord, Nat.mod_eq_of_lt (encode i).isLt, BitVec.ofNat_toNat, BitVec.setWidth_eq]

/-- Settles O7: the presented word is accepted, its command answers, and in IDLE that is the whole edge. -/
theorem presentedWordIsRunNext : Obligations.PresentedWordIsRunNext := by
  unfold Obligations.PresentedWordIsRunNext
  intro s i hp hr
  rw [withFetchWord_encode, ← stepAt_modulus]
  obtain ⟨t, ht, -⟩ := everyCommandAnswers i (presentNext (encode i) s)
  obtain ⟨-, -, -, hin, -⟩ := commandsChangeOnlyWhatTheirRuleNames i _ t ht
  refine ⟨t, ht, stepAt_idle_command hp hr ⟨rfl, rfl, rfl⟩ (execAt_modulus ▸ ht), ?_⟩
  rw [shiftInputs_inputs, hin, presentNext_inputs, List.tail_cons]

/-- An edge answers a state, or is refused: without reset, and outside R33. -/
theorem stepAt_next_or_refused (m : Modulus) (s : State) : (∃ t, stepAt m s = .next t) ∨
    (s.portIn.rst = false ∧ reachableAt m s = false ∧ stepAt m s = .refused .outsideInvariant) := by
  rcases hn : s.portIn.rst with _ | _
  · rcases hr : reachableAt m s with _ | _
    · exact .inr ⟨rfl, rfl, clockEdge_outside hn hr⟩
    · exact .inl (stepAt_progress hr)
  · exact .inl ⟨_, stepAt_reset hn⟩

/-- Settles O8: no edge stops but by the one refusal, and an edge inside R33 or with reset answers a state. -/
theorem stepStopsOnlyOutsideTheInvariant : Obligations.StepStopsOnlyOutsideTheInvariant := by
  unfold Obligations.StepStopsOnlyOutsideTheInvariant
  simp only [← reachable_iff_shape, ← stepAt_modulus, reachable, Bool.not_eq_true]
  refine ⟨fun s f h => ?fault, fun s r => ⟨fun h => ?refused, fun ⟨hreason, hn, hr⟩ => ?outside⟩⟩
  case fault =>
    rcases stepAt_next_or_refused Config.modulus s with ⟨t, ht⟩ | ⟨-, -, hrefused⟩
    · cases h.symm.trans ht
    · cases h.symm.trans hrefused
  case refused =>
    rcases stepAt_next_or_refused Config.modulus s with ⟨t, ht⟩ | ⟨hn, hr, hrefused⟩
    · cases h.symm.trans ht
    · exact ⟨Host.Outcome.refused.inj (h.symm.trans hrefused), hn, hr⟩
  case outside => exact hreason ▸ clockEdge_outside hn hr

/-! ## START (41_exp_table_generator.md R101) -/

/-- Settles O12: the two cases of START, its one word, its edge from IDLE, and the completing edge of LOG_INV, at which
it is an error and the generation ends. -/
theorem startBeginsGeneration : Obligations.StartBeginsGeneration := by
  unfold Obligations.StartBeginsGeneration
  rw [← stepAt_modulus]
  refine ⟨fun s hp => exec_start_idle hp, fun s hp => ?busy, fun w => decode_eq_command_iff.trans eq_comm,
    fun w => illegalWord_of_bareOpcode decode_start, fun s hp hr hacc => ?accepted, fun s hp hi hr hacc => ?completing⟩
  case busy => rw [exec_start_busy hp, raise_eq_responding]
  case accepted =>
    exact ⟨_, stepAt_start hp hr hacc, rfl, rfl, rfl, rfl, rfl, rfl, rfl, rfl,
      fun sp k => entry_eq_of_tables rfl rfl sp k⟩
  case completing =>
    have ⟨hn, _⟩ := hacc
    have hcause : firstCause s (decode 0x1000) = .notReady := if_neg (by simp [hp])
    obtain ⟨t, -, ht, -, -, -, hstatus, hdata⟩ := stepAt_of_error hr hacc hcause (by decide)
    obtain ⟨t', ht', -, hlast, -⟩ := stepAt_logInv hn hr hp
    obtain rfl := Host.Outcome.next.inj (ht.symm.trans ht')
    obtain ⟨hidle, -, hvalid⟩ := hlast hi
    exact ⟨t, ht, hidle, hvalid, hstatus, hdata⟩

/-! ## Two commands at the same edge (R151) -/

/-- The command parts of two edges change none of the registers the states share. -/
theorem SameSequencer.of_agree {s s' mid mid' : State} (h : SameSequencer s s') (hs : s.agreeButResponse mid)
    (hs' : s'.agreeButResponse mid') : SameSequencer mid mid' := by
  obtain ⟨hphase, hidx, hcur, hvalid, hexp, hlog, hin⟩ := hs
  obtain ⟨hphase', hidx', hcur', hvalid', hexp', hlog', hin'⟩ := hs'
  exact ⟨hphase ▸ hphase' ▸ h.phase, hidx ▸ hidx' ▸ h.idx, hcur ▸ hcur' ▸ h.cur, hvalid ▸ hvalid' ▸ h.valid,
    hexp ▸ hexp' ▸ h.expMem, hlog ▸ hlog' ▸ h.logMem, hin ▸ hin' ▸ h.laterInputs⟩

/-- Two edges from the same registers, neither of which begins a generation, differ in the response only. -/
theorem stepAt_agrees {m : Modulus} {s s' : State} (hsame : SameSequencer s s') (hr : reachableAt m s = true)
    (hn : s.portIn.rst = false) (hn' : s'.portIn.rst = false)
    (hstart : s.phase = .idle → ¬ s.accepts (encode .start) ∧ ¬ s'.accepts (encode .start)) :
    ∃ t t', stepAt m s = .next t ∧ stepAt m s' = .next t' ∧ t.agreeButResponse t' := by
  obtain ⟨mid, hmid, hagree⟩ := commandPart_agrees (m := m) hn fun hp => (hstart hp).1
  obtain ⟨mid', hmid', hagree'⟩ := commandPart_agrees (m := m) hn' fun hp' =>
    (hstart (hsame.phase.trans hp')).2
  have hmids : SameSequencer mid mid' := hsame.of_agree hagree hagree'
  obtain ⟨u, hu⟩ := exists_sequencerStep mid hr
  obtain ⟨u', hu', husame⟩ := hu.sameSequencer hsame hmids
  exact ⟨_, _, stepAt_run hn hr hmid hu, stepAt_run hn' (hsame.reachableAt_eq m ▸ hr) hmid' hu',
    husame.agree_shiftInputs⟩

/-- Settles O33: what the host drives at the coming edge is no register of the sequencer. -/
theorem commandsNeverDelayTheSequencer : Obligations.CommandsNeverDelayTheSequencer := by
  unfold Obligations.CommandsNeverDelayTheSequencer
  rw [← stepAt_modulus]
  intro s d d' hr hn hn' hstart
  have hsame : SameSequencer (s.drive d) (s.drive d') := ⟨rfl, rfl, rfl, rfl, rfl, rfl, rfl⟩
  refine stepAt_agrees hsame hr hn hn' fun hp => ?_
  obtain ⟨hd, hd'⟩ := hstart hp
  exact ⟨fun ⟨_, hacc⟩ => hd hacc, fun ⟨_, hacc⟩ => hd' hacc⟩

end Sys2Proof.Machine
end

