-- ==== Sys2Proof/Proofs/ReferenceProduct.lean ====
section
/-! The reference product (40_poly_mult_reducer.md R84) and the product through the tables (R85). `gf_mul_ref` is linear in
each operand, so a law of it need only be checked on the eight powers of x; the tables turn a product into a sum of
exponents. -/

namespace Sys2Proof.Machine

open Function

/-! ## Linear maps of bytes -/

/-- The bit `k` of a byte, in its place. -/
def bitTerm (a : Byte) (k : Nat) : Byte := if a.getLsbD k then 1#8 <<< k else 0

/-- A byte is the XOR of its bits. -/
theorem foldl_bitTerm (a : Byte) : (List.range 8).foldl (fun p k => p ^^^ bitTerm a k) 0 = a := by
  revert a; decide

/-- A loop of linear rounds is linear. -/
theorem foldl_xor {n : Nat} {α : Type} {f g h : BitVec n → α → BitVec n}
    (hround : ∀ p q k, f (p ^^^ q) k = g p k ^^^ h q k) (l : List α) (p q : BitVec n) :
    l.foldl f (p ^^^ q) = l.foldl g p ^^^ l.foldl h q :=
  List.foldl_hom₂ l (· ^^^ ·) g h f p q fun p q k => (hround p q k).symm

/-- A map of bytes that passes through XOR. -/
def Linear (f : Byte → Byte) : Prop := ∀ a b, f (a ^^^ b) = f a ^^^ f b

theorem Linear.zero {f : Byte → Byte} (hf : Linear f) : f 0 = 0 := by
  have h := hf 0 0
  rwa [BitVec.xor_self, BitVec.xor_self] at h

theorem Linear.comp {f g : Byte → Byte} (hf : Linear f) (hg : Linear g) : Linear (f ∘ g) := fun a b => by
  rw [comp_apply, hg, hf, comp_apply, comp_apply]

/-- A linear map of a byte is the XOR of its values at the bits. -/
theorem Linear.eq_foldl {f : Byte → Byte} (hf : Linear f) (a : Byte) :
    f a = (List.range 8).foldl (fun p k => p ^^^ f (bitTerm a k)) 0 :=
  calc f a
      = f ((List.range 8).foldl (fun p k => p ^^^ bitTerm a k) 0) := by rw [foldl_bitTerm]
    _ = (List.range 8).foldl (fun p k => p ^^^ f (bitTerm a k)) (f 0) :=
        (List.foldl_hom f fun p k => (hf p (bitTerm a k)).symm).symm
    _ = (List.range 8).foldl (fun p k => p ^^^ f (bitTerm a k)) 0 := by rw [hf.zero]

/-- Linear maps that agree on the powers of x agree. -/
theorem Linear.ext {f g : Byte → Byte} (hf : Linear f) (hg : Linear g)
    (h : ∀ k < 8, f (1#8 <<< k) = g (1#8 <<< k)) (a : Byte) : f a = g a := by
  rw [hf.eq_foldl, hg.eq_foldl]
  refine List.foldl_ext _ _ _ fun p k hk => congrArg (p ^^^ ·) ?_
  unfold bitTerm
  split
  · exact h k (List.mem_range.1 hk)
  · exact hf.zero.trans hg.zero.symm

/-- Products that are linear in each operand and agree on the powers of x agree. -/
theorem linear_ext₂ {f g : Byte → Byte → Byte} (hf : ∀ b, Linear (f · b)) (hf' : ∀ a, Linear (f a))
    (hg : ∀ b, Linear (g · b)) (hg' : ∀ a, Linear (g a))
    (h : ∀ j < 8, ∀ k < 8, f (1#8 <<< j) (1#8 <<< k) = g (1#8 <<< j) (1#8 <<< k)) (a b : Byte) : f a b = g a b :=
  (hf b).ext (hg b) (fun j hj => (hf' _).ext (hg' _) (h j hj) b) a

/-! ## The reference product is linear in each operand -/

theorem carrylessProduct_xor_left (a a' b : Byte) :
    carrylessProduct (a ^^^ a') b = carrylessProduct a b ^^^ carrylessProduct a' b := by
  refine foldl_xor (fun p q k => ?_) (List.range 8) 0 0
  split
  · rw [BitVec.setWidth_xor, BitVec.shiftLeft_xor_distrib]
    ac_rfl
  · rfl

/-- XORs of one value under two conditions cancel where both hold. -/
theorem xor_ite_xor {n : Nat} (p q x : BitVec n) (b c : Bool) :
    (if (b ^^ c) = true then (p ^^^ q) ^^^ x else p ^^^ q) =
      (if b = true then p ^^^ x else p) ^^^ (if c = true then q ^^^ x else q) := by
  cases b <;> cases c
  · rfl
  · exact BitVec.xor_assoc p q x
  · show (p ^^^ q) ^^^ x = (p ^^^ x) ^^^ q
    ac_rfl
  · have hcancel : (p ^^^ x) ^^^ (q ^^^ x) = (p ^^^ q) ^^^ (x ^^^ x) := by ac_rfl
    simpa using hcancel.symm

theorem carrylessProduct_xor_right (a b b' : Byte) :
    carrylessProduct a (b ^^^ b') = carrylessProduct a b ^^^ carrylessProduct a b' := by
  refine foldl_xor (fun p q k => ?_) (List.range 8) 0 0
  rw [BitVec.getLsbD_xor]
  exact xor_ite_xor p q _ _ _

theorem reduceProduct_xor (m : Modulus) (p q : BitVec 15) :
    reduceProduct m (p ^^^ q) = reduceProduct m p ^^^ reduceProduct m q := by
  refine foldl_xor (fun p q k => ?_) _ p q
  rw [BitVec.getLsbD_xor]
  exact xor_ite_xor p q _ _ _

theorem gfMulRef_linear_left (b : Byte) : Linear (gfMulRef · b) := fun a a' => by
  simp only [gfMulRef, gfMulRefAt, carrylessProduct_xor_left, reduceProduct_xor, BitVec.setWidth_xor]

theorem gfMulRef_linear_right (a : Byte) : Linear (gfMulRef a) := fun b b' => by
  simp only [gfMulRef, gfMulRefAt, carrylessProduct_xor_right, reduceProduct_xor, BitVec.setWidth_xor]

theorem mulGen_linear : Linear mulGen := mulGenAt_xor Config.modulus

/-! ## The laws of the reference product (40_poly_mult_reducer.md section 3) -/

theorem gfMulRef_two (a : Byte) : gfMulRef a 2 = mulGen a :=
  (gfMulRef_linear_left 2).ext mulGen_linear (by decide) a

theorem gfMulRef_one (a : Byte) : gfMulRef a 1 = a :=
  (gfMulRef_linear_left 1).ext (g := id) (fun _ _ => rfl) (by decide) a

theorem gfMulRef_comm (a b : Byte) : gfMulRef a b = gfMulRef b a :=
  linear_ext₂ (g := fun a b => gfMulRef b a) gfMulRef_linear_left gfMulRef_linear_right gfMulRef_linear_right
    gfMulRef_linear_left (by decide) a b

theorem gfMulRef_zero (a : Byte) : gfMulRef a 0 = 0 := (gfMulRef_linear_right a).zero

/-- The reducer passes through a product: it is the product by x. -/
theorem gfMulRef_mulGen (a b : Byte) : gfMulRef (mulGen a) b = mulGen (gfMulRef a b) :=
  linear_ext₂ (f := fun a b => gfMulRef (mulGen a) b) (g := fun a b => mulGen (gfMulRef a b))
    (fun b => (gfMulRef_linear_left b).comp mulGen_linear) (fun a => gfMulRef_linear_right (mulGen a))
    (fun b => mulGen_linear.comp (gfMulRef_linear_left b)) (fun a => mulGen_linear.comp (gfMulRef_linear_right a))
    (by decide) a b

/-- Settles O27: the product is linear in each operand, which leaves its values at the powers of x. -/
theorem referenceProductLaws : Obligations.ReferenceProductLaws := by
  unfold Obligations.ReferenceProductLaws
  exact ⟨gfMulRef_two, gfMulRef_zero, gfMulRef_one, gfMulRef_comm, gfMulRef_mulGen,
    fun a b c => gfMulRef_linear_left c a b⟩

/-! ## The product through the tables (R85) -/

theorem gfMulRef_genPow (i : Nat) (b : Byte) : gfMulRef (genPow i) b = mulGen^[i] b := by
  induction i with
  | zero => exact (gfMulRef_comm 1 b).trans (gfMulRef_one b)
  | succ i ih => rw [iterate_succ_apply', ← ih, ← gfMulRef_mulGen]; rfl

/-- The product of two powers is the power of the sum. -/
theorem gfMulRef_genPow_genPow (i j : Nat) : gfMulRef (genPow i) (genPow j) = genPow (i + j) := by
  rw [gfMulRef_genPow, genPow_eq_iterate, genPow_eq_iterate, iterate_add_apply]

theorem genPow_mod (n : Nat) : genPow (n % 255) = genPow n := by
  rw [genPow_eq_iterate, genPow_eq_iterate, ← minimalPeriod_mulGen, iterate_mod_minimalPeriod_eq]

/-- In complete tables LOG gives the exponent of a nonzero byte, which is a power. -/
theorem exists_log_of_complete {s : State} (h : s.tablesComplete Config.modulus) {a : Byte} (ha : a ≠ 0) :
    ∃ i, i < 255 ∧ a = genPow i ∧ (entry .log a.toNat s).toNat = i := by
  obtain ⟨hexp, hlog⟩ := exp_log_of_complete h ha
  have hlt := Nat.lt_succ_of_le hlog
  exact ⟨_, hlt, hexp.symm.trans (h.1 _ hlt), rfl⟩

/-- An EXP entry at a reduced index is the power of the index itself. -/
theorem entry_exp_mod {s : State} (h : s.tablesComplete Config.modulus) (n : Nat) :
    entry .exp (n % 255) s = genPow n :=
  (h.1 _ (Nat.mod_lt _ (by decide))).trans (genPow_mod n)

theorem tableMultiply_of_complete {s : State} (h : s.tablesComplete Config.modulus) (a b : Byte) :
    tableMultiply s a b = gfMulRef a b := by
  unfold tableMultiply
  split
  · next hzero =>
    rcases hzero with rfl | rfl
    · rw [gfMulRef_comm, gfMulRef_zero]
    · rw [gfMulRef_zero]
  · next hne =>
    obtain ⟨ha, hb⟩ := not_or.1 hne
    obtain ⟨i, -, hi, hlogi⟩ := exists_log_of_complete h ha
    obtain ⟨j, -, hj, hlogj⟩ := exists_log_of_complete h hb
    rw [hlogi, hlogj, entry_exp_mod h, hi, hj, gfMulRef_genPow_genPow]

theorem exists_tableDivide_of_complete {s : State} (h : s.tablesComplete Config.modulus) (a : Byte) {b : Byte}
    (hb : b ≠ 0) : ∃ q, tableDivide s a b = some q ∧ gfMulRef q b = a := by
  rw [tableDivide, if_neg hb]
  by_cases ha : a = 0
  · exact ⟨0, if_pos ha, by rw [gfMulRef_comm, gfMulRef_zero, ha]⟩
  · obtain ⟨i, -, hi, hlogi⟩ := exists_log_of_complete h ha
    obtain ⟨j, hlt, hj, hlogj⟩ := exists_log_of_complete h hb
    refine ⟨_, if_neg ha, ?_⟩
    have hsum : i + 255 - j + j = i + 255 := Nat.sub_add_cancel (by omega)
    rw [hlogi, hlogj, entry_exp_mod h, hj, gfMulRef_genPow_genPow, hsum, ← genPow_mod, Nat.add_mod_right, genPow_mod,
      ← hi]

/-- Settles O28: the tables turn a product into a sum of exponents, and exponents count modulo the order 255. -/
theorem tableProductIsTheReferenceProduct : Obligations.TableProductIsTheReferenceProduct := by
  unfold Obligations.TableProductIsTheReferenceProduct
  exact fun s h => ⟨tableMultiply_of_complete h, fun a b => exists_tableDivide_of_complete h a, fun a => if_pos rfl⟩

end Sys2Proof.Machine
end

