-- ==== Sys2Proof/Proofs/Assembler.lean ====
section
/-! The encoder against the decoder (30_encoding.md sections 2 and 5): the round trip, the words of the test vectors, and
the source lines the assembler accepts (R70). -/

namespace Sys2Proof.Machine

/-! ## The round trip -/

/-- A 16-bit word numbered as opcode_table.json numbers it is itself. -/
theorem decodeTableWord_toNat (w : CmdWord) : decodeTableWord 16 w.toNat = (decode w).instr? := by
  have hword : tableWord 16 w.toNat = some w := by
    rw [tableWord, if_pos le_rfl, Nat.mod_eq_of_lt w.isLt, BitVec.ofNat_toNat, BitVec.setWidth_eq]
  rw [decodeTableWord, hword, Option.bind_some]

/-- Settles O3: each command is decoded from its own word, and from no other. -/
theorem decodeAndEncodeAgree : Obligations.DecodeAndEncodeAgree := by
  unfold Obligations.DecodeAndEncodeAgree
  refine ⟨decode_encode, fun w i => encode_of_decode, fun i => ?_⟩
  rw [decodeTableWord_toNat, decode_encode, Decoded.instr?]

/-- A command without an operand, with a stray one (30_encoding.md R68). -/
theorem decodeBare_stray (i : Instr) {opnd : Byte} (h : opnd ≠ 0) :
    decodeBare i opnd = .illegalWord .strayOperand := if_neg h

/-- Settles O4: the fourteen words by the decoder's answer for their fields. -/
theorem specWordsDecode : Obligations.SpecWordsDecode := by
  unfold Obligations.SpecWordsDecode
  have hone : (1 : Byte) ≠ 0 := by decide
  exact ⟨decode_encode .nop, decode_encode .start, decode_encode (.rdexp 8), decode_encode (.rdexp 255),
    decode_encode (.rdlog 29), decode_encode (.mulg 0x80), decode_encode .status,
    (decode_nop 1).trans (decodeBare_stray _ hone), (decode_start 1).trans (decodeBare_stray _ hone),
    (decode_status 1).trans (decodeBare_stray _ hone), decode_reservedField 0x0 (rsv := 1) 0x00 (by decide),
    decode_reservedField 0x2 (rsv := 1) 0xFF (by decide), decode_reservedOpcode (op := 0x6) 0x00 (by decide),
    decode_reservedOpcode (op := 0xF) 0xFF (by decide)⟩

/-! ## The lines of the assembler (R70) -/

theorem instrOf_mnemonic (mn : Mnemonic) (o : Byte) : (instrOf mn o).mnemonic = mn := by
  cases mn <;> rfl

theorem instrOf_operand (mn : Mnemonic) (o : Byte) :
    (instrOf mn o).operand = if mn.takesOperand then some o else none := by
  cases mn <;> rfl

/-- A well-formed line has an operand in 0..255 where its mnemonic takes one, and none where it does not. -/
theorem wellFormed_iff (l : SourceLine) : l.wellFormed = true ↔
    (l.mnemonic.takesOperand = true ∧ ∃ n, l.operand = some n ∧ n ≤ 255) ∨
      (l.mnemonic.takesOperand = false ∧ l.operand = none) := by
  unfold SourceLine.wellFormed
  cases l.mnemonic.takesOperand <;> cases l.operand <;> simp

theorem assembleSource_of_wellFormed {l : SourceLine} (h : l.wellFormed = true) :
    assembleSource l = .command (instrOf l.mnemonic (BitVec.ofNat 8 (l.operand.getD 0))) := if_pos h

/-- The command of a well-formed line has the line's operand. -/
theorem operand_of_wellFormed {l : SourceLine} (h : l.wellFormed = true) :
    (instrOf l.mnemonic (BitVec.ofNat 8 (l.operand.getD 0))).operand = l.operand.map (BitVec.ofNat 8) := by
  rw [instrOf_operand]
  rcases (wellFormed_iff l).1 h with ⟨htakes, n, hn, -⟩ | ⟨hbare, hnone⟩
  · rw [if_pos htakes, hn, Option.map_some, Option.getD_some]
  · rw [hbare, hnone]
    rfl

/-- A well-formed line's operand is kept: it fits the byte. -/
theorem map_toNat_of_wellFormed {l : SourceLine} (h : l.wellFormed = true) :
    (l.operand.map (BitVec.ofNat 8)).map BitVec.toNat = l.operand := by
  rcases (wellFormed_iff l).1 h with ⟨-, n, hn, hle⟩ | ⟨-, hnone⟩
  · rw [hn, Option.map_some, Option.map_some, BitVec.toNat_ofNat, Nat.mod_eq_of_lt (by omega)]
  · rw [hnone]
    rfl

/-- The line that spells a command. -/
theorem wellFormed_of_instr (i : Instr) :
    (SourceLine.mk i.mnemonic (i.operand.map BitVec.toNat)).wellFormed = true := by
  have hbyte (o : Byte) : decide (o.toNat ≤ 255) = true := decide_eq_true (Nat.le_of_lt_succ o.isLt)
  cases i with
  | nop | start | status => rfl
  | rdexp o | rdlog o | mulg o => exact hbyte o

theorem instrOf_instr (i : Instr) :
    instrOf i.mnemonic (BitVec.ofNat 8 ((i.operand.map BitVec.toNat).getD 0)) = i := by
  have hbyte (o : Byte) : BitVec.ofNat 8 o.toNat = o := by rw [BitVec.ofNat_toNat, BitVec.setWidth_eq]
  cases i with
  | nop | start | status => rfl
  | rdexp o => exact congrArg Instr.rdexp (hbyte o)
  | rdlog o => exact congrArg Instr.rdlog (hbyte o)
  | mulg o => exact congrArg Instr.mulg (hbyte o)

/-- Settles O5: a well-formed line has its mnemonic's command with its own operand, and only well-formed lines have
one. -/
theorem assemblerKeepsTheOperand : Obligations.AssemblerKeepsTheOperand := by
  unfold Obligations.AssemblerKeepsTheOperand
  refine ⟨fun l h => ⟨_, assembleSource_of_wellFormed h, instrOf_mnemonic _ _, ?operand, ?word⟩,
    fun l h => if_neg (by simp [h]), fun mn n hn => ?tooLarge, fun n => ⟨rfl, rfl, rfl⟩, fun i => ?spelled⟩
  case operand => rw [operand_of_wellFormed h, map_toNat_of_wellFormed h]
  case word =>
    rw [encode, operand_of_wellFormed h]
    cases l.operand <;> rfl
  case tooLarge =>
    have hill : ¬ (SourceLine.mk mn (some n)).wellFormed = true := by
      rw [wellFormed_iff]
      simp [hn]
    exact Bool.eq_false_iff.2 hill
  case spelled => rw [assembleSource_of_wellFormed (wellFormed_of_instr i), instrOf_instr]

end Sys2Proof.Machine
end

