-- ==== Sys2Proof/Proofs/GenerationOutcome.lean ====
section
/-! What a completed generation leaves (42_log_table_inverter.md section 4): the same tables from any two states, the old
tables again after a re-START (70_reset_and_hazards.md R186), LOG[0] under a modulus with bit 0 set and without, and the
tables under 0x11B. -/

namespace Sys2Proof.Machine

open Function

/-! ## The storage after a generation -/

/-- What every edge keeps, any number of edges keeps. -/
theorem edges_keeps {edge : State → Result} {P : State → Prop} (h : ∀ s t, P s → edge s = .next t → P t) {n : Nat}
    {s t : State} (hs : P s) (ht : edges edge n s = .next t) : P t := by
  induction n generalizing s with
  | zero => exact Host.Outcome.next.inj ht ▸ hs
  | succ n ih =>
    obtain ⟨u, hu, ht⟩ := andThen_inv ht
    exact ih (h s u hs hu) ht

/-- A whole generation, with every entry of its tables written by it: a listed entry, and not a free value. -/
theorem StartsGeneration.edges_written {m : Modulus} {s : State} (h : StartsGeneration m 766 s) :
    ∃ t, Machine.edges (Machine.stepAt m) 767 s = .next t ∧ t.valid = true ∧ t.expMem.powersBelow m 255 ∧
      t.logMem.invertedBelow m 255 := by
  obtain ⟨u, hu, hp, hi, hr, -⟩ := h.stepAt
  obtain ⟨t, ht, hdone, -⟩ := h.edges
  obtain ⟨hvalid, hidle⟩ := generationComplete_iff.1 hdone
  obtain ⟨hkept, -⟩ := generationKept_entry hp hi hr
  have ht' : Machine.edges (Machine.stepAt m) 766 u = .next t := by
    rwa [edges_succ, hu, andThen_next] at ht
  obtain ⟨-, htables⟩ := edges_keeps (P := fun s => reachableAt m s = true ∧ TablesTrack m s)
    (fun s t ⟨hr, htables⟩ hst => ⟨stepAt_reachableAt hr hst, stepAt_tablesTrack hr htables hst⟩)
    ⟨hkept.reachable, hkept.tables⟩ ht'
  exact ⟨t, ht, hvalid, (tablesTrack_valid hidle hvalid).1 htables⟩

/-- Any number of edges keeps the canonical form of each table. -/
theorem edges_wf {m : Modulus} {n : Nat} {s t : State} (sp : Space) (h : edges (stepAt m) n s = .next t)
    (hwf : (s.table sp).wf sp.size) : (t.table sp).wf sp.size :=
  edges_keeps (P := fun s => (s.table sp).wf sp.size) (fun _ _ hs hst => stepAt_wf hst hs) hwf h

/-- Storages in canonical form that list the same byte at every index of the space are equal lists (log 9). -/
theorem memory_eq_of_filled {size : Nat} {mem mem' : Memory} (hwf : mem.wf size) (hwf' : mem'.wf size)
    (h : ∀ k, k < size → mem.read k = mem'.read k) : mem = mem' :=
  memory_ext size mem mem' hwf hwf' fun k => by
    by_cases hk : k < size
    · exact h k hk
    · rw [memory_read_of_ge size mem k hwf (by omega), memory_read_of_ge size mem' k hwf' (by omega)]

theorem expMem_eq_of_powers {m : Modulus} {mem mem' : Memory} (h : mem.powersBelow m 255)
    (h' : mem'.powersBelow m 255) (hwf : mem.wf 255) (hwf' : mem'.wf 255) : mem = mem' :=
  memory_eq_of_filled hwf hwf' fun k hk => (h k hk).trans (h' k hk).symm

theorem logMem_eq_of_inverted {m : Modulus} {mem mem' : Memory} (h : mem.invertedBelow m 255)
    (h' : mem'.invertedBelow m 255) (hwf : mem.wf 256) (hwf' : mem'.wf 256) : mem = mem' :=
  memory_eq_of_filled hwf hwf' fun k hk => by
    have hbyte : (BitVec.ofNat 8 k).toNat = k := Nat.mod_eq_of_lt hk
    rw [← hbyte, h, h']

/-- Tables whose every entry has been written are complete. -/
theorem complete_of_written {m : Modulus} {s : State} (hexp : s.expMem.powersBelow m 255)
    (hlog : s.logMem.invertedBelow m 255) : s.tablesComplete m :=
  ⟨fun _ => entry_exp_of_powersBelow hexp, fun b => entry_of_read (hlog b)⟩

/-- Settles O45: both generations write every entry, each with the same byte. -/
theorem generationIsDeterministic : Obligations.GenerationIsDeterministic := by
  unfold Obligations.GenerationIsDeterministic
  rw [← stepAt_modulus]
  intro s s' hs hs'
  obtain ⟨t, ht, -, hexp, hlog⟩ := hs.edges_written
  obtain ⟨t', ht', -, hexp', hlog'⟩ := hs'.edges_written
  have hsame := sameTables_of_complete (complete_of_written hexp hlog) (complete_of_written hexp' hlog')
  exact ⟨t, t', ht, ht', hsame .exp, hsame .log,
    fun hwf hwf' => expMem_eq_of_powers hexp hexp' (edges_wf .exp ht hwf) (edges_wf .exp ht' hwf'),
    fun hwf hwf' => logMem_eq_of_inverted hlog hlog' (edges_wf .log ht hwf) (edges_wf .log ht' hwf')⟩

/-- Settles O46: while `valid` was 1 every entry was one a generation writes, and the new generation writes them all
again. -/
theorem regenerationIsBitIdentical : Obligations.RegenerationIsBitIdentical := by
  unfold Obligations.RegenerationIsBitIdentical
  rw [← stepAt_modulus]
  intro s hinv hv hs
  refine ⟨fun o => exec_rdlog_entry o hv, fun n hn => ?hidden, ?again⟩
  case hidden =>
    obtain ⟨t, ht, hkept, hpos⟩ := hs.edges_busy hn
    have hvalid := hkept.valid_of_position (by omega)
    exact ⟨t, ht, hvalid, exec_read_notReady hvalid⟩
  case again =>
    obtain ⟨hexp, hlog⟩ := (tablesTrack_valid hs.idle hv).1 hinv.tablesTrack
    obtain ⟨t, ht, hvalid, hexp', hlog'⟩ := hs.edges_written
    exact ⟨t, ht, hvalid,
      expMem_eq_of_powers hexp' hexp (edges_wf .exp ht hinv.expCanonical) hinv.expCanonical,
      logMem_eq_of_inverted hlog' hlog (edges_wf .log ht hinv.logCanonical) hinv.logCanonical⟩

/-! ## LOG[0] (42_log_table_inverter.md R130; log 8) -/

/-- With bit 0 of the modulus set, 0 is no power of the generator. -/
theorem genPowAt_ne_zero {m : Modulus} (hm : m.getLsbD 0 = true) (n : Nat) : genPowAt m n ≠ 0 := by
  induction n with
  | zero => exact (by decide : (1 : Byte) ≠ 0)
  | succ n ih => exact mt (eq_zero_of_mulGenAt hm) ih

theorem logAfterAt_zero {m : Modulus} (hm : m.getLsbD 0 = true) (n : Nat) : logAfterAt m n 0 = Config.sentinel :=
  logAfterAt_of_not_power fun k _ => genPowAt_ne_zero hm k

/-- Under 0x100 the eighth power is 0, and so is every later one. -/
theorem genPowAt_100 (n : Nat) : genPowAt 0x100 (n + 8) = 0 := by
  induction n with
  | zero => decide
  | succ n ih => rw [Nat.add_right_comm, genPowAt, ih, mulGenAt_zero]

/-- A LOG entry after a generation. -/
theorem memRead_log_of_complete {m : Modulus} {s : State} (h : s.tablesComplete m) (b : Byte) :
    memRead .log b.toNat s = some (logAfterAt m 255 b) := by
  rw [memRead_of_lt s b.isLt, h.2]

/-- Settles O43: no power is 0 under a modulus with bit 0 set; under 0x100 the power of index 254 is. -/
theorem logOfZeroIsTheSentinel : Obligations.LogOfZeroIsTheSentinel := by
  unfold Obligations.LogOfZeroIsTheSentinel
  refine ⟨fun m s hm hs => ?odd, fun s hs => ?even⟩
  case odd =>
    obtain ⟨t, ht, hdone, htables, -⟩ := hs.edges
    obtain ⟨hvalid, -⟩ := generationComplete_iff.1 hdone
    have hzero : logAfterAt m 255 0 = 0xFF := logAfterAt_zero hm 255
    refine ⟨t, ht, (memRead_log_of_complete htables 0).trans (congrArg some hzero), ?_⟩
    rw [exec_rdlog_entry 0 hvalid, htables.2, hzero, respond_ok]
  case even =>
    obtain ⟨t, ht, -, htables, -⟩ := hs.edges
    have hlast := logAfterAt_succ_self 0x100 (246 + 8)
    rw [genPowAt_100] at hlast
    exact ⟨t, ht, (memRead_log_of_complete htables 0).trans (congrArg some hlast)⟩

/-! ## The powers under 0x11B (R131) -/

/-- The powers of the generator are the iterates of the reducer on 1, under any modulus. -/
theorem genPowAt_eq_iterate (m : Modulus) (n : Nat) : genPowAt m n = (mulGenAt m)^[n] 1 := by
  induction n with
  | zero => rfl
  | succ n ih => rw [iterate_succ_apply', ← ih, genPowAt]

theorem genPowAt_eq_one_iff (m : Modulus) (n : Nat) : genPowAt m n = 1 ↔ minimalPeriod (mulGenAt m) 1 ∣ n := by
  rw [genPowAt_eq_iterate]
  exact isPeriodicPt_iff_minimalPeriod_dvd

/-- 51 = 3 · 17, and neither the third nor the seventeenth power is 1. -/
theorem genPowAt_rejectedModulus_ne_one :
    ∀ d ∈ Nat.divisors 51, d ≠ 51 → genPowAt Config.rejectedModulus d ≠ 1 := by decide +kernel

/-- Under 0x11B the generator has order 51. -/
theorem minimalPeriod_rejectedModulus : minimalPeriod (mulGenAt Config.rejectedModulus) 1 = 51 := by
  by_contra hne
  have hdvd := (genPowAt_eq_one_iff _ 51).1 genPowAt_rejectedModulus_51
  exact genPowAt_rejectedModulus_ne_one _ (Nat.mem_divisors.2 ⟨hdvd, by decide⟩) hne
    ((genPowAt_eq_one_iff _ _).2 dvd_rfl)

theorem genPowAt_rejectedModulus_mod (n : Nat) :
    genPowAt Config.rejectedModulus (n % 51) = genPowAt Config.rejectedModulus n := by
  rw [genPowAt_eq_iterate, genPowAt_eq_iterate, ← minimalPeriod_rejectedModulus, iterate_mod_minimalPeriod_eq]

theorem genPowAt_rejectedModulus_inj {i j : Nat} (hi : i < 51) (hj : j < 51)
    (h : genPowAt Config.rejectedModulus i = genPowAt Config.rejectedModulus j) : i = j := by
  rw [genPowAt_eq_iterate, genPowAt_eq_iterate] at h
  rw [← minimalPeriod_rejectedModulus] at hi hj
  exact iterate_injOn_Iio_minimalPeriod hi hj h

/-- Equal powers have indices that differ by a multiple of 51. -/
theorem mod_eq_of_genPowAt_rejectedModulus {i j : Nat}
    (h : genPowAt Config.rejectedModulus i = genPowAt Config.rejectedModulus j) : i % 51 = j % 51 := by
  rw [← genPowAt_rejectedModulus_mod i, ← genPowAt_rejectedModulus_mod j] at h
  exact genPowAt_rejectedModulus_inj (Nat.mod_lt _ (by decide)) (Nat.mod_lt _ (by decide)) h

/-- The indices 204 to 254 are the last ones of their powers. -/
theorem logAfterAt_rejectedModulus {j : Nat} (hlow : 204 ≤ j) (hhigh : j ≤ 254) :
    logAfterAt Config.rejectedModulus 255 (genPowAt Config.rejectedModulus j) = BitVec.ofNat 8 j :=
  logAfterAt_of_last (Nat.lt_succ_of_le hhigh) fun k hjk hk h => by
    have hmod := mod_eq_of_genPowAt_rejectedModulus h
    omega

/-- Settles O44: the generator has order 51 under 0x11B, so each power has five indices, of which LOG keeps the last. -/
theorem rejectedModulusHasPeriodFiftyOne : Obligations.RejectedModulusHasPeriodFiftyOne := by
  unfold Obligations.RejectedModulusHasPeriodFiftyOne
  refine ⟨fun n => ?period, fun i j => genPowAt_rejectedModulus_inj, fun s hs => ?tables⟩
  case period => rw [← genPowAt_rejectedModulus_mod, Nat.add_mod_right, genPowAt_rejectedModulus_mod]
  case tables =>
    obtain ⟨t, ht, hdone, ⟨hexp, hlog⟩, -⟩ := hs.edges
    obtain ⟨hvalid, -⟩ := generationComplete_iff.1 hdone
    have hone := logAfterAt_rejectedModulus (j := 51 * 4) (by decide) (by decide)
    rw [← genPowAt_rejectedModulus_mod, Nat.mul_mod_right] at hone
    refine ⟨t, ht, hvalid, fun i hi => (hexp i hi).trans (genPowAt_rejectedModulus_mod i).symm,
      fun j hlow hhigh => (hlog _).trans (logAfterAt_rejectedModulus hlow hhigh), ?one, fun b hb => ?unnamed⟩
    case one => exact (hlog 1).trans hone
    case unnamed =>
      refine (hlog b).trans (logAfterAt_of_not_power fun k _ => ?_)
      rw [← genPowAt_rejectedModulus_mod]
      exact hb _ (Nat.mod_lt k (by decide))

end Sys2Proof.Machine
end

