-- ==== Sys2Proof/Proofs/HostReads.lean ====
section
/-! What a host gets back: table reads of an idle machine (60_exceptions.md section 3), the boot sequence
(70_reset_and_hazards.md R183), and WAITDONE (30_encoding.md R71). -/

namespace Sys2Proof.Machine

/-! ## Reads of an idle machine -/

/-- In IDLE the next edge answers what the command answers to the state. -/
theorem step_drive_idle {s t : State} {i : Instr} (hp : s.phase = .idle) (hr : reachable s = true)
    (h : exec i (s.drive (PortIn.present (encode i))) = .next t) :
    step (s.drive (PortIn.present (encode i))) = .next t.shiftInputs := by
  rw [← stepAt_modulus]
  rw [← execAt_modulus] at h
  exact stepAt_idle_command hp hr ⟨rfl, rfl, rfl⟩ h

/-- RDEXP of an index that exists answers its entry. -/
theorem step_rdexp {s : State} (hr : reachable s = true) (hv : s.valid = true) {i : Byte} (hi : i ≠ 255) :
    ∃ t, step (s.drive (PortIn.present (encode (.rdexp i)))) = .next t ∧
      t.hostResult = .data (entry .exp i.toNat s) :=
  ⟨_, step_drive_idle (idle_of_valid hr hv) hr (exec_rdexp_entry hv hi), congrArg HostResult.data (entry_drive _ _ _ _)⟩

/-- RDLOG of any index answers its entry. -/
theorem step_rdlog {s : State} (hr : reachable s = true) (hv : s.valid = true) (b : Byte) :
    ∃ t, step (s.drive (PortIn.present (encode (.rdlog b)))) = .next t ∧
      t.hostResult = .data (entry .log b.toNat s) :=
  ⟨_, step_drive_idle (idle_of_valid hr hv) hr (exec_rdlog_entry b hv), congrArg HostResult.data (entry_drive _ _ _ _)⟩

/-- RDEXP of the sentinel index answers an error (60_exceptions.md R163). -/
theorem step_rdexp_sentinel {s : State} (hr : reachable s = true) (hv : s.valid = true) :
    ∃ t, step (s.drive (PortIn.present (encode (.rdexp 255)))) = .next t ∧ t.hostResult = .error .badIndex :=
  ⟨_, step_drive_idle (idle_of_valid hr hv) hr (exec_rdexp_badIndex hv), rfl⟩

/-! ## The boot sequence -/

/-- After the reset edge of the boot sequence the machine is about to begin a generation, with no input after START. -/
theorem startsGeneration_boot (m : Modulus) (n : Nat) (p : State) :
    StartsGeneration m n (resetEdge (p.withInputs bootInputs)).shiftInputs :=
  startsGeneration_after_reset ⟨rfl, rfl, rfl⟩ fun d hd => by
    obtain rfl := List.mem_singleton.1 (List.mem_of_mem_take hd)
    rfl

/-- Settles O50: the boot sequence is a reset edge and a generation, and the host reads complete tables, which are each
other's inverse. -/
theorem bootSequenceDeliversTheTables : Obligations.BootSequenceDeliversTheTables := by
  unfold Obligations.BootSequenceDeliversTheTables
  intro p
  have hstart := startsGeneration_boot Config.modulus 766 p
  obtain ⟨t, ht, hdone, htables, -⟩ := hstart.edges
  have hr : reachable t = true := edges_reachableAt hstart.reachable ht
  obtain ⟨hv, -⟩ := generationComplete_iff.1 hdone
  refine ⟨t, ?boot, hv, hdone, fun i hi => ?rdexp, fun b hb => ?rdlog, step_rdexp_sentinel hr hv⟩
  case boot => rw [← stepAt_modulus, edges_succ, stepAt_reset (by rfl), andThen_next, ht]
  case rdexp =>
    obtain ⟨u, hu, hdata⟩ := step_rdexp hr hv hi
    exact ⟨u, hu, hdata.trans (congrArg HostResult.data (htables.1 _ (toNat_lt_of_ne hi)))⟩
  case rdlog =>
    obtain ⟨u, hu, hdata⟩ := step_rdlog hr hv b
    obtain ⟨hexp, hle⟩ := exp_log_of_complete htables hb
    refine ⟨u, _, hu, hdata, fun h => ?_, (htables.1 _ (Nat.lt_succ_of_le hle)).symm.trans hexp⟩
    rw [h] at hle
    exact absurd hle (by decide)

/-! ## WAITDONE, one STATUS at a time (30_encoding.md R71; log 13) -/

/-- The state with STATUS on the port at the next edge. -/
def State.askStatus (s : State) : State := s.drive (PortIn.present (encode .status))

theorem waitDoneTrace_succ {s t : State} (n : Nat) (h : step s.askStatus = .next t) :
    waitDoneTrace (n + 1) s =
      if t.rspData.getLsbD 0 then some [⟨s.askStatus, t⟩] else (waitDoneTrace n t).map (⟨s.askStatus, t⟩ :: ·) := by
  unfold State.askStatus at h ⊢
  simp only [waitDoneTrace, h]

/-- A WAITDONE whose edges have no trace has no state after them. -/
theorem waitDone_of_trace_none : ∀ {n : Nat} {s : State}, waitDoneTrace n s = none → waitDone n s = none
  | 0, _, _ => rfl
  | n + 1, s, h => by
    rw [waitDoneTrace] at h
    rw [waitDone]
    cases hs : step (s.drive (PortIn.present (encode .status))) with
    | next t =>
      simp only [hs] at h ⊢
      split at h
      · cases h
      · next hb =>
        rw [if_neg hb]
        exact waitDone_of_trace_none (Option.map_eq_none_iff.1 h)
    | fault e | refused e => rfl

/-- A STATUS edge answers the status byte of the state before it. -/
theorem step_askStatus {s : State} (hr : reachable s = true) :
    ∃ t, step s.askStatus = .next t ∧ t.rspData = statusByte s := by
  rw [← stepAt_modulus]
  have hc : commandPart (execAt Config.modulus) s.askStatus = .next (respond .ok (statusByte s) s.askStatus) :=
    commandPart_of_accepts (i := .status) ⟨rfl, rfl, rfl⟩
  obtain ⟨t, -, ht, -, -, hresponse⟩ := stepAt_of_respond (s := s.askStatus) rfl hr hc
  exact ⟨t, ht, hresponse.rspData⟩

/-- Bit 0 of the status byte is `valid` (10_state.md R31). -/
theorem statusByte_valid (s : State) : (statusByte s).getLsbD 0 = s.valid := by
  obtain ⟨-, -, -, hvalid⟩ := statusByte_fields s
  exact hvalid

/-- While `valid` is 0 WAITDONE goes on after a STATUS. -/
theorem waitDoneTrace_pending {s t : State} (hr : reachable s = true) (hv : s.valid = false)
    (h : step s.askStatus = .next t) (n : Nat) :
    waitDoneTrace (n + 1) s = (waitDoneTrace n t).map (⟨s.askStatus, t⟩ :: ·) := by
  obtain ⟨t', ht', hdata⟩ := step_askStatus hr
  obtain rfl := Host.Outcome.next.inj (ht'.symm.trans h)
  rw [waitDoneTrace_succ n h, hdata, statusByte_valid, hv]
  rfl

/-- In IDLE a STATUS edge writes the response registers and nothing else. -/
theorem step_askStatus_idle {s : State} (hp : s.phase = .idle) (hr : reachable s = true) :
    step s.askStatus = .next (s.responding .ok (statusByte s)) := step_drive_idle hp hr (exec_status _)

/-- Once `valid` is 1 the next STATUS ends WAITDONE. -/
theorem waitDoneTrace_done {s : State} (hr : reachable s = true) (hv : s.valid = true) (n : Nat) :
    waitDoneTrace (n + 1) s = some [⟨s.askStatus, s.responding .ok 0x01⟩] := by
  have hp := idle_of_valid hr hv
  have ht := step_askStatus_idle hp hr
  rw [show statusByte s = 0x01 from statusByte_of hp hv] at ht
  exact (waitDoneTrace_succ n ht).trans (if_pos (show (0x01 : Byte).getLsbD 0 = true by decide))

/-! ## WAITDONE over a generation -/

/-- An edge of a WAITDONE that neither begins nor completes a generation. -/
structure AsksInVain (r : EdgeRecord) : Prop where
  asks : r.before.portIn = PortIn.present (encode .status)
  pending : r.completes = false

theorem completes_of_busy {r : EdgeRecord} (h : r.after.phase ≠ .idle) : r.completes = false :=
  Bool.eq_false_iff.2 fun hc => h ((completes_iff r).1 hc).2

/-- What a generation keeps does not speak of what the host drives. -/
theorem GenerationKept.askStatus {m : Modulus} {s : State} (h : GenerationKept m s) : GenerationKept m s.askStatus :=
  ⟨h.reachable, ⟨h.tables.expWritten, h.tables.logWritten⟩, h.curHeld⟩

/-- One STATUS of a WAITDONE during a generation: the sequencer moves on, and WAITDONE does too. -/
theorem GenerationKept.waitDoneTrace_step {s : State} (h : GenerationKept Config.modulus s) (hp : 0 < s.position) :
    ∃ t, step s.askStatus = .next t ∧ GenerationKept Config.modulus t ∧ t.inputs = s.inputs ∧
      ((s.position < 766 ∧ t.position = s.position + 1) ∨ (s.position = 766 ∧ t.generationComplete = true)) ∧
      ∀ n, waitDoneTrace (n + 1) s = (waitDoneTrace n t).map (⟨s.askStatus, t⟩ :: ·) := by
  obtain ⟨t, ht, hkept, hin, hpos⟩ := h.askStatus.stepAt (busy_of_position hp) rfl
  rw [stepAt_modulus] at ht
  exact ⟨t, ht, hkept, hin, hpos, waitDoneTrace_pending h.reachable (h.valid_of_position hp) ht⟩

/-- `n` STATUS edges of a WAITDONE that move the generation on by `n` positions. -/
theorem GenerationKept.waitDoneTrace {n : Nat} {s : State} (h : GenerationKept Config.modulus s)
    (hp : 0 < s.position) (hn : s.position + n ≤ 766) :
    ∃ (t : State) (es : List EdgeRecord), GenerationKept Config.modulus t ∧ t.position = s.position + n ∧
      t.inputs = s.inputs ∧ es.length = n ∧ (∀ r ∈ es, AsksInVain r) ∧
      ∀ k, Machine.waitDoneTrace (k + n) s = (Machine.waitDoneTrace k t).map (es ++ ·) := by
  induction n generalizing s with
  | zero => exact ⟨s, [], h, rfl, rfl, rfl, by simp, fun k => by simp⟩
  | succ n ih =>
    obtain ⟨u, -, hkept, hin, ⟨-, hpos⟩ | ⟨hlast, -⟩, hnext⟩ := h.waitDoneTrace_step hp
    · obtain ⟨t, es, hkept', hpos', hin', hlen, hes, hrest⟩ := ih hkept (by omega) (by omega)
      have hbusy : u.phase ≠ .idle := busy_of_position (by omega)
      refine ⟨t, ⟨s.askStatus, u⟩ :: es, hkept', by omega, hin'.trans hin, by rw [List.length_cons, hlen],
        List.forall_mem_cons.2 ⟨⟨rfl, completes_of_busy hbusy⟩, hes⟩, fun k => ?_⟩
      rw [← Nat.add_assoc, hnext, hrest, Option.map_map]
      rfl
    · omega

/-- WAITDONE from the entry state of EXP_GEN: 765 STATUS edges inside the generation, the completing one to `u`, and the
one that reports it; within 766 there is no end. -/
theorem waitDoneTrace_from_entry {s : State} (hp : s.phase = .expGen) (hi : s.idx = 0) (hr : reachable s = true) :
    waitDoneTrace 766 s = none ∧ ∃ (es : List EdgeRecord) (pre u : State), es.length = 765 ∧ (∀ q ∈ es, AsksInVain q) ∧
      pre.portIn = PortIn.present (encode .status) ∧ u.generationComplete = true ∧ u.tablesComplete Config.modulus ∧
      u.inputs = s.inputs ∧
      ∀ k, waitDoneTrace (k + 767) s = some (es ++ [⟨pre, u⟩, ⟨u.askStatus, u.responding .ok 0x01⟩]) := by
  obtain ⟨hkept, hpos⟩ := generationKept_entry (m := Config.modulus) hp hi hr
  obtain ⟨t, es, hkept, hpos, hin, hlen, hes, htrace⟩ := hkept.waitDoneTrace (n := 765) (by omega) (by omega)
  obtain ⟨u, -, hkeptu, hinu, ⟨hlt, -⟩ | ⟨-, hcomplete⟩, hnext⟩ := hkept.waitDoneTrace_step (by omega)
  · omega
  obtain ⟨hv, -⟩ := generationComplete_iff.1 hcomplete
  have hends := waitDoneTrace_done hkeptu.reachable hv
  refine ⟨?within, es, t.askStatus, u, hlen, hes, rfl, hcomplete, hkeptu.tables.complete hkeptu.reachable hv,
    hinu.trans hin, fun k => ?ends⟩
  case within => rw [htrace 1, hnext 0]; rfl
  case ends => rw [show k + 767 = k + 1 + 1 + 765 from rfl, htrace, hnext, hends]; rfl

/-- A WAITDONE on an idle machine without tables goes on as long as it may (R71). -/
theorem waitDoneTrace_idle (n : Nat) {s : State} (hp : s.phase = .idle) (hv : s.valid = false)
    (hr : reachable s = true) : waitDoneTrace n s = none := by
  induction n generalizing s with
  | zero => rfl
  | succ n ih =>
    have ht := step_askStatus_idle hp hr
    rw [waitDoneTrace_pending hr hv ht, ih (by exact hp) (by exact hv) (by exact hr), Option.map_none]

/-- Settles O51: the 767th STATUS is the first to read `valid` = 1, and without a generation none is. -/
theorem waitDoneEndsWithTheGeneration : Obligations.WaitDoneEndsWithTheGeneration := by
  unfold Obligations.WaitDoneEndsWithTheGeneration
  refine ⟨fun s hp hi hr => ?_, fun n s hp hv hr => waitDone_of_trace_none (waitDoneTrace_idle n hp hv hr)⟩
  obtain ⟨hnone, es, pre, u, -, -, -, hcomplete, -, hin, hends⟩ := waitDoneTrace_from_entry hp hi hr
  obtain ⟨-, hdone⟩ := waitDone_of_trace (hends 0)
  obtain ⟨hvalid, -⟩ := generationComplete_iff.1 hcomplete
  have hlast : stateAfter s (es ++ [⟨pre, u⟩, ⟨u.askStatus, u.responding .ok 0x01⟩]) = u.responding .ok 0x01 := by
    simp [stateAfter]
  exact ⟨waitDone_of_trace_none hnone, u.responding .ok 0x01, hdone.trans (congrArg some hlast), hvalid, rfl, rfl, hin⟩

end Sys2Proof.Machine
end

