-- ==== Sys2Proof/Proofs/RunEnds.lean ====
section
/-! The end of a run and of a host program (70_reset_and_hazards.md R190): what `runEnd` and `programEnd` answer for any
list of edges, and for the edges of one generation after any others. -/

namespace Sys2Proof.Machine

/-! ## The kinds of edge -/

/-- An edge begins a run where it accepts the word of START and answers OK. -/
theorem startsRun_iff_accepts (r : EdgeRecord) :
    r.startsRun = true ↔ r.before.accepts (encode .start) ∧ r.after.rspStatus = .ok := by
  rw [startsRun_iff, decode_eq_command_iff, State.accepts, eq_comm (a := encode .start), and_assoc, and_assoc]

theorem acceptsCommand_iff_accepts (r : EdgeRecord) : r.acceptsCommand = true ↔ ∃ w, r.before.accepts w := by
  rw [acceptsCommand_iff]
  exact ⟨fun ⟨hn, hv⟩ => ⟨_, hn, hv, rfl⟩, fun ⟨_, hn, hv, _⟩ => ⟨hn, hv⟩⟩

theorem edgeAt_pos {es : List EdgeRecord} {n : Nat} {r : EdgeRecord} (h : edgeAt es n = some r) : 0 < n := by
  cases n with
  | zero => cases h
  | succ n => exact n.succ_pos

/-! ## What `runEnd` and `programEnd` answer (R190) -/

theorem runEnd_eq_some {es : List EdgeRecord} {n : Nat} : runEnd es = some n ↔ ∃ t0 j,
    lastEdgeWith EdgeRecord.startsRun es = some t0 ∧ firstEdgeWith EdgeRecord.completes (es.drop t0) = some j ∧
      n = t0 + j := by
  unfold runEnd
  cases lastEdgeWith EdgeRecord.startsRun es <;> simp [eq_comm]

/-- A run ends at the first completing edge after the last START. -/
theorem runEnd_iff (es : List EdgeRecord) (n : Nat) : runEnd es = some n ↔
    ∃ t0 r0 r, t0 < n ∧
      (edgeAt es t0 = some r0 ∧ r0.before.accepts (encode .start) ∧ r0.after.rspStatus = .ok) ∧
      (∀ k q, t0 < k → edgeAt es k = some q →
        ¬ (q.before.accepts (encode .start) ∧ q.after.rspStatus = .ok)) ∧
      (edgeAt es n = some r ∧ r.after.valid = true ∧ r.after.phase = .idle) ∧
      ∀ k q, t0 < k → k < n → edgeAt es k = some q → ¬ (q.after.valid = true ∧ q.after.phase = .idle) := by
  simp only [runEnd_eq_some, lastEdgeWith_eq_some, firstEdgeWith_eq_some, ← startsRun_iff_accepts, ← completes_iff,
    Bool.not_eq_true]
  constructor
  · rintro ⟨t0, j, ⟨⟨r0, hr0, hstart⟩, hlast⟩, ⟨⟨r, hr, hdone⟩, hfirst⟩, rfl⟩
    have hj := edgeAt_pos hr
    rw [edgeAt_drop es t0 j hj] at hr
    refine ⟨t0, r0, r, by omega, ⟨hr0, hstart⟩, hlast, ⟨hr, hdone⟩, fun k q hk hkn hq => ?_⟩
    refine hfirst (k - t0) q (by omega) ?_
    rwa [edgeAt_drop es t0 _ (by omega), Nat.add_sub_cancel' hk.le]
  · rintro ⟨t0, r0, r, hlt, ⟨hr0, hstart⟩, hlast, ⟨hr, hdone⟩, hfirst⟩
    refine ⟨t0, n - t0, ⟨⟨r0, hr0, hstart⟩, hlast⟩, ⟨⟨r, ?_, hdone⟩, fun k q hk hq => ?_⟩, by omega⟩
    · rwa [edgeAt_drop es t0 _ (by omega), Nat.add_sub_cancel' hlt.le]
    · have hk0 := edgeAt_pos hq
      rw [edgeAt_drop es t0 k hk0] at hq
      exact hfirst (t0 + k) q (by omega) (by omega) hq

/-- A host program ends at the edge after its last accepted command. -/
theorem programEnd_iff (es : List EdgeRecord) (n : Nat) : programEnd es = some n ↔
    ∃ t r, n = t + 1 ∧ edgeAt es t = some r ∧ (∃ w, r.before.accepts w) ∧
      ∀ k q, t < k → edgeAt es k = some q → ∀ w, ¬ q.before.accepts w := by
  simp only [programEnd, Option.map_eq_some_iff, lastEdgeWith_eq_some, ← acceptsCommand_iff_accepts, ← not_exists,
    Bool.not_eq_true]
  constructor
  · rintro ⟨t, ⟨⟨r, hr, hacc⟩, hlast⟩, rfl⟩
    exact ⟨t, r, rfl, hr, hacc, hlast⟩
  · rintro ⟨t, r, rfl, hr, hacc, hlast⟩
    exact ⟨t, ⟨⟨r, hr, hacc⟩, hlast⟩, rfl⟩

/-! ## The observation of a run, and its reads -/

theorem runObservation_eq {es : List EdgeRecord} {n : Nat} {r : EdgeRecord} (h : runEnd es = some n)
    (hr : edgeAt es n = some r) : runObservation es = some r.after.tableContents := by
  simp only [runObservation, h, hr, Option.map_some]

theorem expTable_getElem? (s : State) {k : Nat} (hk : k < 255) : s.expTable[k]? = some (entry .exp k s) := by
  simp [State.expTable, hk]

theorem logTable_getElem? (s : State) {k : Nat} (hk : k < 256) : s.logTable[k]? = some (entry .log k s) := by
  simp [State.logTable, hk]

theorem tableContents_congr {s t : State} (hexp : s.expMem = t.expMem) (hlog : s.logMem = t.logMem) :
    s.tableContents = t.tableContents := by
  simp only [State.tableContents, State.expTable, State.logTable, entry_eq_of_tables hexp hlog]

/-- While `valid` is 1 the host may read what the tables hold. -/
theorem delivers_tableContents {s : State} (hr : reachable s = true) (hv : s.valid = true) :
    s.delivers s.tableContents := by
  refine ⟨fun i hi => ?_, fun b => ?_⟩
  · obtain ⟨t, ht, hdata⟩ := step_rdexp hr hv hi
    exact ⟨t, _, ht, hdata, expTable_getElem? s (toNat_lt_of_ne hi)⟩
  · obtain ⟨t, ht, hdata⟩ := step_rdlog hr hv b
    exact ⟨t, _, ht, hdata, logTable_getElem? s b.isLt⟩

/-- It may go on reading them for as long as neither reset nor START comes. -/
theorem delivers_after {s : State} {j : Nat} (hr : reachable s = true) (hv : s.valid = true)
    (hu : s.undisturbedFor j) : ∃ t, edges step j s = .next t ∧ t.delivers s.tableContents := by
  rw [← stepAt_modulus]
  obtain ⟨t, ht, -, hvalid, hexp, hlog⟩ := edges_idle (idle_of_valid hr hv) hr hu
  refine ⟨t, ht, ?_⟩
  rw [← tableContents_congr hexp hlog]
  exact delivers_tableContents (edges_reachableAt hr ht) (hvalid.trans hv)

/-- Each record of a trace is one edge. -/
theorem edge_of_trace {edge : State → Result} {n k : Nat} {s : State} {es : List EdgeRecord} {r : EdgeRecord}
    (h : trace edge n s = some es) (hr : edgeAt es (k + 1) = some r) : edge r.before = .next r.after := by
  obtain ⟨hbefore, hafter⟩ := edges_of_trace h hr
  rwa [edges_succ_last, hbefore] at hafter

/-- Settles O56: a run's end and a program's end as the first and last edges of a kind; the reads at the end by the frame
of an idle machine; and the last sample by the answer to the last accepted command. -/
theorem runEndsAtTheFirstCompletionAfterTheLastStart :
    Obligations.RunEndsAtTheFirstCompletionAfterTheLastStart := by
  unfold Obligations.RunEndsAtTheFirstCompletionAfterTheLastStart
  refine ⟨runEnd_iff, fun es n r hend hr => ?observation, programEnd_iff, fun s k es n htrace hend => ?sample⟩
  case observation =>
    obtain ⟨t0, r0, r', -, -, -, ⟨hr', hv, -⟩, -⟩ := (runEnd_iff es n).1 hend
    obtain rfl := Option.some.inj (hr.symm.trans hr')
    refine ⟨_, runObservation_eq hend hr, fun k => expTable_getElem? _, by simp [State.expTable],
      fun k => logTable_getElem? _, by simp [State.logTable], fun j hreach => delivers_after hreach hv⟩
  case sample =>
    obtain ⟨t, ht, hn⟩ := Option.map_eq_some_iff.1 hend
    obtain rfl := Nat.succ.inj hn
    obtain ⟨⟨r, hr, hacc⟩, -⟩ := lastEdgeWith_eq_some.1 ht
    obtain ⟨j, rfl⟩ : ∃ j, t = j + 1 := ⟨t - 1, by have := edgeAt_pos hr; omega⟩
    obtain ⟨-, hedges⟩ := edges_of_trace htrace hr
    have hstep := edge_of_trace htrace hr
    rw [← stepAt_modulus] at hstep
    refine ⟨r.after, hedges, (stepAt_rspValid_iff hstep).2 ((acceptsCommand_iff r).1 hacc), ?_⟩
    simp only [lastSample, ht, hr, Option.map_some]

/-! ## Lists of edges in parts -/

theorem lastEdgeWith_parts {p : EdgeRecord → Bool} (es : List EdgeRecord) {r : EdgeRecord} {rest : List EdgeRecord}
    (hr : p r = true) (hrest : ∀ q ∈ rest, p q = false) :
    lastEdgeWith p (es ++ r :: rest) = some (es.length + 1) := by
  induction es with
  | nil => simp [lastEdgeWith, lastEdgeWith_eq_none.2 hrest, hr]
  | cons q es ih => simp [lastEdgeWith, ih]

theorem firstEdgeWith_parts {p : EdgeRecord → Bool} {es : List EdgeRecord} {r : EdgeRecord} (rest : List EdgeRecord)
    (hes : ∀ q ∈ es, p q = false) (hr : p r = true) :
    firstEdgeWith p (es ++ r :: rest) = some (es.length + 1) := by
  induction es with
  | nil => simp [firstEdgeWith, hr]
  | cons q es ih =>
    obtain ⟨hq, hes⟩ := List.forall_mem_cons.1 hes
    simp [firstEdgeWith, hq, ih hes]

theorem edgeAt_parts (es : List EdgeRecord) (r : EdgeRecord) (rest : List EdgeRecord) :
    edgeAt (es ++ r :: rest) (es.length + 1) = some r := by
  simp

theorem drop_parts (es : List EdgeRecord) (r : EdgeRecord) (rest : List EdgeRecord) :
    (es ++ r :: rest).drop (es.length + 1) = rest := by
  simp

/-- The run that the last START begins, with no completing edge after it. -/
theorem runEnd_unfinished (before : List EdgeRecord) {r0 : EdgeRecord} {during : List EdgeRecord}
    (h0 : r0.startsRun = true) (hstart : ∀ q ∈ during, q.startsRun = false)
    (hduring : ∀ q ∈ during, q.completes = false) : runEnd (before ++ r0 :: during) = none := by
  rw [runEnd, lastEdgeWith_parts before h0 hstart]
  simp only [drop_parts, firstEdgeWith_eq_none.2 hduring, Option.map_none]

/-- The run that the last START begins, with its first completing edge `r1`. -/
theorem runEnd_finished (before : List EdgeRecord) {r0 r1 : EdgeRecord} {during after : List EdgeRecord}
    (h0 : r0.startsRun = true) (hstart : ∀ q ∈ during ++ r1 :: after, q.startsRun = false)
    (hduring : ∀ q ∈ during, q.completes = false) (h1 : r1.completes = true) :
    runEnd (before ++ r0 :: (during ++ r1 :: after)) = some (before.length + 1 + (during.length + 1)) ∧
      runObservation (before ++ r0 :: (during ++ r1 :: after)) = some r1.after.tableContents := by
  have hend : runEnd (before ++ r0 :: (during ++ r1 :: after)) = some (before.length + 1 + (during.length + 1)) := by
    rw [runEnd, lastEdgeWith_parts before h0 hstart]
    simp only [drop_parts, firstEdgeWith_parts after hduring h1, Option.map_some]
  refine ⟨hend, runObservation_eq hend ?_⟩
  have hparts := edgeAt_parts (before ++ r0 :: during) r1 after
  simpa [Nat.add_assoc, Nat.add_comm, Nat.add_left_comm] using hparts

/-! ## The trace of a generation -/

theorem trace_succ {edge : State → Result} {n : Nat} {s t : State} {es : List EdgeRecord} (h : edge s = .next t)
    (ht : trace edge n t = some es) : trace edge (n + 1) s = some (⟨s, t⟩ :: es) := by
  simp only [trace, h, ht, Option.map_some]

/-- The records of edges in a row, in two parts. -/
theorem trace_add {edge : State → Result} {k n : Nat} {s t : State} {es es' : List EdgeRecord}
    (h : trace edge k s = some es) (ht : edges edge k s = .next t) (h' : trace edge n t = some es') :
    trace edge (k + n) s = some (es ++ es') := by
  induction k generalizing s es with
  | zero =>
    obtain rfl := Option.some.inj h
    obtain rfl := Host.Outcome.next.inj ht
    rwa [Nat.zero_add]
  | succ k ih =>
    obtain ⟨u, rest, hu, hrest, rfl⟩ := trace_succ_inv h
    rw [edges_succ, hu, andThen_next] at ht
    rw [Nat.add_right_comm]
    exact trace_succ hu (ih hrest ht)

/-- An edge that neither begins a run nor completes one. -/
structure MidRun (r : EdgeRecord) : Prop where
  noStart : r.startsRun = false
  pending : r.completes = false

/-- No run begins at an edge from a state outside IDLE: START is answered NOTREADY. -/
theorem startsRun_of_busy {m : Modulus} {s t : State} (h : stepAt m s = .next t) (hp : s.phase ≠ .idle) :
    EdgeRecord.startsRun ⟨s, t⟩ = false := by
  refine Bool.eq_false_iff.2 fun hs => ?_
  obtain ⟨hacc, hok⟩ := (startsRun_iff_accepts _).1 hs
  have hstatus := stepAt_rspStatus hacc h
  rw [decode_encode, firstCause, if_neg hp] at hstatus
  cases hstatus.symm.trans hok

/-- No run begins at an edge that accepts no START. -/
theorem startsRun_of_not_accepts {r : EdgeRecord} (h : ¬ r.before.accepts (encode .start)) : r.startsRun = false :=
  Bool.eq_false_iff.2 fun hs => h ((startsRun_iff_accepts r).1 hs).1

/-- The records of `n` edges inside a generation. -/
theorem GenerationKept.trace {m : Modulus} {n k : Nat} {s : State} (h : GenerationKept m s) (hp : 0 < s.position)
    (hn : s.position + n ≤ 766) (hr : s.noResetFor (n + k)) :
    ∃ (t : State) (es : List EdgeRecord), Machine.edges (Machine.stepAt m) n s = .next t ∧
      Machine.trace (Machine.stepAt m) n s = some es ∧
      (∀ r ∈ es, MidRun r) ∧ GenerationKept m t ∧ t.position = s.position + n ∧ t.noResetFor k := by
  induction n generalizing s with
  | zero => exact ⟨s, [], rfl, rfl, by simp, h, rfl, by rwa [Nat.zero_add] at hr⟩
  | succ n ih =>
    obtain ⟨hrst, hrest⟩ := noResetFor_succ (n := n + k) (by rwa [Nat.succ_add] at hr)
    have hbusy := busy_of_position hp
    obtain ⟨u, hu, hkept, hin, ⟨-, hpos⟩ | ⟨hlast, -⟩⟩ := h.stepAt hbusy hrst
    · obtain ⟨t, es, ht, htrace, hes, hkept', hpos', hk⟩ := ih hkept (by omega) (by omega) (hrest u hin)
      have hnext : u.phase ≠ .idle := busy_of_position (by omega)
      have hmid : MidRun ⟨s, u⟩ := ⟨startsRun_of_busy hu hbusy, completes_of_busy hnext⟩
      refine ⟨t, ⟨s, u⟩ :: es, ?_, trace_succ hu htrace, List.forall_mem_cons.2 ⟨hmid, hes⟩, hkept', by omega, hk⟩
      rw [edges_succ, hu, andThen_next, ht]
    · omega

/-- The records of an idle machine that is sent no START begin no run. -/
theorem trace_idle {m : Modulus} {n : Nat} {s : State} (hp : s.phase = .idle) (hr : reachableAt m s = true)
    (hu : s.undisturbedFor n) : ∃ es, trace (stepAt m) n s = some es ∧ ∀ r ∈ es, r.startsRun = false := by
  induction n generalizing s with
  | zero => exact ⟨[], rfl, by simp⟩
  | succ n ih =>
    obtain ⟨hn, hs, hrest⟩ := undisturbedFor_succ hu
    obtain ⟨u, hstep, hphase, -, -, -, -, -, hin⟩ := stepAt_idle hp hr hn hs
    obtain ⟨es, htrace, hes⟩ := ih (s := u.shiftInputs) (hphase.symm.trans hp) (stepAt_reachableAt hr hstep)
      (hrest _ (congrArg List.tail hin.symm))
    exact ⟨_, trace_succ hstep htrace, List.forall_mem_cons.2 ⟨startsRun_of_not_accepts hs, hes⟩⟩

/-- The edge of an accepted START begins a run, and enters EXP_GEN. -/
theorem StartsGeneration.startsRun {m : Modulus} {n : Nat} {s : State} (h : StartsGeneration m n s) :
    ∃ u, Machine.stepAt m s = .next u ∧ EdgeRecord.startsRun ⟨s, u⟩ = true ∧ GenerationKept m u ∧ u.position = 1 ∧
      u.noResetFor n := by
  obtain ⟨u, hu, hp, hi, hr, hq⟩ := h.stepAt
  obtain ⟨hkept, hpos⟩ := generationKept_entry hp hi hr
  have hok := stepAt_rspStatus h.start hu
  rw [decode_encode, firstCause, if_pos h.idle] at hok
  exact ⟨u, hu, (startsRun_iff_accepts _).2 ⟨h.start, hok⟩, hkept, hpos, hq⟩

theorem noResetFor_mono {s : State} {k n : Nat} (h : s.noResetFor n) (hk : k ≤ n) : s.noResetFor k :=
  fun d hd => h d (List.take_subset_take_left _ hk hd)

theorem StartsGeneration.mono {m : Modulus} {k n : Nat} {s : State} (h : StartsGeneration m n s) (hk : k ≤ n) :
    StartsGeneration m k s :=
  { h with noReset := noResetFor_mono h.noReset (Nat.succ_le_succ hk) }

/-- A START and fewer than 766 edges after it: a run without an end. -/
theorem StartsGeneration.trace_unfinished {m : Modulus} {j : Nat} {s : State} (h : StartsGeneration m 766 s)
    (hj : j < 766) :
    ∃ (r0 : EdgeRecord) (during : List EdgeRecord),
      Machine.trace (Machine.stepAt m) (j + 1) s = some (r0 :: during) ∧ r0.startsRun = true ∧ ∀ q ∈ during, MidRun q := by
  obtain ⟨u, hu, h0, hkept, hpos, hq⟩ := (h.mono hj.le).startsRun
  obtain ⟨-, during, -, htrace, hduring, -⟩ := hkept.trace (n := j) (k := 0) (by omega) (by omega) hq
  exact ⟨_, during, trace_succ hu htrace, h0, hduring⟩

/-- A START, the 765 edges of its generation, the completing one, and `n` more without START. -/
theorem StartsGeneration.trace_finished {m : Modulus} {n : Nat} {s : State} (h : StartsGeneration m (766 + n) s)
    (hstart : ∀ d ∈ (s.inputs.take (767 + n)).drop 767, d.cmdValid = true → d.cmd ≠ encode .start) :
    ∃ (r0 : EdgeRecord) (during : List EdgeRecord) (r1 : EdgeRecord) (after : List EdgeRecord),
      Machine.trace (Machine.stepAt m) (767 + n) s = some (r0 :: (during ++ r1 :: after)) ∧
      r0.startsRun = true ∧ during.length = 765 ∧ (∀ q ∈ during, MidRun q) ∧
      (∀ q ∈ r1 :: after, q.startsRun = false) ∧ r1.completes = true ∧ r1.after.tablesComplete m := by
  obtain ⟨u, hu, h0, hkept, hpos, hq⟩ := h.startsRun
  obtain ⟨v, during, hv, hduring, hmid, hkeptv, hposv, hqv⟩ := hkept.trace (n := 765) (k := 1 + n) (by omega) (by omega)
    (by rwa [← Nat.add_assoc])
  have hbusy : v.phase ≠ .idle := busy_of_position (by omega)
  obtain ⟨hrst, -⟩ := noResetFor_succ (noResetFor_mono hqv (Nat.le_add_right 1 n))
  obtain ⟨w, hw, hkeptw, -, ⟨hlt, -⟩ | ⟨-, hdone⟩⟩ := hkeptv.stepAt hbusy hrst
  · omega
  obtain ⟨hvalid, hidle⟩ := generationComplete_iff.1 hdone
  have hedges : Machine.edges (Machine.stepAt m) 767 s = .next w := by
    rw [edges_succ, hu, andThen_next, edges_succ_last, hv, andThen_next, hw]
  have hundisturbed := undisturbedFor_of_drop (edges_inputs hedges) (Nat.add_right_comm 766 n 1 ▸ h.noReset) hstart
  obtain ⟨after, hafter, hnone⟩ := trace_idle hidle hkeptw.reachable hundisturbed
  refine ⟨_, during, ⟨v, w⟩, after, ?_, h0, trace_length hduring, hmid,
    List.forall_mem_cons.2 ⟨startsRun_of_busy hw hbusy, hnone⟩, hdone, hkeptw.tables.complete hkeptw.reachable hvalid⟩
  have hrest := trace_add hduring hv (trace_succ hw hafter)
  rw [show 767 + n = 765 + (n + 1) + 1 by omega]
  exact trace_succ hu hrest

/-- Settles O57: the edges of a generation are its START, 765 edges inside it, the completing one, and edges of an idle
machine; those before the START do not matter. -/
theorem generationIsOneRun : Obligations.GenerationIsOneRun := by
  unfold Obligations.GenerationIsOneRun
  intro m k n s t before hbefore ht hgen hstart
  have hlen := trace_length hbefore
  refine ⟨fun j hj hle => ?unfinished, ?finished⟩
  case unfinished =>
    obtain ⟨i, rfl⟩ : ∃ i, j = i + 1 := ⟨j - 1, by omega⟩
    obtain ⟨r0, during, htrace, h0, hmid⟩ := (hgen.mono (Nat.le_add_right 766 n)).trace_unfinished hle
    exact ⟨_, trace_add hbefore ht htrace,
      runEnd_unfinished before h0 (fun q hq => (hmid q hq).noStart) fun q hq => (hmid q hq).pending⟩
  case finished =>
    obtain ⟨r0, during, r1, after, htrace, h0, hduring, hmid, hafter, h1, htables⟩ := hgen.trace_finished hstart
    have hnone : ∀ q ∈ during ++ r1 :: after, q.startsRun = false :=
      List.forall_mem_append.2 ⟨fun q hq => (hmid q hq).noStart, hafter⟩
    obtain ⟨hend, hobs⟩ := runEnd_finished before h0 hnone (fun q hq => (hmid q hq).pending) h1
    obtain ⟨hexp, hlog⟩ := sourceTables_of_complete htables
    rw [hlen, hduring, Nat.add_assoc] at hend
    rw [State.tableContents, hexp, hlog] at hobs
    exact ⟨_, trace_add hbefore ht htrace, hend, hobs⟩

end Sys2Proof.Machine
end

