-- ==== Sys2Proof/Proofs/BootProgram.lean ====
section
/-! The boot sequence as a host program that waits with WAITDONE (70_reset_and_hazards.md R183, R190): its edges one by
one, and where its run and the program end. -/

namespace Sys2Proof.Machine

/-! ## Host programs, one action at a time -/

theorem playProgram_drive {bound : Nat} {d : PortIn} {rest : List HostAction} {s t : State} {es : List EdgeRecord}
    (h : step (s.drive d) = .next t) (hrest : playProgram bound rest t = some es) :
    playProgram bound (.drive d :: rest) s = some (⟨s.drive d, t⟩ :: es) := by
  have htrace : playAction bound (.drive d) s = some [⟨s.drive d, t⟩] := trace_succ h rfl
  have hafter : stateAfter s [⟨s.drive d, t⟩] = t := rfl
  simp only [playProgram, htrace, hafter, hrest, Option.map_some, List.singleton_append]

theorem playProgram_waitDone {bound : Nat} {s : State} {es : List EdgeRecord} (h : waitDoneTrace bound s = some es) :
    playProgram bound [.waitDone] s = some es := by
  have htrace : playAction bound .waitDone s = some es := h
  simp only [playProgram, htrace, Option.map_some, List.append_nil]

/-! ## The edges of the boot program -/

/-- A STATUS edge begins no run. -/
theorem startsRun_of_status {r : EdgeRecord} (h : r.before.portIn = PortIn.present (encode .status)) :
    r.startsRun = false :=
  startsRun_of_not_accepts fun ⟨_, _, hw⟩ => by
    rw [h] at hw
    exact absurd (encode_injective hw) (by decide)

theorem acceptsCommand_of_status {r : EdgeRecord} (h : r.before.portIn = PortIn.present (encode .status)) :
    r.acceptsCommand = true := by
  rw [acceptsCommand_iff, h]
  exact ⟨rfl, rfl⟩

/-- START presented to an idle machine begins a run and enters EXP_GEN. -/
theorem drive_start {s : State} (hp : s.phase = .idle) (hr : reachable s = true) :
    ∃ t, step (s.drive (PortIn.present (encode .start))) = .next t ∧
      EdgeRecord.startsRun ⟨s.drive (PortIn.present (encode .start)), t⟩ = true ∧ t.phase = .expGen ∧ t.idx = 0 ∧
      reachable t = true := by
  rw [← stepAt_modulus]
  have hacc : (s.drive (PortIn.present (encode .start))).accepts (encode .start) := ⟨rfl, rfl, rfl⟩
  have hstart := stepAt_start (m := Config.modulus) (by exact hp) (by exact hr) hacc
  exact ⟨_, hstart, (startsRun_iff_accepts _).2 ⟨hacc, rfl⟩, rfl, rfl, stepAt_reachableAt (by exact hr) hstart⟩

/-- After the reset edge and START come the 767 STATUS edges of a WAITDONE over a generation, of which the 766th completes
it and the last reports it. -/
theorem bootProgram_edges (p : State) (k : Nat) :
    ∃ (first second : EdgeRecord) (during : List EdgeRecord) (r1 last : EdgeRecord),
    playProgram (k + 767) bootProgram p = some ([first] ++ second :: (during ++ [r1, last])) ∧
      second.startsRun = true ∧ during.length = 765 ∧ (∀ q ∈ during, AsksInVain q) ∧
      r1.before.portIn = PortIn.present (encode .status) ∧ r1.completes = true ∧
      r1.after.tablesComplete Config.modulus ∧ last.before.portIn = PortIn.present (encode .status) ∧
      last.after.outputs = ⟨true, true, 0b00, 0x01, true, false⟩ := by
  have hreset : step (p.drive PortIn.reset) = .next (resetEdge (p.drive PortIn.reset)).shiftInputs :=
    clockEdge_reset rfl
  obtain ⟨u, hstart, h0, hp, hi, hr⟩ := drive_start (s := (resetEdge (p.drive PortIn.reset)).shiftInputs) rfl
    (reachableAt_resetEdge Config.modulus (p.drive PortIn.reset))
  obtain ⟨-, es, pre, v, hlen, hes, hpre, hdone, htables, -, hwait⟩ := waitDoneTrace_from_entry hp hi hr
  obtain ⟨hvalid, hidle⟩ := generationComplete_iff.1 hdone
  have hplay := playProgram_drive hreset (playProgram_drive hstart (playProgram_waitDone (hwait k)))
  refine ⟨_, _, es, ⟨pre, v⟩, _, hplay, h0, hlen, hes, hpre, hdone, htables, rfl, ?_⟩
  simp [State.outputs, State.cmdReady, State.done, State.busy, State.responding, Status.code, hvalid, hidle]

/-- A host program whose last edge accepts a command ends at the next edge, with that command's answer. -/
theorem programEnd_concat (es : List EdgeRecord) {last : EdgeRecord} (h : last.acceptsCommand = true) :
    programEnd (es ++ [last]) = some (es.length + 2) ∧ lastSample (es ++ [last]) = some last.after.outputs := by
  have hlast := lastEdgeWith_parts es h (rest := []) (by simp)
  refine ⟨by rw [programEnd, hlast, Option.map_some], ?_⟩
  simp only [lastSample, hlast, edgeAt_parts, Option.map_some]

/-- Settles O58: the run ends at the edge before the last STATUS, which reports it, and the program when that STATUS is
sampled. -/
theorem bootProgramEndsWithItsLastSample : Obligations.BootProgramEndsWithItsLastSample := by
  unfold Obligations.BootProgramEndsWithItsLastSample
  intro p bound hbound
  obtain ⟨k, rfl⟩ := Nat.exists_eq_add_of_le' hbound
  obtain ⟨first, second, during, r1, last, hplay, h0, hlen, hduring, hr1, hdone, htables, hlast, houtputs⟩ :=
    bootProgram_edges p k
  have hnone : ∀ q ∈ during ++ [r1, last], q.startsRun = false := by
    refine List.forall_mem_append.2 ⟨fun q hq => startsRun_of_status (hduring q hq).asks, ?_⟩
    simp [startsRun_of_status hr1, startsRun_of_status hlast]
  obtain ⟨hend, hobs⟩ := runEnd_finished [first] h0 hnone (fun q hq => (hduring q hq).pending) hdone
  obtain ⟨hexp, hlog⟩ := sourceTables_of_complete htables
  obtain ⟨hprogram, hsample⟩ :=
    programEnd_concat ([first] ++ second :: (during ++ [r1])) (acceptsCommand_of_status hlast)
  have hconcat : [first] ++ second :: (during ++ [r1]) ++ [last] =
      [first] ++ second :: (during ++ [r1, last]) := by simp
  rw [hconcat] at hprogram hsample
  rw [List.length_singleton, hlen] at hend
  rw [State.tableContents, hexp, hlog] at hobs
  refine ⟨_, hplay, by simp [hlen], hend, hprogram.trans ?_, hsample.trans (congrArg some houtputs), hobs⟩
  simp [hlen]

end Sys2Proof.Machine
end
